-- ==== Sys2Proof/Word.lean ====
section
/-! DEFINITION. The word types of the unit: 32-bit words, binary32 values held in a word, bytes of a host bus. -/

namespace Sys2Proof

/-- A word of the command port: a command word, an operand word or a result word (30_encoding.md R80). -/
abbrev Word := BitVec 32

/-- A binary32 value held in a 32-bit word, bit 31 the sign, bits 30..23 the biased exponent,
bits 22..0 the fraction (00_scope.md R7). -/
abbrev F32 := BitVec 32

/-- A byte lane's content on a byte-addressed host bus (20_memory.md R63). -/
abbrev Byte := BitVec 8

end Sys2Proof
end

