-- ==== Sys2Proof/Config.lean ====
section
/-! DEFINITION. What an implementation fixes: the parameters of 00_scope.md R5, R6, R8 and of 20_memory.md R63,
the draw `NAN_OUT` of R9, and the four constants of R12. -/

namespace Sys2Proof

namespace Config

/-- The draw `NAN_OUT` (00_scope.md R9): a free word for each draw counter value and each operation of a command.
`F32.nanOf` shapes it into a NaN. It has no body: nothing can be proved of its value (log entry 3). -/
opaque nanOut : Nat → Nat → BitVec 32

/-- The parameter `TAN32` (00_scope.md R8), a function of its operand alone. It has no body (log entry 4). -/
opaque tan32 : F32 → F32

/-- The parameter `SIN32` (00_scope.md R8), a function of its operand alone. It has no body (log entry 4). -/
opaque sin32 : F32 → F32

/-- `PI32` (00_scope.md R12). -/
def pi32 : F32 := 0x40490FDB#32

/-- `TWO_PI32` (00_scope.md R12). -/
def twoPi32 : F32 := 0x40C90FDB#32

/-- `KSAT`, the binary32 of 0.75 (00_scope.md R12). -/
def ksat : F32 := 0x3F400000#32

/-- `KSM`, the binary32 of 0.00005 (00_scope.md R12). -/
def ksm : F32 := 0x3851B717#32

/-- The literal 1 of the pseudocode, exact in binary32 (00_scope.md R13). -/
def one32 : F32 := 0x3F800000#32

/-- The literal 2 of the pseudocode, exact in binary32 (00_scope.md R13). -/
def two32 : F32 := 0x40000000#32

/-- The literal 4 of the pseudocode, exact in binary32 (00_scope.md R13). -/
def four32 : F32 := 0x40800000#32

end Config

/-- The parameters of one unit (00_scope.md R5, R6): how many filters, oscillator pairs and smoothers it has, and
`CAP_LOG2[u]` of each of its delay lines (so that `ND` is the length of `capLog2`). -/
structure Params where
  nf : Nat
  no : Nat
  capLog2 : List Nat
  ns : Nat
  deriving DecidableEq, Repr

/-- The ranges of R5 and R6: every count in 0..256, every `CAP_LOG2[u]` in 1..31. -/
abbrev Params.wf (p : Params) : Prop :=
  p.nf ≤ 256 ∧ p.no ≤ 256 ∧ p.capLog2.length ≤ 256 ∧ p.ns ≤ 256 ∧ ∀ k ∈ p.capLog2, 1 ≤ k ∧ k ≤ 31

/-- The parameter `HOST_BYTE_LANES` (20_memory.md R63): the lane of a four-byte group that carries bits 7:0, 15:8,
23:16 and 31:24 of a word. -/
structure ByteLanes where
  lane0 : Fin 4
  lane1 : Fin 4
  lane2 : Fin 4
  lane3 : Fin 4
  deriving DecidableEq, Repr

/-- The four lanes of a word are different lanes. -/
abbrev ByteLanes.wf (l : ByteLanes) : Prop :=
  [l.lane0, l.lane1, l.lane2, l.lane3].Nodup

end Sys2Proof
end

