-- ==== Sys2Proof/Syntax.lean ====
section
/-! DEFINITION. The 26 commands of spec/opcode_table.json, one constructor each, with the instance index the command
word names and the operand words the command takes (30_encoding.md R80, R81, R85). -/

namespace Sys2Proof

/-- A command with its operands. `u` is the UNIT field, an unsigned instance index (R81); the other arguments are
the operand words `op[0]`, `op[1]`, `op[2]` in order (R83). -/
inductive Instr where
  /-- ACT, R110 -/
  | act
  /-- STAT.RD, R111 -/
  | statRd
  /-- FCMD.RD, R112 -/
  | fcmdRd
  /-- FILT.CFG, R120 -/
  | filtCfg (u : Nat) (cutoffHz resonanceQ sampleRateHz : F32)
  /-- FILT.PROC, R121 -/
  | filtProc (u : Nat) (input : F32)
  /-- FILT.RDZ1, R122 -/
  | filtRdz1 (u : Nat)
  /-- FILT.RDZ2, R123 -/
  | filtRdz2 (u : Nat)
  /-- FILT.RDC1, R124 -/
  | filtRdc1 (u : Nat)
  /-- FILT.RDC2, R125 -/
  | filtRdc2 (u : Nat)
  /-- FILT.RDD0, R126 -/
  | filtRdd0 (u : Nat)
  /-- OSC.SETF, R140 -/
  | oscSetf (u : Nat) (increment : F32)
  /-- OSC.SETS, R141 -/
  | oscSets (u : Nat) (increment : F32)
  /-- OSC.STEP, R142 -/
  | oscStep (u : Nat)
  /-- OSC.TAP, R143 -/
  | oscTap (u : Nat) (phaseOffset fastDepth slowDepth : F32)
  /-- OSC.RDPF, R144 -/
  | oscRdpf (u : Nat)
  /-- OSC.RDPS, R145 -/
  | oscRdps (u : Nat)
  /-- OSC.RDIF, R146 -/
  | oscRdif (u : Nat)
  /-- OSC.RDIS, R147 -/
  | oscRdis (u : Nat)
  /-- DL.WR, R160 -/
  | dlWr (u : Nat) (sample : F32)
  /-- DL.RD, R161 -/
  | dlRd (u : Nat) (delaySamples : F32)
  /-- DL.RDWI, R162 -/
  | dlRdwi (u : Nat)
  /-- DL.PEEK, R163 -/
  | dlPeek (u : Nat) (index : Word)
  /-- SAT, R180 -/
  | sat (z : F32)
  /-- SM.LOAD, R185 -/
  | smLoad (u : Nat) (value : F32)
  /-- SM.STEP, R186 -/
  | smStep (u : Nat) (target : F32)
  /-- SM.RD, R187 -/
  | smRd (u : Nat)
  deriving DecidableEq, Repr

end Sys2Proof
end

