-- ==== Sys2Proof/WellFormed.lean ====
section
/-! DEFINITION. When a command is well formed: its instance index fits the 8-bit UNIT field (30_encoding.md R81).
The operand words need no check, since every 32-bit word is an operand (R83). -/

namespace Sys2Proof

/-- The instance index a command names; none for the four commands that name no instance (R82). -/
def Instr.unit? : Instr → Option Nat
  | .act => none
  | .statRd => none
  | .fcmdRd => none
  | .filtCfg u _ _ _ => some u
  | .filtProc u _ => some u
  | .filtRdz1 u => some u
  | .filtRdz2 u => some u
  | .filtRdc1 u => some u
  | .filtRdc2 u => some u
  | .filtRdd0 u => some u
  | .oscSetf u _ => some u
  | .oscSets u _ => some u
  | .oscStep u => some u
  | .oscTap u _ _ _ => some u
  | .oscRdpf u => some u
  | .oscRdps u => some u
  | .oscRdif u => some u
  | .oscRdis u => some u
  | .dlWr u _ => some u
  | .dlRd u _ => some u
  | .dlRdwi u => some u
  | .dlPeek u _ => some u
  | .sat _ => none
  | .smLoad u _ => some u
  | .smStep u _ => some u
  | .smRd u => some u

/-- An instance index fits the UNIT field, 0..255 (R81). -/
def unitFits (u : Nat) : Bool := decide (u < 256)

/-- A command is well formed when the index it names, if any, fits the UNIT field. -/
def Instr.wellFormed (i : Instr) : Bool := i.unit?.all unitFits

end Sys2Proof
end

