-- ==== Sys2Proof/Decode.lean ====
section
/-! DEFINITION. The command encoding (30_encoding.md R80 to R88): the opcode map as a table, the decoder (total on
every list of words and of bytes, rejecting by name), and the encoder written from the same table of the spec. -/

namespace Sys2Proof

/-- `w[hi:lo]` as an unsigned integer (00_scope.md R15). -/
def bitField (w : Word) (hi lo : Nat) : Nat := (w.extractLsb' lo (hi - lo + 1)).toNat

/-- The OPC field, bits 31:24 (R81). -/
def opcField (w : Word) : Nat := bitField w 31 24

/-- The UNIT field, bits 23:16, zero-extended (R81, R83). -/
def unitField (w : Word) : Nat := bitField w 23 16

/-- The RSV field, bits 15:0 (R81). -/
def rsvField (w : Word) : Nat := bitField w 15 0

/-- The four families of instances that a command word can address (R81, R86). -/
inductive Family where
  | filt
  | osc
  | dl
  | sm
  deriving DecidableEq, Repr

/-- One row of the opcode map of R85: the opcode, the family whose instance UNIT selects (none for the commands that
name no instance, R82), how many operand words it takes (`k`) and how many result words it returns (`r`), and the
command it stands for, given the UNIT value and three operand words of which it uses the first `k`. -/
structure Row where
  opc : Nat
  family : Option Family
  operands : Nat
  results : Nat
  make : Nat → Word → Word → Word → Instr

/-- The global rows of the opcode map (R85). -/
def globalRows : List Row :=
  [ ⟨0x01, none, 0, 0, fun _ _ _ _ => .act⟩,
    ⟨0x02, none, 0, 1, fun _ _ _ _ => .statRd⟩,
    ⟨0x03, none, 0, 1, fun _ _ _ _ => .fcmdRd⟩ ]

/-- The Resonant Filter rows of the opcode map (R85). -/
def filterRows : List Row :=
  [ ⟨0x10, some .filt, 3, 0, fun u a b c => .filtCfg u a b c⟩,
    ⟨0x11, some .filt, 1, 1, fun u a _ _ => .filtProc u a⟩,
    ⟨0x18, some .filt, 0, 1, fun u _ _ _ => .filtRdz1 u⟩,
    ⟨0x19, some .filt, 0, 1, fun u _ _ _ => .filtRdz2 u⟩,
    ⟨0x1A, some .filt, 0, 1, fun u _ _ _ => .filtRdc1 u⟩,
    ⟨0x1B, some .filt, 0, 1, fun u _ _ _ => .filtRdc2 u⟩,
    ⟨0x1C, some .filt, 0, 1, fun u _ _ _ => .filtRdd0 u⟩ ]

/-- The Oscillator Pair rows of the opcode map (R85). -/
def oscillatorRows : List Row :=
  [ ⟨0x20, some .osc, 1, 0, fun u a _ _ => .oscSetf u a⟩,
    ⟨0x21, some .osc, 1, 0, fun u a _ _ => .oscSets u a⟩,
    ⟨0x22, some .osc, 0, 2, fun u _ _ _ => .oscStep u⟩,
    ⟨0x23, some .osc, 3, 1, fun u a b c => .oscTap u a b c⟩,
    ⟨0x28, some .osc, 0, 1, fun u _ _ _ => .oscRdpf u⟩,
    ⟨0x29, some .osc, 0, 1, fun u _ _ _ => .oscRdps u⟩,
    ⟨0x2A, some .osc, 0, 1, fun u _ _ _ => .oscRdif u⟩,
    ⟨0x2B, some .osc, 0, 1, fun u _ _ _ => .oscRdis u⟩ ]

/-- The Delay Line rows of the opcode map (R85). -/
def delayRows : List Row :=
  [ ⟨0x30, some .dl, 1, 0, fun u a _ _ => .dlWr u a⟩,
    ⟨0x31, some .dl, 1, 1, fun u a _ _ => .dlRd u a⟩,
    ⟨0x38, some .dl, 0, 1, fun u _ _ _ => .dlRdwi u⟩,
    ⟨0x39, some .dl, 1, 1, fun u a _ _ => .dlPeek u a⟩ ]

/-- The Saturator and Smoother rows of the opcode map (R85). -/
def saturatorSmootherRows : List Row :=
  [ ⟨0x40, none, 1, 1, fun _ a _ _ => .sat a⟩,
    ⟨0x50, some .sm, 1, 0, fun u a _ _ => .smLoad u a⟩,
    ⟨0x51, some .sm, 1, 1, fun u a _ _ => .smStep u a⟩,
    ⟨0x58, some .sm, 0, 1, fun u _ _ _ => .smRd u⟩ ]

/-- The opcode map of R85. -/
def opcodeTable : List Row :=
  globalRows ++ filterRows ++ oscillatorRows ++ delayRows ++ saturatorSmootherRows

/-- The row of an opcode; none for the reserved opcodes of R87. -/
def rowOf (opc : Nat) : Option Row := opcodeTable.find? fun r => r.opc == opc

/-- Why a list of words is no command. The first three are the ILLEGAL command words of R86 and R87; the last two say
that the words end before the transaction of R80 does. -/
inductive Reject where
  /-- the opcode is not in the opcode map (R87) -/
  | reservedOpcode (opc : Nat)
  /-- RSV is not zero (R82) -/
  | nonzeroReserved (rsv : Nat)
  /-- UNIT is not zero on ACT, STAT.RD, FCMD.RD or SAT (R82) -/
  | nonzeroUnit (unit : Nat)
  /-- there is no command word -/
  | noCommandWord
  /-- operand words of the command are missing -/
  | missingOperands (missing : Nat)
  deriving DecidableEq, Repr

/-- Decoding a command word (R86), up to the instance check that needs the instance counts: the row and the UNIT
value, or the reason the word is ILLEGAL. -/
def decodeHead (cmd : Word) : Except Reject (Row × Nat) :=
  match rowOf (opcField cmd) with
  | none => .error (.reservedOpcode (opcField cmd))
  | some row =>
    if rsvField cmd ≠ 0 then .error (.nonzeroReserved (rsvField cmd))
    else if row.family.isNone ∧ unitField cmd ≠ 0 then .error (.nonzeroUnit (unitField cmd))
    else .ok (row, unitField cmd)

/-- The decoder: the command at the head of a list of words with its operand words, and the words after it. -/
def decode (ws : List Word) : Except Reject (Instr × List Word) :=
  match ws with
  | [] => .error .noCommandWord
  | cmd :: rest =>
    match decodeHead cmd with
    | .error e => .error e
    | .ok (row, u) =>
      if rest.length < row.operands then .error (.missingOperands (row.operands - rest.length))
      else .ok (row.make u (rest.getD 0 0) (rest.getD 1 0) (rest.getD 2 0), rest.drop row.operands)

/-- The command word `{OPC, UNIT, 16'b0}` (R81, R85). -/
def cmdWord (opc u : Nat) : Word := BitVec.ofNat 8 opc ++ BitVec.ofNat 8 u ++ 0#16

/-- The encoder: the command word and the operand words of a command, from the opcode map of R85. -/
def encode : Instr → List Word
  | .act => [cmdWord 0x01 0]
  | .statRd => [cmdWord 0x02 0]
  | .fcmdRd => [cmdWord 0x03 0]
  | .filtCfg u cutoffHz resonanceQ sampleRateHz => [cmdWord 0x10 u, cutoffHz, resonanceQ, sampleRateHz]
  | .filtProc u input => [cmdWord 0x11 u, input]
  | .filtRdz1 u => [cmdWord 0x18 u]
  | .filtRdz2 u => [cmdWord 0x19 u]
  | .filtRdc1 u => [cmdWord 0x1A u]
  | .filtRdc2 u => [cmdWord 0x1B u]
  | .filtRdd0 u => [cmdWord 0x1C u]
  | .oscSetf u increment => [cmdWord 0x20 u, increment]
  | .oscSets u increment => [cmdWord 0x21 u, increment]
  | .oscStep u => [cmdWord 0x22 u]
  | .oscTap u phaseOffset fastDepth slowDepth => [cmdWord 0x23 u, phaseOffset, fastDepth, slowDepth]
  | .oscRdpf u => [cmdWord 0x28 u]
  | .oscRdps u => [cmdWord 0x29 u]
  | .oscRdif u => [cmdWord 0x2A u]
  | .oscRdis u => [cmdWord 0x2B u]
  | .dlWr u sample => [cmdWord 0x30 u, sample]
  | .dlRd u delaySamples => [cmdWord 0x31 u, delaySamples]
  | .dlRdwi u => [cmdWord 0x38 u]
  | .dlPeek u index => [cmdWord 0x39 u, index]
  | .sat z => [cmdWord 0x40 0, z]
  | .smLoad u value => [cmdWord 0x50 u, value]
  | .smStep u target => [cmdWord 0x51 u, target]
  | .smRd u => [cmdWord 0x58 u]

/-- The command word of a command: what fault entry stores in FCMD (60_exceptions.md R203). -/
def Instr.commandWord (i : Instr) : Word := (encode i).headD 0

/-- The words of a program: its commands' words one after another (R80, R88). -/
def encodeAll (is : List Instr) : List Word := is.flatMap encode

/-- The words of the number `w` of `nbits` bits, bit 0 the least significant bit of the first word. -/
def tableWords (nbits w : Nat) : List Word :=
  (List.range (max 1 ((nbits + 31) / 32))).map fun i => BitVec.ofNat 32 (w % 2 ^ nbits / 2 ^ (32 * i))

/-- How many operand words follow a command word; none for an illegal one (R88). -/
def operandCount (cmd : Word) : Nat :=
  match decodeHead cmd with
  | .ok (row, _) => row.operands
  | .error _ => 0

/-- The words of the transaction whose first `nbits` bits are `w`: the operand words that `w` does not hold are zero. -/
def transactionWords (nbits w : Nat) : List Word :=
  let ws := tableWords nbits w
  ws ++ List.replicate (1 + operandCount (ws.headD 0) - ws.length) 0

/-- The command the decoder reads from the transaction whose first `nbits` bits are `w`. -/
def decodeTableWord (nbits w : Nat) : Option Instr :=
  match decode (transactionWords nbits w) with
  | .ok (i, _) => some i
  | .error _ => none

/-- The word a four-byte group of a host bus carries, given the lanes of `HOST_BYTE_LANES` (20_memory.md R63). -/
def wordOfBytes (lanes : ByteLanes) (b0 b1 b2 b3 : Byte) : Word :=
  let at_ (l : Fin 4) : Byte := [b0, b1, b2, b3].getD l.val 0
  at_ lanes.lane3 ++ at_ lanes.lane2 ++ at_ lanes.lane1 ++ at_ lanes.lane0

/-- The words that bytes of a host bus carry, four bytes a word (20_memory.md R63); bytes that do not fill a word
carry none, since commands reach the unit as whole words (R64). -/
def wordsOfBytes (lanes : ByteLanes) : List Byte → List Word
  | b0 :: b1 :: b2 :: b3 :: rest => wordOfBytes lanes b0 b1 b2 b3 :: wordsOfBytes lanes rest
  | _ => []

/-- The byte that lane `j` of a four-byte group carries for a word (20_memory.md R63). -/
def laneByte (lanes : ByteLanes) (w : Word) (j : Fin 4) : Byte :=
  if j = lanes.lane0 then w.extractLsb' 0 8
  else if j = lanes.lane1 then w.extractLsb' 8 8
  else if j = lanes.lane2 then w.extractLsb' 16 8
  else w.extractLsb' 24 8

/-- The four-byte group that carries a word on a host bus, lowest address first (20_memory.md R63). -/
def bytesOfWord (lanes : ByteLanes) (w : Word) : List Byte :=
  [laneByte lanes w 0, laneByte lanes w 1, laneByte lanes w 2, laneByte lanes w 3]

/-- The bytes of a host bus that carry words, four bytes a word (20_memory.md R63). -/
def bytesOfWords (lanes : ByteLanes) (ws : List Word) : List Byte := ws.flatMap (bytesOfWord lanes)

/-- The decoder on the bytes of a host bus. -/
def decodeBytes (lanes : ByteLanes) (bs : List Byte) : Except Reject (Instr × List Word) :=
  decode (wordsOfBytes lanes bs)

end Sys2Proof
end

