-- ==== Sys2Proof/Machine/Float.lean ====
section
/-! DEFINITION. Binary32 arithmetic (00_scope.md R7 to R13). Every finite binary32 is a whole number of units of 2^-149,
so each operation is computed exactly over the integers and rounded once, to nearest, ties to even. -/

namespace Sys2Proof.Machine

namespace F32

/-- The sign bit, bit 31 (R7). -/
def sign (a : F32) : Bool := a.getLsbD 31

/-- The word without its sign bit, as a number: exponent and fraction, which order the magnitudes. -/
def mag (a : F32) : Nat := a.toNat % 2 ^ 31

/-- Exponent all ones and a nonzero fraction. Quiet and signalling NaN are alike (R9). -/
def isNaN (a : F32) : Bool := decide (0x7F800000 < mag a)

/-- ±Inf: exponent all ones and fraction zero. -/
def isInf (a : F32) : Bool := decide (mag a = 0x7F800000)

/-- `isfinite(a)`: neither ±Inf nor NaN (R13). -/
def isFinite (a : F32) : Bool := decide (mag a < 0x7F800000)

/-- ±0. -/
def isZero (a : F32) : Bool := decide (mag a = 0)

/-- The magnitude held in exponent and fraction, in units of 2^-149: a subnormal is its fraction (R10), a normal is
`2^23 + fraction` shifted by its biased exponent less one. -/
def magVal (m : Nat) : Nat :=
  if m / 2 ^ 23 = 0 then m else (2 ^ 23 + m % 2 ^ 23) * 2 ^ (m / 2 ^ 23 - 1)

/-- The value of a finite binary32 in units of 2^-149 (for ±Inf, a value beyond every finite one). -/
def val (a : F32) : Int := if sign a then -(magVal (mag a) : Int) else (magVal (mag a) : Int)

/-- The binary32 with a sign and a magnitude word. -/
def pack (s : Bool) (m : Nat) : F32 := BitVec.ofNat 32 ((if s then 2 ^ 31 else 0) + m)

/-- +Inf or −Inf. -/
def inf (s : Bool) : F32 := pack s 0x7F800000

/-- +0.0 or −0.0. -/
def zero (s : Bool) : F32 := pack s 0

/-- A NaN made of a free word: the word itself where setting its exponent field gives a NaN, else that with the top
fraction bit set. Every NaN is the NaN of some word (R9). -/
def nanOf (raw : Word) : F32 :=
  if isNaN (raw ||| 0x7F800000#32) then raw ||| 0x7F800000#32 else raw ||| 0x7FC00000#32

/-- The whole number nearest to `n / d`, the even one of two equally near. -/
def nearestEven (n d : Nat) : Nat :=
  if d < 2 * (n % d) ∨ (d = 2 * (n % d) ∧ n / d % 2 = 1) then n / d + 1 else n / d

/-- The magnitude word nearest to `n / d` units of 2^-149 (R13): the significand is the nearest multiple of the spacing
`2 ^ k` of the binary32 at that magnitude (spacing 1 for the subnormals and the smallest normals), and a magnitude past
the largest finite one is Inf. -/
def roundMag (n d : Nat) : Nat :=
  let k := Nat.log2 (n / d) - 23
  min (k * 2 ^ 23 + nearestEven n (d * 2 ^ k)) 0x7F800000

/-- `a` with bit 31 flipped. -/
def neg (a : F32) : F32 := a ^^^ 0x80000000#32

/-- `absf(a)`: `a` with bit 31 cleared; a NaN stays a NaN (R13). -/
def absf (a : F32) : F32 := a &&& 0x7FFFFFFF#32

/-- `a +f b`, with `nan` the NaN it yields when the result is a NaN (R9, R13). An exact zero sum is +0.0 unless both
operands are −0.0 (IEEE 754, log entry 12). -/
def add (nan a b : F32) : F32 :=
  if isNaN a ∨ isNaN b then nan
  else if isInf a then (if isInf b ∧ sign a ≠ sign b then nan else a)
  else if isInf b then b
  else if val a + val b = 0 then zero (sign a && sign b)
  else pack (decide (val a + val b < 0)) (roundMag (val a + val b).natAbs 1)

/-- `a -f b`: the sum of `a` and the negated `b` (R13). -/
def sub (nan a b : F32) : F32 := add nan a (neg b)

/-- `a *f b` (R13). The product of two values in units of 2^-149 is in units of 2^-298. -/
def mul (nan a b : F32) : F32 :=
  if isNaN a ∨ isNaN b then nan
  else if isInf a ∨ isInf b then
    (if isZero a ∨ isZero b then nan else inf (sign a != sign b))
  else pack (sign a != sign b) (roundMag (magVal (mag a) * magVal (mag b)) (2 ^ 149))

/-- `a /f b` (R13). A nonzero value over ±0 is ±Inf, 0/0 and Inf/Inf are NaN, and none of them faults (R11). -/
def div (nan a b : F32) : F32 :=
  if isNaN a ∨ isNaN b then nan
  else if isInf a then (if isInf b then nan else inf (sign a != sign b))
  else if isInf b then zero (sign a != sign b)
  else if isZero b then (if isZero a then nan else inf (sign a != sign b))
  else pack (sign a != sign b) (roundMag (magVal (mag a) * 2 ^ 149) (magVal (mag b)))

/-- `a >f b`: the ordered greater-than, false when either operand is a NaN (R13). -/
def gt (a b : F32) : Bool := !isNaN a && !isNaN b && decide (val b < val a)

/-- `floorf(a)`: the largest integer not greater than finite `a` (R13). -/
def floorInt (a : F32) : Int := val a / (2 ^ 149 : Int)

/-- `f32(n)`: the binary32 of an integer (R13; exact where the integer is a binary32). -/
def ofInteger (n : Int) : F32 := pack (decide (n < 0)) (roundMag (n.natAbs * 2 ^ 149) 1)

/-- One representative of all NaNs: every consumer treats every NaN alike (R9; log entry 4). -/
def oneNaN (a : F32) : F32 := if isNaN a then 0x7FC00000#32 else a

end F32

/-- `TAN32` (00_scope.md R8), every NaN operand alike (R9). -/
def tan32 (a : F32) : F32 := Config.tan32 (F32.oneNaN a)

/-- `SIN32` (00_scope.md R8), every NaN operand alike (R9). -/
def sin32 (a : F32) : F32 := Config.sin32 (F32.oneNaN a)

end Sys2Proof.Machine
end

