-- ==== Sys2Proof/Machine/Arith.lean ====
section
/-! DEFINITION. The arithmetic that the pseudocode of the commands is written in (00_scope.md R8, R12, R13): the meanings
write each formula once over an arithmetic, the unit computes it in binary32, and a statement that the spec makes of
real numbers is the same formula over the reals. -/

namespace Sys2Proof.Machine

/-- The operations and constants of R8, R12 and R13. Each operation carries its place `k` in the command, so that a
binary32 operation can yield a NaN of its own (R9). -/
structure Arith (α : Type) where
  add : Nat → α → α → α
  sub : Nat → α → α → α
  mul : Nat → α → α → α
  div : Nat → α → α → α
  abs : α → α
  tan : α → α
  sin : α → α
  one : α
  two : α
  four : α
  pi : α
  ksat : α
  ksm : α

/-- Binary32 arithmetic (R13) with `nan k` the NaN that operation `k` yields when its result is a NaN (R9). -/
def binary32 (nan : Nat → F32) : Arith F32 where
  add k := F32.add (nan k)
  sub k := F32.sub (nan k)
  mul k := F32.mul (nan k)
  div k := F32.div (nan k)
  abs := F32.absf
  tan := tan32
  sin := sin32
  one := Config.one32
  two := Config.two32
  four := Config.four32
  pi := Config.pi32
  ksat := Config.ksat
  ksm := Config.ksm

end Sys2Proof.Machine
end

