-- ==== Sys2Proof/Machine/Reference.lean ====
section
/-! DEFINITION. The parameters that `State.reset` takes: the configuration of 95_test_vectors.md. -/

namespace Sys2Proof.Machine

/-- One instance of each family and a delay line of 8 slots, the configuration in which every vector and program of
95_test_vectors.md runs (section 7: `NF = NO = ND = NS = 1`; section 4: `CAP_LOG2 = 3`). DESIGN CHOICE: 00_scope.md
R5 and R6 leave the parameters open (log entry 1). -/
def referenceParams : Params := { nf := 1, no := 1, capLog2 := [3], ns := 1 }

end Sys2Proof.Machine
end

