-- ==== Sys2Proof/Machine/State.lean ====
section
/-! DEFINITION. The state record of 10_state.md R42 as plain data, with the two ends of the host port (30_encoding.md
R80) and the power-on reset input (R43); the reasons a step can stop; the state after reset. -/

namespace Sys2Proof.Machine

/-- The content of a ring: slot index and word, indices strictly rising, no entry equal to what an unlisted slot reads
as, which is +0.0 (log entry 9). -/
abbrev Memory := List (Nat × Word)

/-- The canonical form of a memory: strictly rising indices, no entry that holds +0.0. -/
abbrev Memory.wf (m : Memory) : Prop :=
  m.Pairwise (fun x y => x.1 < y.1) ∧ ∀ e ∈ m, e.2 ≠ 0#32

/-- One Resonant Filter instance `F[u]` (10_state.md R25, R26, R27). -/
structure FilterRegs where
  z1 : F32
  z2 : F32
  c1 : F32
  c2 : F32
  d0 : F32
  cv : Bool
  deriving DecidableEq, Repr

/-- One Oscillator Pair instance `O[u]` (10_state.md R29, R30, R31). -/
structure OscRegs where
  pf : F32
  ps : F32
  incf : F32
  incs : F32
  vf : Bool
  vs : Bool
  deriving DecidableEq, Repr

/-- One Delay Line instance `D[u]`: its fixed `CAP_LOG2[u]` (00_scope.md R6), its memory `RING[u]` and its write index
(10_state.md R33, R34). -/
structure DelayLine where
  capLog2 : Nat
  ring : Memory
  wi : Word
  deriving DecidableEq, Repr

/-- One Smoother instance `S[u]` (10_state.md R37, R38). -/
structure SmootherRegs where
  y : F32
  vy : Bool
  deriving DecidableEq, Repr

/-- The fault causes of 60_exceptions.md R200. -/
inductive Cause where
  | illegal
  | badUnit
  | notActive
  | unconfigured
  | badDelay
  deriving DecidableEq, Repr

/-- The state of the unit (10_state.md R42). The instance counts `NF`, `NO`, `ND`, `NS` (00_scope.md R5) are the lengths
of the four lists. `por` is the power-on reset input (R43). `inbox` holds the words the host has sent and the core has
not taken, oldest first; `outbox` the result words delivered so far, oldest first (30_encoding.md R80). `draws` is the
model's own counter for the draw `NAN_OUT` (00_scope.md R9; log entry 3). -/
structure State where
  act : Bool
  faulted : Bool
  cause : BitVec 8
  fcmd : Word
  filters : List FilterRegs
  oscs : List OscRegs
  delays : List DelayLine
  smoothers : List SmootherRegs
  por : Bool
  inbox : List Word
  outbox : List Word
  draws : Nat
  deriving DecidableEq, Repr

/-- The reasons a step of the machine can stop with a fault: none. The faults of 60_exceptions.md are states the unit goes
on from (R203, R204), and R86 and R202 give every word an effect; so no definition raises a `Fault`. Safe. -/
inductive Fault where
  deriving DecidableEq, Repr

/-- The reasons the model gives an instruction no meaning. -/
inductive Refusal where
  /-- Raised only by an arm of `exec` whose instruction has no meaning yet; no arm is such an arm. Safe. -/
  | notModelled (mnemonic : String)
  deriving DecidableEq, Repr

/-- The outcome of a command or a step. -/
abbrev Outcome := Host.Outcome State Fault Refusal

/-- A filter after power-on reset: not configured (10_state.md R27, R42). The data registers are unspecified there; +0.0
is a DESIGN CHOICE (log entry 2). -/
def FilterRegs.reset : FilterRegs := { z1 := 0#32, z2 := 0#32, c1 := 0#32, c2 := 0#32, d0 := 0#32, cv := false }

/-- An oscillator pair after power-on reset: no increment loaded (10_state.md R31, R42). The data registers are
unspecified there; +0.0 is a DESIGN CHOICE (log entry 2). -/
def OscRegs.reset : OscRegs := { pf := 0#32, ps := 0#32, incf := 0#32, incs := 0#32, vf := false, vs := false }

/-- A delay line of `2 ^ k` slots after power-on reset. Its slots and its write index are unspecified there (10_state.md
R33, R34, R42); +0.0 and 0 are a DESIGN CHOICE (log entry 2). -/
def DelayLine.reset (k : Nat) : DelayLine := { capLog2 := k, ring := [], wi := 0#32 }

/-- A smoother after power-on reset: not loaded (10_state.md R38, R42). The value is unspecified there; +0.0 is a DESIGN
CHOICE (log entry 2). -/
def SmootherRegs.reset : SmootherRegs := { y := 0#32, vy := false }

/-- The unit with parameters `p` right after power-on reset (10_state.md R42, R43, 70_reset_and_hazards.md R230):
Inactive, not Faulted, nothing configured, ready to take a command word. -/
def State.resetWith (p : Params) : State where
  act := false
  faulted := false
  cause := 0#8
  fcmd := 0#32
  filters := List.replicate p.nf FilterRegs.reset
  oscs := List.replicate p.no OscRegs.reset
  delays := p.capLog2.map DelayLine.reset
  smoothers := List.replicate p.ns SmootherRegs.reset
  por := false
  inbox := []
  outbox := []
  draws := 0

/-- The unit with the parameters of `referenceParams` right after power-on reset (log entry 1). -/
def State.reset : State := State.resetWith referenceParams

end Sys2Proof.Machine
end

