-- ==== Sys2Proof/Machine/Ops.lean ====
section
/-! DEFINITION. The named operations over memory and registers that the meanings share: slot access, instance lookup
and update, delivering results, fault entry, power-on reset, and the host's side of the port. -/

namespace Sys2Proof.Machine

/-- The word at a slot; an unlisted slot reads as +0.0 (log entry 9). -/
def Memory.read : Memory → Nat → Word
  | [], _ => 0#32
  | (b, v) :: m, a => if b = a then v else Memory.read m a

/-- The memory with `v` at slot `a`, in canonical form: +0.0 is stored by listing nothing. -/
def Memory.write : Memory → Nat → Word → Memory
  | [], a, v => if v = 0#32 then [] else [(a, v)]
  | (b, w) :: m, a, v =>
    if a < b then (if v = 0#32 then (b, w) :: m else (a, v) :: (b, w) :: m)
    else if a = b then (if v = 0#32 then m else (a, v) :: m)
    else (b, w) :: Memory.write m a v

/-- `CAP[u]` (00_scope.md R6). -/
def DelayLine.cap (d : DelayLine) : Nat := 2 ^ d.capLog2

/-- `MASK[u] = CAP[u] − 1` (00_scope.md R6). -/
def DelayLine.mask (d : DelayLine) : Word := BitVec.ofNat 32 (2 ^ d.capLog2 - 1)

/-- The slot an index lands on: `i & MASK[u]` (00_scope.md R16, 20_memory.md R64, R65). -/
def DelayLine.slot (d : DelayLine) (i : Word) : Nat := (i &&& d.mask).toNat

/-- `RingRead(u, i)` (00_scope.md R16). -/
def DelayLine.ringRead (d : DelayLine) (i : Word) : Word := d.ring.read (d.slot i)

/-- `RingWrite(u, i, v)` (00_scope.md R16). -/
def DelayLine.ringWrite (d : DelayLine) (i : Word) (v : Word) : DelayLine :=
  { d with ring := d.ring.write (d.slot i) v }

/-- How many instances a family has: `NF`, `NO`, `ND`, `NS` (00_scope.md R5). -/
def State.count (s : State) : Family → Nat
  | .filt => s.filters.length
  | .osc => s.oscs.length
  | .dl => s.delays.length
  | .sm => s.smoothers.length

/-- Writes the registers of filter `u`. -/
def State.setFilter (s : State) (u : Nat) (f : FilterRegs) : State := { s with filters := s.filters.set u f }

/-- Writes the registers of oscillator pair `u`. -/
def State.setOsc (s : State) (u : Nat) (o : OscRegs) : State := { s with oscs := s.oscs.set u o }

/-- Writes delay line `u`. -/
def State.setDelay (s : State) (u : Nat) (d : DelayLine) : State := { s with delays := s.delays.set u d }

/-- Writes the registers of smoother `u`. -/
def State.setSmoother (s : State) (u : Nat) (y : SmootherRegs) : State := { s with smoothers := s.smoothers.set u y }

/-- Delivers the result words of a command, in order (`res[k] <- v`, 00_scope.md R16). -/
def State.respond (s : State) (res : List Word) : State := { s with outbox := s.outbox ++ res }

/-- The NaN that operation `k` of the present command yields if its result is a NaN (00_scope.md R9). -/
def State.nan (s : State) (k : Nat) : F32 := F32.nanOf (Config.nanOut s.draws k)

/-- The arithmetic of the present command. -/
def State.arith (s : State) : Arith F32 := binary32 s.nan

/-- The present command has used its draws; the next one gets fresh ones (log entry 3). -/
def State.drawn (s : State) : State := { s with draws := s.draws + 1 }

/-- The code of a cause in STATUS.CAUSE (60_exceptions.md R200). -/
def Cause.code : Cause → BitVec 8
  | .illegal => 1
  | .badUnit => 2
  | .notActive => 3
  | .unconfigured => 4
  | .badDelay => 5

/-- Fault entry, `raise Fault(cause)` (60_exceptions.md R203): FAULT, CAUSE and FCMD are written and nothing else.
The unit has no handler, no saved context and no return from a fault (R205): `State.powerOn` is the way out. -/
def raiseFault (c : Cause) (cmd : Word) (s : State) : State :=
  { s with faulted := true, cause := c.code, fcmd := cmd }

/-- A command's pseudocode after the checks: the state it leaves, or the first check that fails (00_scope.md R17). -/
abbrev Attempt := Except Cause State

/-- Ends a command (60_exceptions.md R202): in the Faulted state the command is dropped with no effect (R204); else it
leaves the state of its pseudocode, or enters the fault of the first failed check with its own command word in FCMD. -/
def issue (i : Instr) (s : State) (r : Attempt) : Outcome :=
  if s.faulted then .next s
  else match r with
    | .ok t => .next t
    | .error c => .next (raiseFault c i.commandWord s)

/-- `F[u]`, or BAD_UNIT when there is no such filter (30_encoding.md R86). -/
def onFilter (s : State) (u : Nat) (k : FilterRegs → Attempt) : Attempt :=
  match s.filters[u]? with
  | some f => k f
  | none => .error .badUnit

/-- `O[u]`, or BAD_UNIT when there is no such oscillator pair (30_encoding.md R86). -/
def onOsc (s : State) (u : Nat) (k : OscRegs → Attempt) : Attempt :=
  match s.oscs[u]? with
  | some o => k o
  | none => .error .badUnit

/-- `D[u]`, or BAD_UNIT when there is no such delay line (30_encoding.md R86). -/
def onDelay (s : State) (u : Nat) (k : DelayLine → Attempt) : Attempt :=
  match s.delays[u]? with
  | some d => k d
  | none => .error .badUnit

/-- `S[u]`, or BAD_UNIT when there is no such smoother (30_encoding.md R86). -/
def onSmoother (s : State) (u : Nat) (k : SmootherRegs → Attempt) : Attempt :=
  match s.smoothers[u]? with
  | some y => k y
  | none => .error .badUnit

/-- The parameters of a unit, read back from its instances (00_scope.md R5, R6). -/
def State.params (s : State) : Params :=
  { nf := s.filters.length, no := s.oscs.length, capLog2 := s.delays.map DelayLine.capLog2, ns := s.smoothers.length }

/-- Power-on reset (10_state.md R43, 70_reset_and_hazards.md R230): every field of R42 at its power-on value, the
parameters kept; the port's queues and the draw counter are not fields of R42 (log entry 7). -/
def State.powerOn (s : State) : State :=
  { State.resetWith s.params with inbox := s.inbox, outbox := s.outbox, draws := s.draws }

/-- The host sends words to the port (30_encoding.md R80). -/
def State.hostSend (s : State) (ws : List Word) : State := { s with inbox := s.inbox ++ ws }

/-- The host sends bytes through a byte-addressed bus (20_memory.md R63). -/
def State.hostSendBytes (s : State) (lanes : ByteLanes) (bs : List Byte) : State := s.hostSend (wordsOfBytes lanes bs)

/-- The result words delivered so far as the bytes that a byte-addressed bus carries (20_memory.md R63, 30_encoding.md
R80). -/
def State.resultBytes (s : State) (lanes : ByteLanes) : List Byte := bytesOfWords lanes s.outbox

/-- The host asserts the power-on reset input (10_state.md R43). -/
def State.hostReset (s : State) : State := { s with por := true }

end Sys2Proof.Machine
end

