-- ==== Sys2Proof/Machine/Flags.lean ====
section
/-! DEFINITION. STATUS and the checks on it. The unit has no condition codes and no arithmetic flags (10_state.md R22)
and no floating-point exception flags (00_scope.md R11): the bits it keeps are those of STATUS (R23) and the configured
bits (R27, R31, R38), and the only things computed from them are the STATUS word and the checks below. -/

namespace Sys2Proof.Machine

/-- The STATUS register as a word, reserved bits zero (10_state.md R23, 40_global.md R111). -/
def statusWord (s : State) : Word := 0#16 ++ s.cause ++ 0#6 ++ BitVec.ofBool s.faulted ++ BitVec.ofBool s.act

/-- The check that STATUS.ACT is 1, else NOT_ACTIVE (60_exceptions.md R202). -/
def needActive (s : State) (k : Attempt) : Attempt := if s.act then k else .error .notActive

/-- The check of a configured bit, else UNCONFIGURED (60_exceptions.md R202). -/
def needConfigured (bit : Bool) (k : Attempt) : Attempt := if bit then k else .error .unconfigured

/-- The check that a delay is finite, else BAD_DELAY (60_exceptions.md R202, 43_delay.md R161). -/
def needFinite (d : F32) (k : Attempt) : Attempt := if F32.isFinite d then k else .error .badDelay

end Sys2Proof.Machine
end

