-- ==== Sys2Proof/Machine/Delay.lean ====
section
/-! DEFINITION. The Delay Line commands (43_delay.md). -/

namespace Sys2Proof.Machine

/-- A delay line after one write (R160): the slot at the write index, then the index advanced and masked. -/
def DelayLine.push (d : DelayLine) (sample : F32) : DelayLine :=
  { d.ringWrite d.wi sample with wi := (d.wi + 1) &&& d.mask }

/-- `tap = writeIndex - delayInt`, with `delayInt = floor(d)` in the unsigned domain (R161, 00_scope.md R14). -/
def DelayLine.tap (l : DelayLine) (d : F32) : Word := l.wi - BitVec.ofInt 32 (F32.floorInt d)

/-- `frac = d - delayInt` (R161). -/
def delayFrac (nan : F32) (d : F32) : F32 := F32.sub nan d (F32.ofInteger (F32.floorInt d))

/-- The linear interpolation `s0 + (s1 - s0) * frac` of R161. -/
def interpolate {α : Type} (A : Arith α) (s0 s1 frac : α) : α := A.add 3 s0 (A.mul 2 (A.sub 1 s1 s0) frac)

/-- The fractional read of R161. -/
def DelayLine.readFractional (nan : Nat → F32) (l : DelayLine) (d : F32) : F32 :=
  interpolate (binary32 nan) (l.ringRead (l.tap d)) (l.ringRead (l.tap d - 1)) (delayFrac (nan 0) d)

/-- DL.WR (R160). The sample is stored bit for bit. -/
def execDlWr (u : Nat) (sample : F32) (s : State) : Outcome :=
  issue (.dlWr u sample) s <| onDelay s u fun d => needActive s <| .ok (s.setDelay u (d.push sample))

/-- DL.RD (R161). Every finite delay reads; a delay that is ±Inf or NaN raises BAD_DELAY. -/
def execDlRd (u : Nat) (delaySamples : F32) (s : State) : Outcome :=
  issue (.dlRd u delaySamples) s <| onDelay s u fun d => needActive s <| needFinite delaySamples <|
    .ok (s.respond [d.readFractional s.nan delaySamples]).drawn

/-- DL.RDWI (R162). -/
def execDlRdwi (u : Nat) (s : State) : Outcome :=
  issue (.dlRdwi u) s <| onDelay s u fun d => needActive s <| .ok (s.respond [d.wi])

/-- DL.PEEK (R163). The index is masked; no index faults. -/
def execDlPeek (u : Nat) (index : Word) (s : State) : Outcome :=
  issue (.dlPeek u index) s <| onDelay s u fun d => needActive s <| .ok (s.respond [d.ringRead index])

end Sys2Proof.Machine
end

