-- ==== Sys2Proof/Machine/Filter.lean ====
section
/-! DEFINITION. The Resonant Filter commands (41_filter.md). -/

namespace Sys2Proof.Machine

/-- The coefficients `(c1, c2, d0)` of R120, in the order and grouping of its pseudocode. -/
def filterCoefficients {α : Type} (A : Arith α) (cutoffHz resonanceQ sampleRateHz : α) : α × α × α :=
  let fr := A.div 0 cutoffHz sampleRateHz
  let t := A.mul 1 A.pi fr
  let w := A.mul 2 A.two (A.tan t)
  let a := A.div 3 w resonanceQ
  let b := A.mul 4 w w
  let n := A.add 5 a b
  let den := A.add 9 (A.add 7 A.one (A.div 6 a A.two)) (A.div 8 b A.four)
  let c1 := A.div 10 n den
  let c2 := A.div 11 b n
  let d0 := A.div 13 (A.mul 12 c1 c2) A.four
  (c1, c2, d0)

/-- `x = (input - z1) - z2` of R121. -/
def filterX {α : Type} (A : Arith α) (z1 z2 input : α) : α := A.sub 1 (A.sub 0 input z1) z2

/-- The new `z2` of R121, from the old `z1`. -/
def filterZ2 {α : Type} (A : Arith α) (c2 z1 z2 : α) : α := A.add 3 z2 (A.mul 2 c2 z1)

/-- The new `z1` of R121. -/
def filterZ1 {α : Type} (A : Arith α) (c1 z1 z2 input : α) : α := A.add 5 z1 (A.mul 4 c1 (filterX A z1 z2 input))

/-- The output sample of R121, from the new `z2`. -/
def filterOut {α : Type} (A : Arith α) (c2 d0 z1 z2 input : α) : α :=
  A.add 7 (A.mul 6 d0 (filterX A z1 z2 input)) (filterZ2 A c2 z1 z2)

/-- A filter after one sample (R121). -/
def FilterRegs.process (A : Arith F32) (f : FilterRegs) (input : F32) : FilterRegs :=
  { f with z1 := filterZ1 A f.c1 f.z1 f.z2 input, z2 := filterZ2 A f.c2 f.z1 f.z2 }

/-- The output sample of a filter (R121). -/
def FilterRegs.output (A : Arith F32) (f : FilterRegs) (input : F32) : F32 := filterOut A f.c2 f.d0 f.z1 f.z2 input

/-- A filter with new coefficients; its memory is kept (R120). -/
def FilterRegs.configure (f : FilterRegs) (c : F32 × F32 × F32) : FilterRegs :=
  { f with c1 := c.1, c2 := c.2.1, d0 := c.2.2, cv := true }

/-- FILT.CFG (R120). No operand value faults. -/
def execFiltCfg (u : Nat) (cutoffHz resonanceQ sampleRateHz : F32) (s : State) : Outcome :=
  issue (.filtCfg u cutoffHz resonanceQ sampleRateHz) s <| onFilter s u fun f =>
    .ok (s.setFilter u (f.configure (filterCoefficients s.arith cutoffHz resonanceQ sampleRateHz))).drawn

/-- FILT.PROC (R121). -/
def execFiltProc (u : Nat) (input : F32) (s : State) : Outcome :=
  issue (.filtProc u input) s <| onFilter s u fun f => needActive s <| needConfigured f.cv <|
    .ok ((s.setFilter u (f.process s.arith input)).respond [f.output s.arith input]).drawn

/-- FILT.RDZ1 (R122). -/
def execFiltRdz1 (u : Nat) (s : State) : Outcome :=
  issue (.filtRdz1 u) s <| onFilter s u fun f => needActive s <| .ok (s.respond [f.z1])

/-- FILT.RDZ2 (R123). -/
def execFiltRdz2 (u : Nat) (s : State) : Outcome :=
  issue (.filtRdz2 u) s <| onFilter s u fun f => needActive s <| .ok (s.respond [f.z2])

/-- FILT.RDC1 (R124). -/
def execFiltRdc1 (u : Nat) (s : State) : Outcome :=
  issue (.filtRdc1 u) s <| onFilter s u fun f => needConfigured f.cv <| .ok (s.respond [f.c1])

/-- FILT.RDC2 (R125). -/
def execFiltRdc2 (u : Nat) (s : State) : Outcome :=
  issue (.filtRdc2 u) s <| onFilter s u fun f => needConfigured f.cv <| .ok (s.respond [f.c2])

/-- FILT.RDD0 (R126). -/
def execFiltRdd0 (u : Nat) (s : State) : Outcome :=
  issue (.filtRdd0 u) s <| onFilter s u fun f => needConfigured f.cv <| .ok (s.respond [f.d0])

end Sys2Proof.Machine
end

