-- ==== Sys2Proof/Machine/Global.lean ====
section
/-! DEFINITION. The global commands (40_global.md). -/

namespace Sys2Proof.Machine

/-- A filter with its memory zeroed (R110). -/
def FilterRegs.activate (f : FilterRegs) : FilterRegs := { f with z1 := 0#32, z2 := 0#32 }

/-- An oscillator pair with its phases at +0.0 (R110). -/
def OscRegs.activate (o : OscRegs) : OscRegs := { o with pf := 0#32, ps := 0#32 }

/-- A delay line with every slot +0.0 and its write index 0 (R110). -/
def DelayLine.activate (d : DelayLine) : DelayLine := { d with ring := [], wi := 0#32 }

/-- ACT (R110): zero-fills every instance and sets STATUS.ACT. -/
def execAct (s : State) : Outcome :=
  issue .act s <| .ok
    { s with
      filters := s.filters.map FilterRegs.activate
      oscs := s.oscs.map OscRegs.activate
      delays := s.delays.map DelayLine.activate
      act := true }

/-- STAT.RD (R111). It runs in the Faulted state too (60_exceptions.md R204). -/
def execStatRd (s : State) : Outcome := .next (s.respond [statusWord s])

/-- FCMD.RD (R112). It runs in the Faulted state too (60_exceptions.md R204). -/
def execFcmdRd (s : State) : Outcome := .next (s.respond [s.fcmd])

end Sys2Proof.Machine
end

