-- ==== Sys2Proof/Machine/Oscillator.lean ====
section
/-! DEFINITION. The Oscillator Pair commands (42_oscillator.md). -/

namespace Sys2Proof.Machine

open Config

/-- One phase advanced and wrapped by at most one subtraction of a full turn (R142). `nanAdd` and `nanSub` are the NaN
the two operations yield when their result is a NaN. -/
def advancePhase (nanAdd nanSub : F32) (phase increment : F32) : F32 :=
  let p := F32.add nanAdd phase increment
  if F32.gt p twoPi32 then F32.sub nanSub p twoPi32 else p

/-- A pair after one step (R142): the two phases are independent. -/
def OscRegs.advance (nan : Nat → F32) (o : OscRegs) : OscRegs :=
  { o with pf := advancePhase (nan 0) (nan 1) o.pf o.incf, ps := advancePhase (nan 2) (nan 3) o.ps o.incs }

/-- The modulation value of R143, fast term first. -/
def modulation {α : Type} (A : Arith α) (pf ps phaseOffset fastDepth slowDepth : α) : α :=
  let sf := A.sin (A.add 0 pf phaseOffset)
  let ss := A.sin (A.add 1 ps phaseOffset)
  A.add 4 (A.mul 2 fastDepth sf) (A.mul 3 slowDepth ss)

/-- OSC.SETF (R140). Any value is stored as given. -/
def execOscSetf (u : Nat) (increment : F32) (s : State) : Outcome :=
  issue (.oscSetf u increment) s <| onOsc s u fun o => .ok (s.setOsc u { o with incf := increment, vf := true })

/-- OSC.SETS (R141). Any value is stored as given. -/
def execOscSets (u : Nat) (increment : F32) (s : State) : Outcome :=
  issue (.oscSets u increment) s <| onOsc s u fun o => .ok (s.setOsc u { o with incs := increment, vs := true })

/-- OSC.STEP (R142). It tests both configured bits together (60_exceptions.md R202). -/
def execOscStep (u : Nat) (s : State) : Outcome :=
  issue (.oscStep u) s <| onOsc s u fun o => needActive s <| needConfigured (o.vf && o.vs) <|
    .ok ((s.setOsc u (o.advance s.nan)).respond [(o.advance s.nan).pf, (o.advance s.nan).ps]).drawn

/-- OSC.TAP (R143). It writes no state. -/
def execOscTap (u : Nat) (phaseOffset fastDepth slowDepth : F32) (s : State) : Outcome :=
  issue (.oscTap u phaseOffset fastDepth slowDepth) s <| onOsc s u fun o => needActive s <|
    .ok (s.respond [modulation s.arith o.pf o.ps phaseOffset fastDepth slowDepth]).drawn

/-- OSC.RDPF (R144). -/
def execOscRdpf (u : Nat) (s : State) : Outcome :=
  issue (.oscRdpf u) s <| onOsc s u fun o => needActive s <| .ok (s.respond [o.pf])

/-- OSC.RDPS (R145). -/
def execOscRdps (u : Nat) (s : State) : Outcome :=
  issue (.oscRdps u) s <| onOsc s u fun o => needActive s <| .ok (s.respond [o.ps])

/-- OSC.RDIF (R146). -/
def execOscRdif (u : Nat) (s : State) : Outcome :=
  issue (.oscRdif u) s <| onOsc s u fun o => needConfigured o.vf <| .ok (s.respond [o.incf])

/-- OSC.RDIS (R147). -/
def execOscRdis (u : Nat) (s : State) : Outcome :=
  issue (.oscRdis u) s <| onOsc s u fun o => needConfigured o.vs <| .ok (s.respond [o.incs])

end Sys2Proof.Machine
end

