-- ==== Sys2Proof/Machine/Saturator.lean ====
section
/-! DEFINITION. The Saturator command (44_saturator.md). -/

namespace Sys2Proof.Machine

/-- `z / (0.75 + |z|)` (R180). -/
def saturate {α : Type} (A : Arith α) (z : α) : α := A.div 1 z (A.add 0 A.ksat (A.abs z))

/-- SAT (R180). It reads and writes no state of the unit and needs no ACT. -/
def execSat (z : F32) (s : State) : Outcome :=
  issue (.sat z) s <| .ok (s.respond [saturate s.arith z]).drawn

end Sys2Proof.Machine
end

