-- ==== Sys2Proof/Machine/Smoother.lean ====
section
/-! DEFINITION. The Smoother commands (45_smoother.md). -/

namespace Sys2Proof.Machine

/-- `y + (target - y) * KSM` (R186). -/
def smoothed {α : Type} (A : Arith α) (y target : α) : α := A.add 2 y (A.mul 1 (A.sub 0 target y) A.ksm)

/-- SM.LOAD (R185). Any value is stored as given. -/
def execSmLoad (u : Nat) (value : F32) (s : State) : Outcome :=
  issue (.smLoad u value) s <| onSmoother s u fun _ => .ok (s.setSmoother u { y := value, vy := true })

/-- SM.STEP (R186). -/
def execSmStep (u : Nat) (target : F32) (s : State) : Outcome :=
  issue (.smStep u target) s <| onSmoother s u fun r => needActive s <| needConfigured r.vy <|
    .ok ((s.setSmoother u { r with y := smoothed s.arith r.y target }).respond [smoothed s.arith r.y target]).drawn

/-- SM.RD (R187). -/
def execSmRd (u : Nat) (s : State) : Outcome :=
  issue (.smRd u) s <| onSmoother s u fun r => needConfigured r.vy <| .ok (s.respond [r.y])

end Sys2Proof.Machine
end

