-- ==== Sys2Proof/Machine/Dispatch.lean ====
section
/-! DEFINITION. The meaning of each command, one arm per constructor of `Instr`. -/

namespace Sys2Proof.Machine

def exec (i : Instr) (s : State) : Host.Outcome State Fault Refusal :=
  match i with
  -- global commands (40_global.md)
  | .act => Sys2Proof.Machine.execAct s
  | .statRd => Sys2Proof.Machine.execStatRd s
  | .fcmdRd => Sys2Proof.Machine.execFcmdRd s
  -- resonant filter (41_filter.md)
  | .filtCfg u cutoffHz resonanceQ sampleRateHz => Sys2Proof.Machine.execFiltCfg u cutoffHz resonanceQ sampleRateHz s
  | .filtProc u input => Sys2Proof.Machine.execFiltProc u input s
  | .filtRdz1 u => Sys2Proof.Machine.execFiltRdz1 u s
  | .filtRdz2 u => Sys2Proof.Machine.execFiltRdz2 u s
  | .filtRdc1 u => Sys2Proof.Machine.execFiltRdc1 u s
  | .filtRdc2 u => Sys2Proof.Machine.execFiltRdc2 u s
  | .filtRdd0 u => Sys2Proof.Machine.execFiltRdd0 u s
  -- oscillator pair (42_oscillator.md)
  | .oscSetf u increment => Sys2Proof.Machine.execOscSetf u increment s
  | .oscSets u increment => Sys2Proof.Machine.execOscSets u increment s
  | .oscStep u => Sys2Proof.Machine.execOscStep u s
  | .oscTap u phaseOffset fastDepth slowDepth => Sys2Proof.Machine.execOscTap u phaseOffset fastDepth slowDepth s
  | .oscRdpf u => Sys2Proof.Machine.execOscRdpf u s
  | .oscRdps u => Sys2Proof.Machine.execOscRdps u s
  | .oscRdif u => Sys2Proof.Machine.execOscRdif u s
  | .oscRdis u => Sys2Proof.Machine.execOscRdis u s
  -- delay line (43_delay.md)
  | .dlWr u sample => Sys2Proof.Machine.execDlWr u sample s
  | .dlRd u delaySamples => Sys2Proof.Machine.execDlRd u delaySamples s
  | .dlRdwi u => Sys2Proof.Machine.execDlRdwi u s
  | .dlPeek u index => Sys2Proof.Machine.execDlPeek u index s
  -- saturator (44_saturator.md)
  | .sat z => Sys2Proof.Machine.execSat z s
  -- smoother (45_smoother.md)
  | .smLoad u value => Sys2Proof.Machine.execSmLoad u value s
  | .smStep u target => Sys2Proof.Machine.execSmStep u target s
  | .smRd u => Sys2Proof.Machine.execSmRd u s

end Sys2Proof.Machine
end

