-- ==== Sys2Proof/Machine/Operands.lean ====
section
/-! DEFINITION. Taking words from the port (30_encoding.md R80, R83, R88). The unit has one operand form: an operand word
is taken whole, bit for bit, with no conversion, extension or scaling, whether it is a binary32 or an unsigned integer
(R83). There is no register operand, no immediate and no addressing mode (10_state.md R20). -/

namespace Sys2Proof.Machine

/-- The state after the core has taken the command word at the head of the port's queue. -/
def State.tookCommand (s : State) (rest : List Word) : State := { s with inbox := rest }

/-- The state after the core has also taken the `k` operand words that follow (60_exceptions.md R202). -/
def State.tookOperands (s : State) (rest : List Word) (k : Nat) : State := { s with inbox := rest.drop k }

/-- All `k` operand words of the command have been sent (30_encoding.md R80). -/
def operandsSent (rest : List Word) (k : Nat) : Bool := decide (k ≤ rest.length)

/-- The command of a row with its operand words `op[0] .. op[k-1]` (30_encoding.md R83). -/
def commandOf (row : Row) (u : Nat) (rest : List Word) : Instr :=
  row.make u (rest.getD 0 0) (rest.getD 1 0) (rest.getD 2 0)

end Sys2Proof.Machine
end

