-- ==== Sys2Proof/Machine/Fetch.lean ====
section
/-! DEFINITION. Taking the next command from the port: the first half of the check sequence of 60_exceptions.md R202. -/

namespace Sys2Proof.Machine

/-- What the core does next: run a command in a state, or move to a state in which no command runs. -/
inductive Fetched where
  | run (i : Instr) (s : State)
  | settle (s : State)
  deriving DecidableEq, Repr

/-- A word received in the Faulted state (60_exceptions.md R204): the words of STAT.RD and FCMD.RD run, every other word
is dropped. -/
def fetchFaulted (cmd : Word) (s : State) : Fetched :=
  if cmd = 0x02000000#32 then .run .statRd s
  else if cmd = 0x03000000#32 then .run .fcmdRd s
  else .settle s

/-- The instance a command word names does not exist: its UNIT is not below the family's count (30_encoding.md R86). -/
def unitMissing (s : State) (family : Option Family) (u : Nat) : Bool :=
  match family with
  | none => false
  | some f => decide (s.count f ≤ u)

/-- A command word received while the core is not Faulted (30_encoding.md R86, 60_exceptions.md R202): ILLEGAL, then
BAD_UNIT, each with only the command word taken (R207); else the command runs once its operand words are there, and until
then the core waits with the word untaken (log entry 5). -/
def fetchCommand (s : State) (cmd : Word) (rest : List Word) : Fetched :=
  match decodeHead cmd with
  | .error _ => .settle (raiseFault .illegal cmd (s.tookCommand rest))
  | .ok (row, u) =>
    if unitMissing s row.family u then .settle (raiseFault .badUnit cmd (s.tookCommand rest))
    else if operandsSent rest row.operands then .run (commandOf row u rest) (s.tookOperands rest row.operands)
    else .settle s

/-- What the core does next. An asserted power-on reset comes first (10_state.md R43; log entry 7); without a word the
core waits (20_memory.md R69, 60_exceptions.md R216). -/
def fetch (s : State) : Fetched :=
  if s.por then .settle s.powerOn
  else match s.inbox with
    | [] => .settle s
    | cmd :: rest =>
      if s.faulted then fetchFaulted cmd (s.tookCommand rest) else fetchCommand s cmd rest

end Sys2Proof.Machine
end

