-- ==== Sys2Proof/Machine/Step.lean ====
section
/-! DEFINITION. One step of the machine: at most one command (60_exceptions.md R202). -/

namespace Sys2Proof.Machine

/-- One step: what the core does next, and the command's meaning where a command runs. -/
def step (s : State) : Host.Outcome State Fault Refusal :=
  match fetch s with
  | .run i t => exec i t
  | .settle t => .next t

/-- The state in which the transaction whose first `nbits` bits are `w` stands at the head of the port's queue, its
missing operand words zero, and no power-on reset is asserted: the very next step runs it (log entry 8). -/
def State.withFetchWord (s : State) (nbits w : Nat) : State :=
  { s with inbox := transactionWords nbits w ++ s.inbox, por := false }

end Sys2Proof.Machine
end

