-- ==== Sys2Proof/Machine/Assembler.lean ====
section
/-! DEFINITION. The assembler syntax of 30_encoding.md R89 and the pseudo-instructions of R90: from a line of text to the
commands it stands for. It is no part of the unit; it says which words a program of 95_test_vectors.md sends. -/

namespace Sys2Proof.Machine

/-- `FILT.BLOCK uN, x0, ..., x(M-1)` (R90, 41_filter.md R127): one FILT.PROC a sample, nothing for an empty block. -/
def filtBlock (u : Nat) (samples : List F32) : List Instr := samples.map (Instr.filtProc u)

/-- `DL.RDI uN, n` (R90): a read at the integer delay `n`. -/
def dlRdi (u n : Nat) : List Instr := [.dlRd u (F32.ofInteger n)]

/-- `OSC.SET uN, inf, ins` (R90): both increments. -/
def oscSet (u : Nat) (incf incs : F32) : List Instr := [.oscSetf u incf, .oscSets u incs]

/-- The type of an operand word (R83): a binary32, written as a real literal, or an unsigned integer. -/
inductive OperandType where
  | real
  | unsigned
  deriving DecidableEq, Repr

/-- Why a line is no command (R89). -/
inductive AsmError where
  | unknownMnemonic
  | badUnit
  | badOperand
  | wrongOperandCount
  deriving DecidableEq, Repr

/-- The mnemonics of the opcode map with their opcodes and operand types (R85). -/
def mnemonics : List (List Char × Nat × List OperandType) :=
  [ ("ACT".toList, 0x01, []), ("STAT.RD".toList, 0x02, []), ("FCMD.RD".toList, 0x03, []),
    ("FILT.CFG".toList, 0x10, [.real, .real, .real]), ("FILT.PROC".toList, 0x11, [.real]),
    ("FILT.RDZ1".toList, 0x18, []), ("FILT.RDZ2".toList, 0x19, []), ("FILT.RDC1".toList, 0x1A, []),
    ("FILT.RDC2".toList, 0x1B, []), ("FILT.RDD0".toList, 0x1C, []) ] ++
  [ ("OSC.SETF".toList, 0x20, [.real]), ("OSC.SETS".toList, 0x21, [.real]), ("OSC.STEP".toList, 0x22, []),
    ("OSC.TAP".toList, 0x23, [.real, .real, .real]), ("OSC.RDPF".toList, 0x28, []), ("OSC.RDPS".toList, 0x29, []),
    ("OSC.RDIF".toList, 0x2A, []), ("OSC.RDIS".toList, 0x2B, []) ] ++
  [ ("DL.WR".toList, 0x30, [.real]), ("DL.RD".toList, 0x31, [.real]), ("DL.RDWI".toList, 0x38, []),
    ("DL.PEEK".toList, 0x39, [.unsigned]), ("SAT".toList, 0x40, [.real]), ("SM.LOAD".toList, 0x50, [.real]),
    ("SM.STEP".toList, 0x51, [.real]), ("SM.RD".toList, 0x58, []) ]

/-- The value of a digit in base 10 or 16. -/
def digitValue (base : Nat) (c : Char) : Option Nat :=
  let n := c.toNat
  let v := if 48 ≤ n ∧ n ≤ 57 then n - 48 else if 65 ≤ n ∧ n ≤ 70 then n - 55 else if 97 ≤ n ∧ n ≤ 102 then n - 87 else 99
  if v < base then some v else none

/-- The digits of a number, most significant first, after those already read. -/
def digitsFrom (base : Nat) : Nat → List Char → Option Nat
  | acc, [] => some acc
  | acc, c :: cs => (digitValue base c).bind fun v => digitsFrom base (acc * base + v) cs

/-- A nonempty string of digits. -/
def natLiteral (base : Nat) (cs : List Char) : Option Nat := if cs.isEmpty then none else digitsFrom base 0 cs

/-- A `U` operand: a decimal or `0x` integer below 2^32 (R89). -/
def unsignedLiteral (cs : List Char) : Option Word :=
  let n := match cs with
    | '0' :: 'x' :: hs => natLiteral 16 hs
    | _ => natLiteral 10 cs
  n.bind fun n => if n < 2 ^ 32 then some (BitVec.ofNat 32 n) else none

/-- The exponent of a decimal literal as the powers of ten that multiply and divide it. -/
def exponentLiteral (cs : List Char) : Option (Nat × Nat) :=
  match cs with
  | [] => some (0, 0)
  | _ :: '-' :: ds => (natLiteral 10 ds).map fun n => (0, n)
  | _ :: ds => (natLiteral 10 ds).map fun n => (n, 0)

/-- An unsigned decimal literal `123`, `1.5` or `3e38`, converted to the nearest binary32, ties to even (R89). -/
def decimalLiteral (negative : Bool) (cs : List Char) : Option F32 :=
  let isExp (c : Char) : Bool := c == 'e' || c == 'E'
  let body := cs.takeWhile fun c => !isExp c
  let whole := body.takeWhile fun c => c != '.'
  let fraction := (body.dropWhile fun c => c != '.').drop 1
  (natLiteral 10 (whole ++ fraction)).bind fun n =>
    (exponentLiteral (cs.dropWhile fun c => !isExp c)).map fun e =>
      F32.pack negative (F32.roundMag (n * 10 ^ e.1 * 2 ^ 149) (10 ^ (fraction.length + e.2)))

/-- An `F` operand: a decimal real literal, `inf`, `-inf`, `nan`, or `0x` and eight hex digits giving the raw bits (R89).
`nan` is the NaN the literal `nan` stands for, left to the caller (00_scope.md R9). -/
def realLiteral (nan : F32) (cs : List Char) : Option F32 :=
  if cs = "nan".toList then some nan
  else if cs = "inf".toList then some (F32.inf false)
  else if cs = "-inf".toList then some (F32.inf true)
  else match cs with
    | '0' :: 'x' :: hs => if hs.length = 8 then (natLiteral 16 hs).map (BitVec.ofNat 32) else none
    | '-' :: ds => decimalLiteral true ds
    | ds => decimalLiteral false ds

/-- The operand word a literal stands for. -/
def operandWord (nan : F32) (t : OperandType) (cs : List Char) : Option Word :=
  match t with
  | .real => realLiteral nan cs
  | .unsigned => unsignedLiteral cs

/-- The operand words of a list of literals, one for each type. -/
def operandWords (nan : F32) : List OperandType → List (List Char) → Except AsmError (List Word)
  | [], [] => .ok []
  | t :: ts, c :: cs =>
    match operandWord nan t c with
    | none => .error .badOperand
    | some w => (operandWords nan ts cs).map fun ws => w :: ws
  | _, _ => .error .wrongOperandCount

/-- The unit prefix `uN`, `N` the decimal UNIT value 0..255 (R89). -/
def unitLiteral (cs : List Char) : Option Nat :=
  match cs with
  | 'u' :: ds => (natLiteral 10 ds).bind fun n => if n < 256 then some n else none
  | _ => none

/-- A space or a tab. -/
def isBlank (c : Char) : Bool := c == ' ' || c == '\t'

/-- Text without the blanks at its two ends. -/
def trimBlanks (cs : List Char) : List Char := ((cs.dropWhile isBlank).reverse.dropWhile isBlank).reverse

/-- The pieces of a text between commas, after the piece `acc` read so far. -/
def commaPieces : List Char → List Char → List (List Char)
  | acc, [] => [acc]
  | acc, c :: cs => if c = ',' then acc :: commaPieces [] cs else commaPieces (acc ++ [c]) cs

/-- The arguments of a line: the text after the mnemonic, separated by commas. -/
def arguments (cs : List Char) : List (List Char) :=
  if (trimBlanks cs).isEmpty then [] else (commaPieces [] cs).map trimBlanks

/-- The command of a mnemonic of the opcode map, given its arguments: the unit prefix is required for the commands that
name an instance and forbidden for the others (R89). -/
def assembleCommand (nan : F32) (opc : Nat) (types : List OperandType) (args : List (List Char)) :
    Except AsmError (List Instr) :=
  match rowOf opc with
  | none => .error .unknownMnemonic
  | some row =>
    let withUnit (u : Nat) (rest : List (List Char)) : Except AsmError (List Instr) :=
      (operandWords nan types rest).map fun ws => [row.make u (ws.getD 0 0) (ws.getD 1 0) (ws.getD 2 0)]
    match row.family, args with
    | none, args => withUnit 0 args
    | some _, [] => .error .badUnit
    | some _, a :: rest =>
      match unitLiteral a with
      | none => .error .badUnit
      | some u => withUnit u rest

/-- The commands of a pseudo-instruction (R90), given its unit and its other arguments. -/
def assemblePseudo (nan : F32) (name : List Char) (u : Nat) (rest : List (List Char)) : Except AsmError (List Instr) :=
  if name = "FILT.BLOCK".toList then
    (operandWords nan (List.replicate rest.length .real) rest).map (filtBlock u)
  else if name = "DL.RDI".toList then
    match operandWords nan [.unsigned] rest with
    | .error e => .error e
    | .ok ws => if (ws.getD 0 0).toNat < 2 ^ 24 then .ok (dlRdi u (ws.getD 0 0).toNat) else .error .badOperand
  else if name = "OSC.SET".toList then
    (operandWords nan [.real, .real] rest).map fun ws => oscSet u (ws.getD 0 0) (ws.getD 1 0)
  else .error .unknownMnemonic

/-- The commands a line stands for (R89, R90); a blank line or a comment stands for none. -/
def assembleLine (nan : F32) (line : List Char) : Except AsmError (List Instr) :=
  let text := trimBlanks (line.takeWhile fun c => c != ';')
  let name := text.takeWhile fun c => !isBlank c
  let args := arguments (text.dropWhile fun c => !isBlank c)
  if text.isEmpty then .ok []
  else match mnemonics.find? fun m => m.1 = name with
    | some (_, opc, types) => assembleCommand nan opc types args
    | none =>
      match args with
      | [] => .error .unknownMnemonic
      | a :: rest =>
        match unitLiteral a with
        | none => .error .badUnit
        | some u => assemblePseudo nan name u rest

end Sys2Proof.Machine
end

