-- ==== Sys2Proof/Safety.lean ====
section
/-! DEFINITION. What counts as a safe run, in the terms the claims use: the invariants of the state, the table of checks of
60_exceptions.md R201, what no command may depend on (10_state.md R36, R42), and what a command may touch. -/

namespace Sys2Proof.Machine

/-- A delay line is legal: `CAP_LOG2` in 1..31 (00_scope.md R6), write index below the capacity (10_state.md R34), the ring
in canonical form with no slot outside 0..CAP-1 (R33). -/
abbrev DelayLine.wf (d : DelayLine) : Prop :=
  1 ≤ d.capLog2 ∧ d.capLog2 ≤ 31 ∧ d.wi.toNat < d.cap ∧ d.ring.wf ∧ ∀ e ∈ d.ring, e.1 < d.cap

/-- STATUS and FCMD agree (10_state.md R23, R24, 60_exceptions.md R200): with FAULT clear CAUSE and FCMD are 0, with FAULT
set CAUSE is a code in 1..5. -/
abbrev State.statusWf (s : State) : Prop :=
  if s.faulted then 1 ≤ s.cause.toNat ∧ s.cause.toNat ≤ 5 else s.cause = 0#8 ∧ s.fcmd = 0#32

/-- The state is legal: instance counts in 0..256 (00_scope.md R5), legal delay lines, STATUS and FCMD in agreement. -/
abbrev State.wf (s : State) : Prop :=
  s.filters.length ≤ 256 ∧ s.oscs.length ≤ 256 ∧ s.delays.length ≤ 256 ∧ s.smoothers.length ≤ 256 ∧
  (∀ d ∈ s.delays, d.wf) ∧ s.statusWf

/-- A step is safe when it ends in a next state. -/
def Safe (o : Outcome) : Prop := ∃ t, o = .next t

/-- The family of a command (30_encoding.md R81, R86). -/
def family? : Instr → Option Family
  | .act | .statRd | .fcmdRd | .sat _ => none
  | .filtCfg _ _ _ _ | .filtProc _ _ | .filtRdz1 _ | .filtRdz2 _ | .filtRdc1 _ | .filtRdc2 _ | .filtRdd0 _ => some .filt
  | .oscSetf _ _ | .oscSets _ _ | .oscStep _ | .oscTap _ _ _ _ | .oscRdpf _ | .oscRdps _ | .oscRdif _ | .oscRdis _ =>
    some .osc
  | .dlWr _ _ | .dlRd _ _ | .dlRdwi _ | .dlPeek _ _ => some .dl
  | .smLoad _ _ | .smStep _ _ | .smRd _ => some .sm

/-- The instance a command names exists (30_encoding.md R86). -/
def unitExists (i : Instr) (s : State) : Bool :=
  match family? i, i.unit? with
  | some f, some u => decide (u < s.count f)
  | _, _ => true

/-- The ACT column of the opcode map (30_encoding.md R85). -/
def needsAct : Instr → Bool
  | .filtProc _ _ | .filtRdz1 _ | .filtRdz2 _ => true
  | .oscStep _ | .oscTap _ _ _ _ | .oscRdpf _ | .oscRdps _ => true
  | .dlWr _ _ | .dlRd _ _ | .dlRdwi _ | .dlPeek _ _ => true
  | .smStep _ _ => true
  | .act | .statRd | .fcmdRd | .sat _ | .filtCfg _ _ _ _ | .filtRdc1 _ | .filtRdc2 _ | .filtRdd0 _
  | .oscSetf _ _ | .oscSets _ _ | .oscRdif _ | .oscRdis _ | .smLoad _ _ | .smRd _ => false

/-- The configured bits a command needs are set (the cfg column of 30_encoding.md R85; 10_state.md R27, R31, R38). -/
def configuredOk (i : Instr) (s : State) : Bool :=
  match i with
  | .filtProc u _ | .filtRdc1 u | .filtRdc2 u | .filtRdd0 u => s.filters[u]?.any fun f => f.cv
  | .oscStep u => s.oscs[u]?.any fun o => o.vf && o.vs
  | .oscRdif u => s.oscs[u]?.any fun o => o.vf
  | .oscRdis u => s.oscs[u]?.any fun o => o.vs
  | .smStep u _ | .smRd u => s.smoothers[u]?.any fun r => r.vy
  | .act | .statRd | .fcmdRd | .sat _ | .filtCfg _ _ _ _ | .filtRdz1 _ | .filtRdz2 _ | .oscSetf _ _ | .oscSets _ _
  | .oscTap _ _ _ _ | .oscRdpf _ | .oscRdps _ | .dlWr _ _ | .dlRd _ _ | .dlRdwi _ | .dlPeek _ _ | .smLoad _ _ => true

/-- The delay operand of DL.RD is finite (60_exceptions.md R200). -/
def delayOk : Instr → Bool
  | .dlRd _ d => F32.isFinite d
  | _ => true

/-- The first check of a decoded command that fails, in the order of 60_exceptions.md R202. -/
def firstFault (i : Instr) (s : State) : Option Cause :=
  if !unitExists i s then some .badUnit
  else if needsAct i && !s.act then some .notActive
  else if !configuredOk i s then some .unconfigured
  else if !delayOk i then some .badDelay
  else none

/-- STAT.RD and FCMD.RD, the two commands that run in the Faulted state (60_exceptions.md R204). -/
def runsFaulted : Instr → Bool
  | .statRd | .fcmdRd => true
  | _ => false

/-- A command runs in a state: no check fails and, in the Faulted state, it is STAT.RD or FCMD.RD. -/
def runs (i : Instr) (s : State) : Prop :=
  runsFaulted i = true ∨ (s.faulted = false ∧ firstFault i s = none)

/-- The commands that write no data state of the unit (20_memory.md R67, 60_exceptions.md R215, and OSC.TAP and SAT). -/
def writesNothing : Instr → Bool
  | .act | .filtCfg _ _ _ _ | .filtProc _ _ | .oscSetf _ _ | .oscSets _ _ | .oscStep _ | .dlWr _ _ | .smLoad _ _
  | .smStep _ _ => false
  | .statRd | .fcmdRd | .filtRdz1 _ | .filtRdz2 _ | .filtRdc1 _ | .filtRdc2 _ | .filtRdd0 _ | .oscTap _ _ _ _
  | .oscRdpf _ | .oscRdps _ | .oscRdif _ | .oscRdis _ | .dlRd _ _ | .dlRdwi _ | .dlPeek _ _ | .sat _ | .smRd _ => true

/-- The slot `i` of delay line `u`, by number. -/
def slotAt (s : State) (u i : Nat) : Option Word := s.delays[u]?.map fun d => d.ring.read i

/-- The status registers are as they were, or fault entry wrote them (60_exceptions.md R203), and STATUS.ACT, the reset
input and the words not yet taken are as they were. -/
def statusFrame (i : Instr) (s t : State) : Prop :=
  t.act = s.act ∧ t.por = s.por ∧ t.inbox = s.inbox ∧
  ((t.faulted = s.faulted ∧ t.cause = s.cause ∧ t.fcmd = s.fcmd) ∨
   (t.faulted = true ∧ (∃ c : Cause, t.cause = c.code) ∧ t.fcmd = i.commandWord ∧ t.outbox = s.outbox))

/-- The registers of one unit of one family. -/
inductive UnitRegs where
  | filt (f : FilterRegs)
  | osc (o : OscRegs)
  | dl (d : DelayLine)
  | sm (r : SmootherRegs)
  deriving DecidableEq, Repr

/-- The registers of unit `u` of a family. -/
def unitRegs (s : State) (f : Family) (u : Nat) : Option UnitRegs :=
  match f with
  | .filt => s.filters[u]?.map .filt
  | .osc => s.oscs[u]?.map .osc
  | .dl => s.delays[u]?.map .dl
  | .sm => s.smoothers[u]?.map .sm

/-- Two filters agree on all that is not unspecified (10_state.md R42): the configured bit; the coefficients once
configured; the memory once the unit is Active. -/
def FilterRegs.sameDefined (act : Bool) (f g : FilterRegs) : Prop :=
  f.cv = g.cv ∧ (f.cv = true → f.c1 = g.c1 ∧ f.c2 = g.c2 ∧ f.d0 = g.d0) ∧ (act = true → f.z1 = g.z1 ∧ f.z2 = g.z2)

/-- Two oscillator pairs agree on all that is not unspecified (10_state.md R42). -/
def OscRegs.sameDefined (act : Bool) (o p : OscRegs) : Prop :=
  o.vf = p.vf ∧ o.vs = p.vs ∧ (o.vf = true → o.incf = p.incf) ∧ (o.vs = true → o.incs = p.incs) ∧
  (act = true → o.pf = p.pf ∧ o.ps = p.ps)

/-- Two delay lines agree on all that is not unspecified (10_state.md R42). -/
def DelayLine.sameDefined (act : Bool) (d e : DelayLine) : Prop :=
  d.capLog2 = e.capLog2 ∧ (act = true → d.ring = e.ring ∧ d.wi = e.wi)

/-- Two smoothers agree on all that is not unspecified (10_state.md R42). -/
def SmootherRegs.sameDefined (r q : SmootherRegs) : Prop := r.vy = q.vy ∧ (r.vy = true → r.y = q.y)

/-- Two states agree on all that is not unspecified after power-on reset (10_state.md R42): they may differ only in fields
that no command can have written yet. -/
def sameDefined (s t : State) : Prop :=
  s.act = t.act ∧ s.faulted = t.faulted ∧ s.cause = t.cause ∧ s.fcmd = t.fcmd ∧ s.por = t.por ∧ s.inbox = t.inbox ∧
  s.outbox = t.outbox ∧ s.draws = t.draws ∧
  List.Forall₂ (FilterRegs.sameDefined s.act) s.filters t.filters ∧
  List.Forall₂ (OscRegs.sameDefined s.act) s.oscs t.oscs ∧
  List.Forall₂ (DelayLine.sameDefined s.act) s.delays t.delays ∧
  List.Forall₂ SmootherRegs.sameDefined s.smoothers t.smoothers

/-- The delay line after a list of writes, oldest first. -/
def DelayLine.pushAll (d : DelayLine) (xs : List F32) : DelayLine := xs.foldl DelayLine.push d

/-- The sample written `k` writes before the next one, `x_{n+1-k}` of 10_state.md R35 (`k = 1` the latest), and +0.0 where
fewer than `k` were written. -/
def sampleBack (xs : List F32) (k : Nat) : F32 := xs.reverse.getD (k - 1) 0#32

/-- The commands that load registers before activation (70_reset_and_hazards.md R231, steps 2 to 4). -/
def loads : Instr → Bool
  | .filtCfg _ _ _ _ | .oscSetf _ _ | .oscSets _ _ | .smLoad _ _ => true
  | _ => false

end Sys2Proof.Machine
end

