-- ==== Sys2Proof/Certificates/Slice0/Obligations.lean ====
section
/-! DEFINITION. The statements about the machine, each from rules of the spec; nothing is proved here. -/

open Sys2Proof Sys2Proof.Machine

/-! ## Encoding (30_encoding.md) -/

/-- Words written out from the patterns of the opcode map decode to the commands they stand for, one of each family and
the two examples of R85. -/
def Obligations.SpecWordsDecode : Prop :=
  decode [0x01000000#32] = .ok (.act, []) ∧
  decode [0x11020000#32, 0x3F800000#32] = .ok (.filtProc 2 0x3F800000#32, []) ∧
  decode [0x10FF0000#32, 1#32, 2#32, 3#32, 4#32] = .ok (.filtCfg 255 1#32 2#32 3#32, [4#32]) ∧
  decode [0x23010000#32, 5#32, 6#32, 7#32] = .ok (.oscTap 1 5#32 6#32 7#32, []) ∧
  decode [0x39010000#32, 0x0000000C#32] = .ok (.dlPeek 1 12#32, []) ∧
  decode [0x40000000#32, 0xBF800000#32] = .ok (.sat 0xBF800000#32, []) ∧
  decode [0x51000000#32, 0x40400000#32, 0x02000000#32] = .ok (.smStep 0 0x40400000#32, [0x02000000#32])

/-- Decoding the encoding of a well-formed command gives the command back, and the words after it. -/
def Obligations.DecodeInvertsEncode : Prop :=
  ∀ (i : Instr) (rest : List Word), i.wellFormed = true → decode (encode i ++ rest) = .ok (i, rest)

/-- Encoding a decoded command gives the words it was decoded from: a decoded command is well formed, and its encoding with
the rest of the words is what was decoded. -/
def Obligations.EncodeInvertsDecode : Prop :=
  ∀ (ws : List Word) (i : Instr) (rest : List Word), decode ws = .ok (i, rest) →
    i.wellFormed = true ∧ ws = encode i ++ rest

/-- The opcodes of the opcode map (30_encoding.md R85). -/
def Sys2Proof.Machine.listedOpcodes : List Nat :=
  [0x01, 0x02, 0x03, 0x10, 0x11, 0x18, 0x19, 0x1A, 0x1B, 0x1C, 0x20, 0x21, 0x22, 0x23, 0x28, 0x29, 0x2A, 0x2B,
   0x30, 0x31, 0x38, 0x39, 0x40, 0x50, 0x51, 0x58]

/-- The reserved opcodes, range by range (30_encoding.md R87). -/
def Sys2Proof.Machine.reservedOpcode (n : Nat) : Prop :=
  n = 0x00 ∨ (0x04 ≤ n ∧ n ≤ 0x0F) ∨ (0x12 ≤ n ∧ n ≤ 0x17) ∨ (0x1D ≤ n ∧ n ≤ 0x1F) ∨ (0x24 ≤ n ∧ n ≤ 0x27) ∨
  (0x2C ≤ n ∧ n ≤ 0x2F) ∨ (0x32 ≤ n ∧ n ≤ 0x37) ∨ (0x3A ≤ n ∧ n ≤ 0x3F) ∨ (0x41 ≤ n ∧ n ≤ 0x4F) ∨
  (0x52 ≤ n ∧ n ≤ 0x57) ∨ (0x59 ≤ n ∧ n ≤ 0xFF)

/-- Every command word is the word of one row of the opcode map and a UNIT value, or it is illegal, and never both. -/
def Obligations.EveryWordIsACommandOrIllegal : Prop :=
  ∀ w : Word,
    ((∃ row u, decodeHead w = .ok (row, u)) ↔
      opcField w ∈ listedOpcodes ∧ rsvField w = 0 ∧ (opcField w ∈ [0x01, 0x02, 0x03, 0x40] → unitField w = 0)) ∧
    (∀ row u, decodeHead w = .ok (row, u) →
      row ∈ opcodeTable ∧ u < 256 ∧ w.toNat = row.opc * 2 ^ 24 + u * 2 ^ 16)

/-! ## Taking commands from the port (60_exceptions.md R202) -/

/-- A reserved opcode, a nonzero RSV, or a nonzero UNIT on a command that names no instance faults with ILLEGAL, and a legal
word whose UNIT is not below its family's count faults with BAD_UNIT; each with only the command word taken. -/
def Obligations.RejectedWordsFault : Prop :=
  ∀ (s : State) (w : Word) (rest : List Word), s.por = false → s.faulted = false → s.inbox = w :: rest →
    ((reservedOpcode (w.toNat / 2 ^ 24) ∨ w.toNat % 2 ^ 16 ≠ 0 ∨
        (w.toNat / 2 ^ 24 ∈ [0x01, 0x02, 0x03, 0x40] ∧ w.toNat / 2 ^ 16 % 2 ^ 8 ≠ 0)) →
      step s = .next { s with inbox := rest, faulted := true, cause := 1#8, fcmd := w }) ∧
    (∀ (row : Row) (f : Family) (u : Nat), decodeHead w = .ok (row, u) → row.family = some f → s.count f ≤ u →
      step s = .next { s with inbox := rest, faulted := true, cause := 2#8, fcmd := w })

/-- A step runs the command that the words at the head of the port's queue decode to, with its words taken. -/
def Obligations.StepRunsDecodedCommand : Prop :=
  ∀ (s : State) (i : Instr) (rest : List Word), s.por = false → s.faulted = false → decode s.inbox = .ok (i, rest) →
    unitExists i s = true → step s = exec i { s with inbox := rest }

/-- Without a command word the core waits and nothing changes; the model also waits for operand words that have not been
sent (log entry 5, the model's choice). -/
def Obligations.StepWaitsForWords : Prop :=
  (∀ s : State, s.por = false → s.inbox = [] → step s = .next s) ∧
  (∀ (s : State) (w : Word) (rest : List Word) (row : Row) (u : Nat), s.por = false → s.faulted = false →
    s.inbox = w :: rest → decodeHead w = .ok (row, u) → (∀ f, row.family = some f → u < s.count f) →
    rest.length < row.operands → step s = .next s)

/-- In the Faulted state the words of STAT.RD and FCMD.RD each return their one result and every other word is dropped,
with no effect and no result. -/
def Obligations.FaultedStateDropsWords : Prop :=
  ∀ (s : State) (w : Word) (rest : List Word), s.por = false → s.faulted = true → s.inbox = w :: rest →
    (w = 0x02000000#32 → step s = .next { s with inbox := rest, outbox := s.outbox ++ [statusWord s] }) ∧
    (w = 0x03000000#32 → step s = .next { s with inbox := rest, outbox := s.outbox ++ [s.fcmd] }) ∧
    (w ≠ 0x02000000#32 → w ≠ 0x03000000#32 → step s = .next { s with inbox := rest })

/-- However many steps a Faulted core takes without a power-on reset, it stays Faulted, the cause and the command word of
the first fault stay, and no data state changes. -/
def Obligations.FaultedRunsChangeNoState : Prop :=
  ∀ (n : Nat) (s : State), s.por = false → s.faulted = true →
    ∃ t, Sys2Proof.core.run n s = .next t ∧ t.faulted = true ∧ t.cause = s.cause ∧ t.fcmd = s.fcmd ∧ t.act = s.act ∧
      t.filters = s.filters ∧ t.oscs = s.oscs ∧ t.delays = s.delays ∧ t.smoothers = s.smoothers ∧ t.por = false

/-- A step that leaves the Faulted state is a power-on reset, and a power-on reset leaves it. That the reset is taken before
any word, and that `State.powerOn` keeps the port's queues, is the model's choice (DESIGN CHOICE, log entry 7). -/
def Obligations.OnlyPowerOnResetLeavesFaulted : Prop :=
  ∀ s t : State, step s = .next t →
    (s.faulted = true → t.faulted = false → s.por = true ∧ t = s.powerOn) ∧ (s.por = true → t.faulted = false)

/-- Words that the host sends later change nothing of a step that does not wait for them. That queued words outlive a step
that takes a power-on reset is the model's choice (DESIGN CHOICE, log entry 7), and so is waiting for operand words (log
entry 5). -/
def Obligations.LaterWordsDoNotChangeAStep : Prop :=
  ∀ (s t : State) (ws : List Word), step s = .next t → t ≠ s → step (s.hostSend ws) = .next (t.hostSend ws)

/-- Every step answers a next state: no state and no word stops the machine. The spec does not say so in one sentence; it
is the model's inference of log entry 13 (DEDUCED). -/
def Obligations.EveryStepAnswersNext : Prop :=
  ∀ s : State, Safe (step s)

/-! ## Reset (10_state.md R43, 70_reset_and_hazards.md R230) -/

/-- After power-on reset STATUS and FCMD are zero and every configured bit is 0, whatever the parameters, and the unit has
the instances and capacities its parameters say. -/
def Obligations.ResetLeavesUnitUnconfigured : Prop :=
  ∀ p : Params, statusWord (State.resetWith p) = 0#32 ∧ (State.resetWith p).fcmd = 0#32 ∧
    (State.resetWith p).act = false ∧ (State.resetWith p).faulted = false ∧
    (∀ f ∈ (State.resetWith p).filters, f.cv = false) ∧
    (∀ o ∈ (State.resetWith p).oscs, o.vf = false ∧ o.vs = false) ∧
    (∀ r ∈ (State.resetWith p).smoothers, r.vy = false) ∧
    (State.resetWith p).params = p

/-- An asserted power-on reset is taken by the next step, whatever the state: the unit is Inactive and not Faulted,
nothing is configured, the parameters stay. That it comes before any word, and that it leaves the port's queues, is the
model's choice (log entry 7). -/
def Obligations.PowerOnResetIsTakenFirst : Prop :=
  ∀ s : State, s.por = true →
    ∃ t, step s = .next t ∧ statusWord t = 0#32 ∧ t.fcmd = 0#32 ∧ t.por = false ∧ t.params = s.params ∧
      (∀ f ∈ t.filters, f.cv = false) ∧ (∀ o ∈ t.oscs, o.vf = false ∧ o.vs = false) ∧
      (∀ r ∈ t.smoothers, r.vy = false) ∧ t.inbox = s.inbox ∧ t.outbox = s.outbox

/-- After power-on reset, any commands that load registers of units the unit has, then ACT and STAT.RD, return the one
result word 0x00000001. -/
def Obligations.BootSequenceReadsStatusOne : Prop :=
  ∀ (p : Params) (cmds : List Instr),
    (∀ c ∈ cmds, loads c = true ∧ c.wellFormed = true ∧ unitExists c (State.resetWith p) = true) →
    ∃ t, Sys2Proof.core.run (cmds.length + 2)
        ((State.resetWith p).hostSend (encodeAll (cmds ++ [.act, .statRd]))) = .next t ∧
      t.outbox = [0x00000001#32] ∧ t.inbox = []

/-! ## Faults (60_exceptions.md) -/

/-- A decoded command with a failed check enters the fault of the first check that fails, in the order BAD_UNIT,
NOT_ACTIVE, UNCONFIGURED, BAD_DELAY; a command with none runs and leaves the unit not Faulted. -/
def Obligations.ChecksComeInOrder : Prop :=
  ∀ (i : Instr) (s : State), s.faulted = false →
    (∀ c, firstFault i s = some c →
      (runsFaulted i = false ∧
        exec i s = .next { s with faulted := true, cause := c.code, fcmd := i.commandWord })) ∧
    (firstFault i s = none → ∃ t, exec i s = .next t ∧ t.faulted = false ∧ t.cause = s.cause ∧ t.fcmd = s.fcmd)

/-- A step from a state that is not Faulted to one that is has taken a command word, and perhaps operand words after it,
from the port, and written FAULT, CAUSE and FCMD, the last with that command word bit for bit; it has changed nothing else
and returned no result. -/
def Obligations.FaultEntryWritesOnlyStatus : Prop :=
  ∀ s t : State, s.faulted = false → step s = .next t → t.faulted = true →
    ∃ (c : Cause) (cmd : Word) (ops rest : List Word), s.inbox = cmd :: (ops ++ rest) ∧
      t = { s with inbox := rest, faulted := true, cause := c.code, fcmd := cmd }

/-- No value of an operand decides whether a command faults, the delay of DL.RD apart: two commands with the same command
word leave the same STATUS and FCMD. -/
def Obligations.OperandValuesNeverFault : Prop :=
  ∀ (i j : Instr) (s t t' : State), i.wellFormed = true → j.wellFormed = true → i.commandWord = j.commandWord →
    (∀ u d, i ≠ .dlRd u d) → exec i s = .next t → exec j s = .next t' →
    t.act = t'.act ∧ t.faulted = t'.faulted ∧ t.cause = t'.cause ∧ t.fcmd = t'.fcmd

/-- A command that completes returns as many result words as its row of the opcode map says; a command that faults
returns none. -/
def Obligations.ResultWordsMatchTheOpcodeMap : Prop :=
  ∀ (i : Instr) (s t : State), i.wellFormed = true → s.faulted = false → exec i s = .next t →
    (t.faulted = true → t.outbox = s.outbox) ∧
    (t.faulted = false → ∃ row res, row ∈ opcodeTable ∧ row.opc = i.commandWord.toNat / 2 ^ 24 ∧
      t.outbox = s.outbox ++ res ∧ res.length = row.results)

/-! ## Invariants and whole-machine rules -/

/-- Every step keeps the state legal: instance counts, capacities, write indices below the capacity, every ring in
canonical form with no slot outside it, STATUS and FCMD in agreement. -/
def Obligations.StepKeepsTheStateLegal : Prop :=
  ∀ s t : State, s.wf → step s = .next t → t.wf

/-- The state after power-on reset is legal for every legal choice of parameters. -/
def Obligations.ResetIsLegal : Prop :=
  ∀ p : Params, p.wf → (State.resetWith p).wf

/-- No step changes how many instances there are or the capacity of a delay line. -/
def Obligations.CapacitiesNeverChange : Prop :=
  ∀ s t : State, step s = .next t → t.params = s.params

/-- Without a power-on reset no step clears STATUS.ACT or a configured bit. -/
def Obligations.ConfiguredBitsAreNeverCleared : Prop :=
  ∀ s t : State, s.por = false → step s = .next t →
    (s.act = true → t.act = true) ∧
    (∀ (u : Nat) (f : FilterRegs), s.filters[u]? = some f →
      ∃ f' : FilterRegs, t.filters[u]? = some f' ∧ (f.cv = true → f'.cv = true)) ∧
    (∀ (u : Nat) (o : OscRegs), s.oscs[u]? = some o →
      ∃ o' : OscRegs, t.oscs[u]? = some o' ∧ (o.vf = true → o'.vf = true) ∧ (o.vs = true → o'.vs = true)) ∧
    (∀ (u : Nat) (r : SmootherRegs), s.smoothers[u]? = some r →
      ∃ r' : SmootherRegs, t.smoothers[u]? = some r' ∧ (r.vy = true → r'.vy = true))

/-- What is unspecified after power-on reset is never seen: two states that differ only in fields no command can have
written yet take steps to states that differ only so, with the same results. -/
def Obligations.UnspecifiedDataIsNeverSeen : Prop :=
  ∀ s t s' : State, sameDefined s t → step s = .next s' → ∃ t', step t = .next t' ∧ sameDefined s' t'

/-- A command for one unit reads and writes no other unit: its effect on its unit and its results depend on that unit's
registers, STATUS and the draws alone, and every other unit is left as it was. -/
def Obligations.UnitsAreIndependent : Prop :=
  ∀ (i : Instr) (f : Family) (u : Nat) (s s' t t' : State), family? i = some f → i.unit? = some u →
    s.act = s'.act → s.faulted = s'.faulted → s.draws = s'.draws → unitRegs s f u = unitRegs s' f u →
    exec i s = .next t → exec i s' = .next t' →
    unitRegs t f u = unitRegs t' f u ∧ t.faulted = t'.faulted ∧
    (∃ res, t.outbox = s.outbox ++ res ∧ t'.outbox = s'.outbox ++ res) ∧
    (∀ g v, (g, v) ≠ (f, u) → unitRegs t g v = unitRegs s g v)

/-! ## Frames -/

/-- The read-back and status commands, DL.RD, OSC.TAP and SAT write no register of any unit and no slot of any ring. -/
def Obligations.ReadsWriteNothing : Prop :=
  ∀ (i : Instr) (s t : State), writesNothing i = true → exec i s = .next t →
    t.filters = s.filters ∧ t.oscs = s.oscs ∧ t.delays = s.delays ∧ t.smoothers = s.smoothers ∧
    (∀ u j, slotAt t u j = slotAt s u j) ∧ statusFrame i s t

/-- FILT.CFG leaves the memory of its filter, FILT.PROC the coefficients and the configured bit; both leave every other
filter, every other family, every slot and STATUS.ACT. -/
def Obligations.FilterCommandsFrame : Prop :=
  ∀ (i : Instr) (u : Nat) (s t : State),
    ((∃ a b c, i = .filtCfg u a b c) ∨ (∃ x, i = .filtProc u x)) → exec i s = .next t →
    (∀ v, v ≠ u → t.filters[v]? = s.filters[v]?) ∧
    (∀ f f', s.filters[u]? = some f → t.filters[u]? = some f' →
      ((∃ a b c, i = .filtCfg u a b c) → f'.z1 = f.z1 ∧ f'.z2 = f.z2) ∧
      ((∃ x, i = .filtProc u x) → f'.c1 = f.c1 ∧ f'.c2 = f.c2 ∧ f'.d0 = f.d0 ∧ f'.cv = f.cv)) ∧
    t.filters.length = s.filters.length ∧ t.oscs = s.oscs ∧ t.delays = s.delays ∧ t.smoothers = s.smoothers ∧
    (∀ v j, slotAt t v j = slotAt s v j) ∧ statusFrame i s t

/-- OSC.SETF leaves the phases and the slow oscillator, OSC.SETS the phases and the fast one, OSC.STEP the increments and
the configured bits; all leave every other pair, every other family, every slot and STATUS.ACT. -/
def Obligations.OscillatorCommandsFrame : Prop :=
  ∀ (i : Instr) (u : Nat) (s t : State),
    ((∃ x, i = .oscSetf u x) ∨ (∃ x, i = .oscSets u x) ∨ i = .oscStep u) → exec i s = .next t →
    (∀ v, v ≠ u → t.oscs[v]? = s.oscs[v]?) ∧
    (∀ o o', s.oscs[u]? = some o → t.oscs[u]? = some o' →
      ((∃ x, i = .oscSetf u x) → o'.pf = o.pf ∧ o'.ps = o.ps ∧ o'.incs = o.incs ∧ o'.vs = o.vs) ∧
      ((∃ x, i = .oscSets u x) → o'.pf = o.pf ∧ o'.ps = o.ps ∧ o'.incf = o.incf ∧ o'.vf = o.vf) ∧
      (i = .oscStep u → o'.incf = o.incf ∧ o'.incs = o.incs ∧ o'.vf = o.vf ∧ o'.vs = o.vs)) ∧
    t.oscs.length = s.oscs.length ∧ t.filters = s.filters ∧ t.delays = s.delays ∧ t.smoothers = s.smoothers ∧
    (∀ v j, slotAt t v j = slotAt s v j) ∧ statusFrame i s t

/-- DL.WR changes exactly one slot, the one its line's write index names, and that write index: every other slot of every
line, every other line's index, every capacity and every other family stay. -/
def Obligations.DelayWriteChangesOneSlot : Prop :=
  ∀ (u : Nat) (x : F32) (s t : State), s.wf → exec (.dlWr u x) s = .next t →
    (∀ d, s.delays[u]? = some d → ∀ v j, (v ≠ u ∨ j ≠ d.slot d.wi) → slotAt t v j = slotAt s v j) ∧
    (∀ v, v ≠ u → t.delays[v]? = s.delays[v]?) ∧
    (∀ d d', s.delays[u]? = some d → t.delays[u]? = some d' → d'.capLog2 = d.capLog2) ∧
    t.delays.length = s.delays.length ∧ t.filters = s.filters ∧ t.oscs = s.oscs ∧ t.smoothers = s.smoothers ∧
    statusFrame (.dlWr u x) s t

/-- SM.LOAD and SM.STEP write their smoother alone, SM.STEP not its configured bit. -/
def Obligations.SmootherCommandsFrame : Prop :=
  ∀ (i : Instr) (u : Nat) (s t : State), ((∃ x, i = .smLoad u x) ∨ (∃ x, i = .smStep u x)) → exec i s = .next t →
    (∀ v, v ≠ u → t.smoothers[v]? = s.smoothers[v]?) ∧
    (∀ r r', s.smoothers[u]? = some r → t.smoothers[u]? = some r' → (∃ x, i = .smStep u x) → r'.vy = r.vy) ∧
    t.smoothers.length = s.smoothers.length ∧ t.filters = s.filters ∧ t.oscs = s.oscs ∧ t.delays = s.delays ∧
    (∀ v j, slotAt t v j = slotAt s v j) ∧ statusFrame i s t

/-! ## Global commands (40_global.md) -/

/-- The word `w` is the command `i`, and every other word with its opcode is an illegal one (30_encoding.md R82, R86). -/
def Sys2Proof.Machine.onlyWord (w : Word) (i : Instr) : Prop :=
  decode [w] = .ok (i, []) ∧
  ∀ w' : Word, w'.toNat / 2 ^ 24 = w.toNat / 2 ^ 24 → w' ≠ w → ∃ e, decodeHead w' = .error e

/-- STAT.RD is the one word `0x02000000` and FCMD.RD the one word `0x03000000`. In every state, the Faulted state too,
STAT.RD returns ACT in bit 0, FAULT in bit 1, CAUSE in bits 15:8 and zeros elsewhere, FCMD.RD returns FCMD, and neither
writes state. -/
def Obligations.StatusReadsReturnStatus : Prop :=
  onlyWord 0x02000000#32 .statRd ∧ onlyWord 0x03000000#32 .fcmdRd ∧
  (∀ s : State, ∃ w : Word, exec .statRd s = .next { s with outbox := s.outbox ++ [w] } ∧
    w.toNat = (if s.act then 1 else 0) + (if s.faulted then 2 else 0) + 256 * s.cause.toNat) ∧
  (∀ s : State, exec .fcmdRd s = .next { s with outbox := s.outbox ++ [s.fcmd] })

/-- ACT is the one word `0x01000000`. It zeroes the memory of every filter, the phases of every pair, every slot and the
write index of every line, sets STATUS.ACT, and leaves the rest, so that a second one changes nothing; in the Faulted state
it has no effect. -/
def Obligations.ActivationZeroFills : Prop :=
  onlyWord 0x01000000#32 .act ∧
  (∀ s : State, s.faulted = true → exec .act s = .next s) ∧
  (∀ s : State, s.faulted = false →
    ∃ t, exec .act s = .next t ∧ t.act = true ∧
      (∀ u : Nat, t.filters[u]? = s.filters[u]?.map fun f : FilterRegs => { f with z1 := 0#32, z2 := 0#32 }) ∧
      (∀ u : Nat, t.oscs[u]? = s.oscs[u]?.map fun o : OscRegs => { o with pf := 0#32, ps := 0#32 }) ∧
      (∀ (u : Nat) (d : DelayLine), s.delays[u]? = some d → ∃ d' : DelayLine, t.delays[u]? = some d' ∧
        d'.capLog2 = d.capLog2 ∧ d'.wi = 0#32 ∧ ∀ i, d'.ringRead i = 0#32) ∧
      t.delays.length = s.delays.length ∧ t.smoothers = s.smoothers ∧ t.faulted = s.faulted ∧ t.cause = s.cause ∧
      t.fcmd = s.fcmd ∧ t.por = s.por ∧ t.inbox = s.inbox ∧ t.outbox = s.outbox ∧ exec .act t = .next t)

/-! ## Resonant Filter (41_filter.md) -/

/-- FILT.CFG on a filter that exists completes for every operand values and stores the coefficients of the pseudocode of
R120, each binary32 operation rounded once, in its order and grouping, a NaN result being some NaN. -/
def Obligations.FilterConfigureStoresCoefficients : Prop :=
  ∀ (u : Nat) (cutoffHz resonanceQ sampleRateHz : F32) (s : State) (f : FilterRegs), s.faulted = false →
    s.filters[u]? = some f →
    ∃ (t : State) (n : Nat → F32), (∀ k, F32.isNaN (n k) = true) ∧
      exec (.filtCfg u cutoffHz resonanceQ sampleRateHz) s = .next t ∧
      (let w := F32.mul (n 2) 0x40000000#32 (tan32 (F32.mul (n 1) 0x40490FDB#32 (F32.div (n 0) cutoffHz sampleRateHz)))
       let a := F32.div (n 3) w resonanceQ
       let b := F32.mul (n 4) w w
       let sum := F32.add (n 5) a b
       let den := F32.add (n 9) (F32.add (n 7) 0x3F800000#32 (F32.div (n 6) a 0x40000000#32))
         (F32.div (n 8) b 0x40800000#32)
       let c1 := F32.div (n 10) sum den
       let c2 := F32.div (n 11) b sum
       t.filters = s.filters.set u
         { f with c1 := c1, c2 := c2, d0 := F32.div (n 13) (F32.mul (n 12) c1 c2) 0x40800000#32, cv := true }) ∧
      t.act = s.act ∧ t.faulted = false ∧ t.outbox = s.outbox ∧ t.delays = s.delays

/-- FILT.PROC on a configured filter of an Active unit completes for every sample: the new memory and the output of the
pseudocode of R121, `z2` from the old `z1`, the output from the new `z2`. -/
def Obligations.FilterProcessRecursion : Prop :=
  ∀ (u : Nat) (input : F32) (s : State) (f : FilterRegs), s.faulted = false → s.act = true →
    s.filters[u]? = some f → f.cv = true →
    ∃ (t : State) (n : Nat → F32), (∀ k, F32.isNaN (n k) = true) ∧ exec (.filtProc u input) s = .next t ∧
      (let x := F32.sub (n 1) (F32.sub (n 0) input f.z1) f.z2
       let nz2 := F32.add (n 3) f.z2 (F32.mul (n 2) f.c2 f.z1)
       let nz1 := F32.add (n 5) f.z1 (F32.mul (n 4) f.c1 x)
       t.filters = s.filters.set u { f with z1 := nz1, z2 := nz2 } ∧
       t.outbox = s.outbox ++ [F32.add (n 7) (F32.mul (n 6) f.d0 x) nz2]) ∧
      t.act = true ∧ t.faulted = false ∧ t.delays = s.delays

/-- The filter read-backs return the stored bits and write nothing: z1 and z2 of an Active unit, the coefficients of a
configured filter, Active or not. -/
def Obligations.FilterReadBacks : Prop :=
  ∀ (u : Nat) (s : State) (f : FilterRegs), s.faulted = false → s.filters[u]? = some f →
    (s.act = true → exec (.filtRdz1 u) s = .next { s with outbox := s.outbox ++ [f.z1] } ∧
      exec (.filtRdz2 u) s = .next { s with outbox := s.outbox ++ [f.z2] }) ∧
    (f.cv = true → exec (.filtRdc1 u) s = .next { s with outbox := s.outbox ++ [f.c1] } ∧
      exec (.filtRdc2 u) s = .next { s with outbox := s.outbox ++ [f.c2] } ∧
      exec (.filtRdd0 u) s = .next { s with outbox := s.outbox ++ [f.d0] })

/-! ## Oscillator Pair (42_oscillator.md) -/

/-- OSC.SETF and OSC.SETS store any increment as given and set their configured bit, Active or not. -/
def Obligations.OscillatorIncrementsLoad : Prop :=
  ∀ (u : Nat) (x : F32) (s : State) (o : OscRegs), s.faulted = false → s.oscs[u]? = some o →
    exec (.oscSetf u x) s = .next { s with oscs := s.oscs.set u { o with incf := x, vf := true } } ∧
    exec (.oscSets u x) s = .next { s with oscs := s.oscs.set u { o with incs := x, vs := true } }

/-- OSC.STEP on a pair with both increments loaded, in an Active unit, advances each phase by its increment and subtracts
one full turn when the phase is above it, and returns the two new phases, fast first. -/
def Obligations.OscillatorStepAdvances : Prop :=
  ∀ (u : Nat) (s : State) (o : OscRegs), s.faulted = false → s.act = true → s.oscs[u]? = some o →
    o.vf = true → o.vs = true →
    ∃ (t : State) (n : Nat → F32), (∀ k, F32.isNaN (n k) = true) ∧ exec (.oscStep u) s = .next t ∧
      (let pf := F32.add (n 0) o.pf o.incf
       let pf' := if F32.gt pf 0x40C90FDB#32 then F32.sub (n 1) pf 0x40C90FDB#32 else pf
       let ps := F32.add (n 2) o.ps o.incs
       let ps' := if F32.gt ps 0x40C90FDB#32 then F32.sub (n 3) ps 0x40C90FDB#32 else ps
       t.oscs = s.oscs.set u { o with pf := pf', ps := ps' } ∧ t.outbox = s.outbox ++ [pf', ps']) ∧
      t.act = true ∧ t.faulted = false ∧ t.delays = s.delays

/-- OSC.TAP on a pair of an Active unit returns the weighted sum of the two sines, fast term first, and writes no
register. -/
def Obligations.OscillatorTapModulates : Prop :=
  ∀ (u : Nat) (phaseOffset fastDepth slowDepth : F32) (s : State) (o : OscRegs), s.faulted = false → s.act = true →
    s.oscs[u]? = some o →
    ∃ (t : State) (n : Nat → F32), (∀ k, F32.isNaN (n k) = true) ∧
      exec (.oscTap u phaseOffset fastDepth slowDepth) s = .next t ∧
      t.outbox = s.outbox ++ [F32.add (n 4) (F32.mul (n 2) fastDepth (sin32 (F32.add (n 0) o.pf phaseOffset)))
        (F32.mul (n 3) slowDepth (sin32 (F32.add (n 1) o.ps phaseOffset)))] ∧
      t.filters = s.filters ∧ t.oscs = s.oscs ∧ t.delays = s.delays ∧ t.smoothers = s.smoothers ∧ t.act = true ∧
      t.faulted = false

/-- The oscillator read-backs return the stored bits and write nothing: the phases of an Active unit, each increment once
its own configured bit is set, Active or not. -/
def Obligations.OscillatorReadBacks : Prop :=
  ∀ (u : Nat) (s : State) (o : OscRegs), s.faulted = false → s.oscs[u]? = some o →
    (s.act = true → exec (.oscRdpf u) s = .next { s with outbox := s.outbox ++ [o.pf] } ∧
      exec (.oscRdps u) s = .next { s with outbox := s.outbox ++ [o.ps] }) ∧
    (o.vf = true → exec (.oscRdif u) s = .next { s with outbox := s.outbox ++ [o.incf] }) ∧
    (o.vs = true → exec (.oscRdis u) s = .next { s with outbox := s.outbox ++ [o.incs] })

/-- With both increments and both phases in [+0.0, TWO_PI32], OSC.STEP leaves both phases in that range. -/
def Obligations.PhasesStayWithinOneTurn : Prop :=
  ∀ (u : Nat) (s t : State) (o : OscRegs), s.faulted = false → s.act = true → s.oscs[u]? = some o →
    o.vf = true → o.vs = true → o.incf.toNat ≤ 0x40C90FDB → o.incs.toNat ≤ 0x40C90FDB →
    o.pf.toNat ≤ 0x40C90FDB → o.ps.toNat ≤ 0x40C90FDB → exec (.oscStep u) s = .next t →
    ∃ o', t.oscs[u]? = some o' ∧ o'.pf.toNat ≤ 0x40C90FDB ∧ o'.ps.toNat ≤ 0x40C90FDB

/-- The arithmetic of the pseudocode over the reals. -/
noncomputable def Sys2Proof.Machine.realArith : Arith ℝ where
  add _ x y := x + y
  sub _ x y := x - y
  mul _ x y := x * y
  div _ x y := x / y
  abs x := |x|
  tan := Real.tan
  sin := Real.sin
  one := 1
  two := 2
  four := 4
  pi := Real.pi
  ksat := 3 / 4
  ksm := 5 / 100000

/-! ## Delay Line (43_delay.md) -/

/-- DL.WR on a delay line of an Active unit stores the sample bit for bit in the slot the write index names, leaves every
other slot, and moves the index to the next slot, from the last one to slot 0. -/
def Obligations.DelayWriteStoresSample : Prop :=
  ∀ (u : Nat) (x : F32) (s : State) (d : DelayLine), s.wf → s.faulted = false → s.act = true →
    s.delays[u]? = some d →
    ∃ t d', exec (.dlWr u x) s = .next t ∧ t.delays = s.delays.set u d' ∧ d'.capLog2 = d.capLog2 ∧
      d'.wi.toNat = (if d.wi.toNat + 1 = 2 ^ d.capLog2 then 0 else d.wi.toNat + 1) ∧
      (∀ j, d'.ring.read j = if j = d.wi.toNat then x else d.ring.read j) ∧
      t.act = true ∧ t.faulted = false ∧ t.outbox = s.outbox

/-- DL.RD on a delay line of an Active unit completes for every finite delay, negative or large: the two slots behind the
write index, masked, and the linear interpolation of R161. It writes no slot and no index. -/
def Obligations.DelayReadInterpolates : Prop :=
  ∀ (u : Nat) (delay : F32) (s : State) (d : DelayLine), s.faulted = false → s.act = true → s.delays[u]? = some d →
    d.capLog2 ≤ 31 → F32.isFinite delay = true →
    ∃ (t : State) (n : Nat → F32) (s0 s1 : Word), (∀ k, F32.isNaN (n k) = true) ∧ exec (.dlRd u delay) s = .next t ∧
      s0 = d.ring.read (((d.wi.toNat : Int) - F32.floorInt delay) % (2 ^ d.capLog2 : Int)).toNat ∧
      s1 = d.ring.read (((d.wi.toNat : Int) - F32.floorInt delay - 1) % (2 ^ d.capLog2 : Int)).toNat ∧
      t.outbox = s.outbox ++ [F32.add (n 3) s0 (F32.mul (n 2) (F32.sub (n 1) s1 s0)
        (F32.sub (n 0) delay (F32.ofInteger (F32.floorInt delay))))] ∧
      t.delays = s.delays ∧ t.act = true ∧ t.faulted = false

/-- DL.RD raises BAD_DELAY on an infinite or NaN delay, and NOT_ACTIVE on any delay before the first ACT. -/
def Obligations.DelayReadFaults : Prop :=
  ∀ (u : Nat) (delay : F32) (s : State) (d : DelayLine), s.faulted = false → s.delays[u]? = some d →
    (s.act = true → F32.isFinite delay = false →
      exec (.dlRd u delay) s = .next { s with faulted := true, cause := 5#8, fcmd := cmdWord 0x31 u }) ∧
    (s.act = false →
      exec (.dlRd u delay) s = .next { s with faulted := true, cause := 3#8, fcmd := cmdWord 0x31 u })

/-- DL.RDWI returns the write index and DL.PEEK the bits of the slot its index names modulo the capacity, for every index;
neither writes anything. -/
def Obligations.DelayReadBacks : Prop :=
  ∀ (u : Nat) (s : State) (d : DelayLine), s.faulted = false → s.act = true → s.delays[u]? = some d →
    d.capLog2 ≤ 31 →
    exec (.dlRdwi u) s = .next { s with outbox := s.outbox ++ [d.wi] } ∧
    ∀ index : Word, exec (.dlPeek u index) s =
      .next { s with outbox := s.outbox ++ [d.ring.read (index.toNat % 2 ^ d.capLog2)] }

/-- Writing samples `x_1 .. x_n` one after another to a delay line that is as ACT left it: the slot `k` behind the write
index then holds `x_(n+1-k)` for `k` up to `n`, and +0.0 beyond, up to the capacity. -/
def Obligations.DelayLineHoldsItsHistory : Prop :=
  ∀ (xs : List F32) (u : Nat) (s : State) (d : DelayLine) (rest : List Word), s.wf → s.por = false →
    s.faulted = false → s.act = true → u < 256 → s.delays[u]? = some d → d.ring = [] → d.wi = 0#32 →
    s.inbox = encodeAll (xs.map (Instr.dlWr u)) ++ rest →
    ∃ t d', Sys2Proof.core.run xs.length s = .next t ∧ t.inbox = rest ∧ t.outbox = s.outbox ∧
      t.delays[u]? = some d' ∧ d'.capLog2 = d.capLog2 ∧ d'.wi.toNat = xs.length % 2 ^ d.capLog2 ∧
      ∀ k : Nat, 1 ≤ k → k ≤ 2 ^ d.capLog2 →
        d'.ring.read (((d'.wi.toNat : Int) - (k : Int)) % (2 ^ d.capLog2 : Int)).toNat =
          if k ≤ xs.length then xs.getD (xs.length - k) 0#32 else 0#32

/-- DL.RD on an Active unit, of a delay line to which the samples `xs` were written since ACT, at a finite delay whose floor
`D` is below the capacity: for `1 <= D` the interpolation between the sample written `D` writes back and the one before
it, by the fraction; for `D = 0` from the oldest slot toward the newest sample. Samples from before the first are +0.0. -/
def Obligations.FractionalReadMeaning : Prop :=
  ∀ (xs : List F32) (u : Nat) (line : DelayLine) (delay : F32) (D : Nat) (s : State), line.wf → s.faulted = false →
    s.act = true → s.delays[u]? = some (line.activate.pushAll xs) → F32.isFinite delay = true →
    F32.floorInt delay = (D : Int) → D < 2 ^ line.capLog2 →
    ∃ (t : State) (n : Nat → F32), (∀ k, F32.isNaN (n k) = true) ∧ exec (.dlRd u delay) s = .next t ∧
      (let s0 := sampleBack xs (if D = 0 then 2 ^ line.capLog2 else D)
       let s1 := sampleBack xs (D + 1)
       t.outbox = s.outbox ++ [F32.add (n 3) s0 (F32.mul (n 2) (F32.sub (n 1) s1 s0)
         (F32.sub (n 0) delay (F32.ofInteger D)))])

/-- For a finite delay that is not negative the fraction is exact and in [0, 1). -/
def Obligations.FractionIsExact : Prop :=
  ∀ (nan delay : F32), F32.isFinite delay = true → F32.sign delay = false →
    F32.isFinite (delayFrac nan delay) = true ∧
    F32.val (delayFrac nan delay) = F32.val delay - F32.floorInt delay * 2 ^ 149 ∧
    0 ≤ F32.val (delayFrac nan delay) ∧ F32.val (delayFrac nan delay) < 2 ^ 149

/-- At an integer delay that is not negative, with a finite difference between the two samples and every NaN draw a NaN (as
in every state, log entry 3), the read returns the first sample bit for bit, except that −0.0 comes back as +0.0 when the difference is not negative. Over the reals the read
halfway between two samples is their mean. -/
def Obligations.IntegerDelayReturnsTheSample : Prop :=
  (∀ (n : Nat → F32) (line : DelayLine) (delay : F32), (∀ k, F32.isNaN (n k) = true) → F32.isFinite delay = true →
    F32.sign delay = false → F32.val delay = F32.floorInt delay * 2 ^ 149 →
    F32.isFinite (F32.sub (n 1) (line.ringRead (line.tap delay - 1)) (line.ringRead (line.tap delay))) = true →
    line.readFractional n delay =
      (let s0 := line.ringRead (line.tap delay)
       if s0 = 0x80000000#32 ∧ F32.sign (F32.sub (n 1) (line.ringRead (line.tap delay - 1)) s0) = false
       then 0x00000000#32 else s0)) ∧
  (∀ s0 s1 : ℝ, interpolate realArith s0 s1 (1 / 2) = (s0 + s1) / 2)

/-- Every ring index lands on one slot of the ring: indices that differ by a multiple of the capacity read the same slot,
and no index reaches outside it. -/
def Obligations.RingIndicesAlias : Prop :=
  ∀ (d : DelayLine) (i j : Word), d.capLog2 ≤ 31 →
    d.slot i < 2 ^ d.capLog2 ∧ (i.toNat % 2 ^ d.capLog2 = j.toNat % 2 ^ d.capLog2 → d.ringRead i = d.ringRead j) ∧
    (i.toNat < 2 ^ d.capLog2 → d.slot i = i.toNat)

/-! ## Saturator and Smoother (44_saturator.md, 45_smoother.md) -/

/-- SAT completes for every operand, Active or not: `z / (0.75 + |z|)`, two roundings, no register written. -/
def Obligations.SaturatorComputes : Prop :=
  ∀ (z : F32) (s : State), s.faulted = false →
    ∃ (t : State) (n : Nat → F32), (∀ k, F32.isNaN (n k) = true) ∧ exec (.sat z) s = .next t ∧
      t.outbox = s.outbox ++ [F32.div (n 1) z (F32.add (n 0) 0x3F400000#32 (F32.absf z))] ∧
      t.filters = s.filters ∧ t.oscs = s.oscs ∧ t.delays = s.delays ∧ t.smoothers = s.smoothers ∧ t.act = s.act ∧
      t.faulted = false

/-- Over the reals the saturation is below 1 in magnitude. In binary32 the magnitude of SAT is below 1.0 for finite `z`
below 2^24, exactly 1.0 from there on, and NaN for infinite or NaN `z`. -/
def Obligations.SaturatorIsBounded : Prop :=
  (∀ z : ℝ, |saturate realArith z| < 1) ∧
  ∀ (n : Nat → F32) (z : F32), (∀ k, F32.isNaN (n k) = true) →
    (F32.mag z < 0x4B800000 → F32.mag (saturate (binary32 n) z) < 0x3F800000) ∧
    (0x4B800000 ≤ F32.mag z → F32.mag z < 0x7F800000 → F32.mag (saturate (binary32 n) z) = 0x3F800000) ∧
    (0x7F800000 ≤ F32.mag z → F32.isNaN (saturate (binary32 n) z) = true)

/-- SAT is odd bit for bit on finite operands. -/
def Obligations.SaturatorIsOdd : Prop :=
  ∀ (n : Nat → F32) (z : F32), F32.isFinite z = true →
    saturate (binary32 n) (F32.neg z) = F32.neg (saturate (binary32 n) z)

/-- SM.LOAD stores any value as given; SM.STEP on a loaded smoother of an Active unit moves it by KSM of its distance to the
target and returns the new value; SM.RD returns a loaded value, Active or not, and writes nothing. -/
def Obligations.SmootherCommandsCompute : Prop :=
  ∀ (u : Nat) (x : F32) (s : State) (r : SmootherRegs), s.faulted = false → s.smoothers[u]? = some r →
    exec (.smLoad u x) s = .next { s with smoothers := s.smoothers.set u { y := x, vy := true } } ∧
    (r.vy = true → exec (.smRd u) s = .next { s with outbox := s.outbox ++ [r.y] }) ∧
    (r.vy = true → s.act = true →
      ∃ (t : State) (n : Nat → F32), (∀ k, F32.isNaN (n k) = true) ∧ exec (.smStep u x) s = .next t ∧
        (let ny := F32.add (n 2) r.y (F32.mul (n 1) (F32.sub (n 0) x r.y) 0x3851B717#32)
         t.smoothers = s.smoothers.set u { r with y := ny } ∧ t.outbox = s.outbox ++ [ny]) ∧
        t.act = true ∧ t.faulted = false ∧ t.delays = s.delays)

/-- A smoothing step from a finite value to a finite target, their difference finite, ends between the two. -/
def Obligations.SmootherNeverOvershoots : Prop :=
  ∀ (n : Nat → F32) (y target : F32), F32.isFinite y = true → F32.isFinite target = true →
    F32.isFinite (F32.sub (n 0) target y) = true →
    F32.isFinite (smoothed (binary32 n) y target) = true ∧
    (F32.val y ≤ F32.val target →
      F32.val y ≤ F32.val (smoothed (binary32 n) y target) ∧
      F32.val (smoothed (binary32 n) y target) ≤ F32.val target) ∧
    (F32.val target ≤ F32.val y →
      F32.val target ≤ F32.val (smoothed (binary32 n) y target) ∧
      F32.val (smoothed (binary32 n) y target) ≤ F32.val y)

/-! ## Binary32 arithmetic (00_scope.md) -/

/-- Half a spacing past the largest finite binary32, 2^128 − 2^103, in units of 2^-149: from here on IEEE 754 rounds to
Inf (log entry 12). -/
def Sys2Proof.Machine.overflowAt : Int := (2 ^ 25 - 1) * 2 ^ 252

/-- `r` is `n / d` units of 2^-149 rounded to nearest, ties to even (00_scope.md R13): below the overflow threshold it is
finite, nearest to `n / d` among all finite binary32 values, and of two equally near the one with an even fraction; from the
threshold on it is Inf with the sign of `n / d`. -/
def Sys2Proof.Machine.roundsTo (n d : Int) (r : F32) : Prop :=
  (|n| < |d| * overflowAt → F32.isFinite r = true ∧ ∀ c : F32, F32.isFinite c = true →
    |n - d * F32.val r| ≤ |n - d * F32.val c| ∧
    (|n - d * F32.val r| = |n - d * F32.val c| → F32.val c ≠ F32.val r → r.toNat % 2 = 0)) ∧
  (|d| * overflowAt ≤ |n| → r = F32.inf (decide (n * d < 0)))

/-- Sum, difference, product and quotient of finite operands are the exact result rounded once: finite and nearest, ties to
even, below the overflow threshold, and the signed Inf from there on. Values are in units of 2^-149. What the spec calls
IEEE 754 without spelling it out, the threshold among it, is PRESUMED in log entry 12. -/
def Obligations.ArithmeticRoundsToNearestEven : Prop :=
  ∀ (nan a b : F32), F32.isFinite a = true → F32.isFinite b = true →
    roundsTo (F32.val a + F32.val b) 1 (F32.add nan a b) ∧
    roundsTo (F32.val a - F32.val b) 1 (F32.sub nan a b) ∧
    roundsTo (F32.val a * F32.val b) (2 ^ 149) (F32.mul nan a b) ∧
    (F32.isZero b = false → roundsTo (2 ^ 149 * F32.val a) (F32.val b) (F32.div nan a b))

/-- Every NaN operand is treated alike: an operation on a NaN yields the NaN drawn for it, whatever the operand's bits,
and a comparison with a NaN is false; and a word drawn for a NaN result is a NaN. -/
def Obligations.NaNOperandsAreAlike : Prop :=
  (∀ (s : State) (k : Nat), F32.isNaN (s.nan k) = true) ∧
  ∀ (nan a b : F32), F32.isNaN a = true →
    F32.add nan a b = nan ∧ F32.add nan b a = nan ∧ F32.sub nan a b = nan ∧ F32.sub nan b a = nan ∧
    F32.mul nan a b = nan ∧ F32.mul nan b a = nan ∧ F32.div nan a b = nan ∧ F32.div nan b a = nan ∧
    F32.gt a b = false ∧ F32.gt b a = false ∧ F32.isNaN (F32.absf a) = true ∧
    (∀ a' : F32, F32.isNaN a' = true → tan32 a = tan32 a' ∧ sin32 a = sin32 a')

/-- A NaN that has entered a filter's memory or a phase stays until ACT, one in a smoother until SM.LOAD. -/
def Obligations.NaNStaysInState : Prop :=
  ∀ (i : Instr) (s t : State), exec i s = .next t → i ≠ .act →
    (∀ (u : Nat) (f : FilterRegs), s.filters[u]? = some f → ∃ f' : FilterRegs, t.filters[u]? = some f' ∧
      (F32.isNaN f.z1 = true → F32.isNaN f'.z1 = true) ∧ (F32.isNaN f.z2 = true → F32.isNaN f'.z2 = true)) ∧
    (∀ (u : Nat) (o : OscRegs), s.oscs[u]? = some o → ∃ o' : OscRegs, t.oscs[u]? = some o' ∧
      (F32.isNaN o.pf = true → F32.isNaN o'.pf = true) ∧ (F32.isNaN o.ps = true → F32.isNaN o'.ps = true)) ∧
    (∀ (u : Nat) (r : SmootherRegs), s.smoothers[u]? = some r → (∀ x, i ≠ .smLoad u x) →
      ∃ r' : SmootherRegs, t.smoothers[u]? = some r' ∧
      (F32.isNaN r.y = true → F32.isNaN r'.y = true))

/-! ## The formulas over the real numbers (source properties) -/

/-- Over the reals, with `c1` and `c2` nonzero, a constant input `v` has exactly one fixed point of the recursion: `z1 = 0`
and `z2 = v`, with output `v`. -/
def Obligations.RealFilterPassesDC : Prop :=
  ∀ c1 c2 d0 v z1 z2 : ℝ, c1 ≠ 0 → c2 ≠ 0 →
    ((filterZ1 realArith c1 z1 z2 v = z1 ∧ filterZ2 realArith c2 z1 z2 = z2) ↔ (z1 = 0 ∧ z2 = v)) ∧
    (z1 = 0 → z2 = v → filterOut realArith c2 d0 z1 z2 v = v)

/-- Over the reals, for a cutoff in (0, fs/4) and a resonance in (0.1, 10), the impulse response of the filter from zero
memory is bounded and decays to zero. That "bounded" is some bound and "decaying" the limit 0, with no rate and no number of
samples, is the model's reading, a DESIGN CHOICE of log entry 18: the spec gives none (91_not_in_source.md N20). -/
def Obligations.RealFilterIsStable : Prop :=
  ∀ cutoffHz resonanceQ sampleRateHz : ℝ, 0 < cutoffHz → cutoffHz < sampleRateHz / 4 → 1 / 10 < resonanceQ →
    resonanceQ < 10 →
    ∀ (c1 c2 d0 : ℝ) (z1 z2 input : ℕ → ℝ),
      (c1, c2, d0) = filterCoefficients realArith cutoffHz resonanceQ sampleRateHz →
      (∀ k, input k = if k = 0 then 1 else 0) → z1 0 = 0 → z2 0 = 0 →
      (∀ k, z1 (k + 1) = filterZ1 realArith c1 (z1 k) (z2 k) (input k)) →
      (∀ k, z2 (k + 1) = filterZ2 realArith c2 (z1 k) (z2 k)) →
      (∃ M, ∀ k, |filterOut realArith c2 d0 (z1 k) (z2 k) (input k)| ≤ M) ∧
      Filter.Tendsto (fun k => filterOut realArith c2 d0 (z1 k) (z2 k) (input k)) Filter.atTop (nhds 0)

/-! ## Special results of binary32 arithmetic (00_scope.md R11, R13) -/

/-- The results that rounding does not give, of operands that are no NaN, as log entry 12 (PRESUMED, IEEE 754) has them. An
infinite operand gives Inf, or a zero as a divisor; a nonzero value over zero is Inf; Inf − Inf, 0 × Inf, 0 / 0 and Inf / Inf
are NaN; none of these is a fault. The sign of a product or quotient is the exclusive or of the operand signs; an exact zero
sum or difference is +0.0 unless both terms are −0.0. -/
def Obligations.SpecialResultsFollowIeee754 : Prop :=
  ∀ (nan a b : F32), F32.isNaN a = false → F32.isNaN b = false →
    (F32.isInf a = true → F32.isInf b = true →
      F32.add nan a b = (if F32.sign a = F32.sign b then a else nan) ∧
      F32.sub nan a b = (if F32.sign a = F32.sign b then nan else a) ∧ F32.div nan a b = nan) ∧
    (F32.isInf a = true → F32.isFinite b = true →
      F32.add nan a b = a ∧ F32.add nan b a = a ∧ F32.sub nan a b = a ∧ F32.sub nan b a = F32.neg a ∧
      F32.div nan a b = F32.inf (F32.sign a != F32.sign b) ∧ F32.div nan b a = F32.zero (F32.sign a != F32.sign b)) ∧
    (F32.isInf a = true →
      F32.mul nan a b = (if F32.isZero b then nan else F32.inf (F32.sign a != F32.sign b)) ∧
      F32.mul nan b a = (if F32.isZero b then nan else F32.inf (F32.sign a != F32.sign b))) ∧
    (F32.isFinite a = true → F32.isZero b = true →
      F32.div nan a b = (if F32.isZero a then nan else F32.inf (F32.sign a != F32.sign b))) ∧
    (F32.isFinite a = true → F32.isFinite b = true →
      (F32.val a + F32.val b = 0 → F32.add nan a b = F32.zero (F32.sign a && F32.sign b)) ∧
      (F32.val a = F32.val b → F32.sub nan a b = F32.zero (F32.sign a && !F32.sign b)) ∧
      F32.sign (F32.mul nan a b) = (F32.sign a != F32.sign b) ∧
      (F32.isZero b = false → F32.sign (F32.div nan a b) = (F32.sign a != F32.sign b)))
end

