-- ==== Sys2Proof/Laws/Decode.lean ====
section
/-! SUPPORT. The laws of the encoding: the fields of a command word, the rows of the opcode map, the head of an encoded
command. -/

namespace Sys2Proof

/-- The index that a well-formed command names fits the UNIT field (30_encoding.md R81). -/
theorem Instr.unit_lt {i : Instr} {u : Nat} (h : i.wellFormed = true) (hu : i.unit? = some u) : u < 256 := by
  simpa [Instr.wellFormed, unitFits, hu] using h

/-- A command word as a number (30_encoding.md R81). -/
theorem cmdWord_toNat {opc u : Nat} (ho : opc < 256) (hu : u < 256) :
    (cmdWord opc u).toNat = opc * 16777216 + u * 65536 := by
  have h1 : (BitVec.ofNat 8 opc ++ BitVec.ofNat 8 u).toNat = opc * 256 + u := by
    rw [BitVec.toNat_append, BitVec.toNat_ofNat, BitVec.toNat_ofNat, Nat.mod_eq_of_lt ho, Nat.mod_eq_of_lt hu,
      ← Nat.shiftLeft_add_eq_or_of_lt hu, Nat.shiftLeft_eq]
  have h2 : (cmdWord opc u).toNat = (BitVec.ofNat 8 opc ++ BitVec.ofNat 8 u).toNat <<< 16 ||| 0 := by
    rw [cmdWord, BitVec.toNat_append]
    rfl
  rw [h2, h1, Nat.or_zero, Nat.shiftLeft_eq]
  omega

/-- A field of a word as a quotient and a remainder (00_scope.md R15). -/
theorem bitField_eq (w : Word) (hi lo : Nat) : bitField w hi lo = w.toNat / 2 ^ lo % 2 ^ (hi - lo + 1) := by
  rw [bitField, BitVec.extractLsb'_toNat, Nat.shiftRight_eq_div_pow]

/-- The fields of a command word (30_encoding.md R81). -/
theorem opcField_eq (w : Word) : opcField w = w.toNat / 16777216 := by
  have h := w.isLt
  have h0 := bitField_eq w 31 24
  norm_num at h0 h
  rw [opcField, h0]
  omega

theorem unitField_eq (w : Word) : unitField w = w.toNat / 65536 % 256 := by
  have h0 := bitField_eq w 23 16
  norm_num at h0
  exact h0

theorem rsvField_eq (w : Word) : rsvField w = w.toNat % 65536 := by
  have h0 := bitField_eq w 15 0
  norm_num at h0
  exact h0

theorem opcField_lt (w : Word) : opcField w < 256 := by
  rw [opcField_eq]
  have := w.isLt
  omega

theorem unitField_lt (w : Word) : unitField w < 256 := by
  rw [unitField_eq]
  omega

@[simp] theorem opcField_cmdWord {opc u : Nat} (ho : opc < 256) (hu : u < 256) : opcField (cmdWord opc u) = opc := by
  have h0 := cmdWord_toNat ho hu
  have h1 := opcField_eq (cmdWord opc u)
  omega

@[simp] theorem unitField_cmdWord {opc u : Nat} (ho : opc < 256) (hu : u < 256) : unitField (cmdWord opc u) = u := by
  have h0 := cmdWord_toNat ho hu
  have h1 := unitField_eq (cmdWord opc u)
  omega

@[simp] theorem rsvField_cmdWord {opc u : Nat} (ho : opc < 256) (hu : u < 256) : rsvField (cmdWord opc u) = 0 := by
  have h0 := cmdWord_toNat ho hu
  have h1 := rsvField_eq (cmdWord opc u)
  omega

/-- A word whose reserved field is zero is the command word of its fields. -/
theorem cmdWord_fields {w : Word} (h : rsvField w = 0) : cmdWord (opcField w) (unitField w) = w := by
  have h0 := cmdWord_toNat (opcField_lt w) (unitField_lt w)
  have h1 := opcField_eq w
  have h2 := unitField_eq w
  have h3 := rsvField_eq w
  exact BitVec.eq_of_toNat_eq (by omega)

/-- The head of an encoded command decodes, given the command's row in the opcode map. -/
theorem decodeHead_cmdWord {opc u : Nat} {row : Row} (ho : opc < 256) (hu : u < 256) (hrow : rowOf opc = some row)
    (hunit : row.family = none → u = 0) : decodeHead (cmdWord opc u) = .ok (row, u) := by
  unfold decodeHead
  rw [opcField_cmdWord ho hu, unitField_cmdWord ho hu, rsvField_cmdWord ho hu, hrow]
  have hno : ¬(row.family.isNone = true ∧ u ≠ 0) := fun h => h.2 (hunit (Option.isNone_iff_eq_none.mp h.1))
  exact (if_neg (by simp)).trans (if_neg hno)

/-- What a decoded head says of the word: its row, its UNIT value, and that the word is the command word of both. -/
theorem decodeHead_ok {w : Word} {row : Row} {u : Nat} (h : decodeHead w = .ok (row, u)) :
    rowOf (opcField w) = some row ∧ u = unitField w ∧ rsvField w = 0 ∧ (row.family = none → u = 0) ∧
    w = cmdWord (opcField w) u := by
  unfold decodeHead at h
  cases hr : rowOf (opcField w) with
  | none => simp [hr] at h
  | some r =>
    by_cases h1 : rsvField w = 0
    · by_cases h2 : r.family = none ∧ unitField w ≠ 0
      · simp [hr, h1, h2] at h
      · have h3 : r = row ∧ unitField w = u := by
          rw [hr] at h
          simpa [h1, h2, Option.isNone_iff_eq_none] using h
        obtain ⟨h3, h4⟩ := h3
        subst h3 h4
        refine ⟨rfl, rfl, h1, fun hf => ?_, (cmdWord_fields h1).symm⟩
        by_contra hne
        exact h2 ⟨hf, hne⟩
    · simp [hr, h1] at h

/-- A row found under an opcode is a row of the opcode map with that opcode. -/
theorem rowOf_some {opc : Nat} {row : Row} (h : rowOf opc = some row) : row ∈ opcodeTable ∧ row.opc = opc := by
  refine ⟨List.mem_of_find?_eq_some h, ?_⟩
  have := List.find?_some h
  simpa using this

/-- A reserved opcode has no row: none of the rows carries it. -/
theorem rowOf_none {opc : Nat} : rowOf opc = none ↔ ∀ row ∈ opcodeTable, row.opc ≠ opc := by
  simp [rowOf]

/-- The opcodes of the opcode map are different from one another: no two rows overlap. -/
theorem opcodes_distinct : (opcodeTable.map Row.opc).Nodup := by decide

/-- What the decoder gives on a command word and enough operand words. -/
theorem decode_cons {cmd : Word} {rest : List Word} {row : Row} {u : Nat} (h : decodeHead cmd = .ok (row, u))
    (hlen : row.operands ≤ rest.length) :
    decode (cmd :: rest) =
      .ok (row.make u (rest.getD 0 0) (rest.getD 1 0) (rest.getD 2 0), rest.drop row.operands) := by
  simp [decode, h, Nat.not_lt.mpr hlen]

/-- What a decoded list of words says: its head and the operand words that follow. -/
theorem decode_ok {ws : List Word} {i : Instr} {rest : List Word} (h : decode ws = .ok (i, rest)) :
    ∃ cmd tail row u, ws = cmd :: tail ∧ decodeHead cmd = .ok (row, u) ∧ row.operands ≤ tail.length ∧
      i = row.make u (tail.getD 0 0) (tail.getD 1 0) (tail.getD 2 0) ∧ rest = tail.drop row.operands := by
  cases ws with
  | nil => cases h
  | cons cmd tail =>
    simp only [decode] at h
    split at h
    · cases h
    · rename_i row u hh
      split_ifs at h with hl
      cases h
      exact ⟨cmd, tail, row, u, rfl, hh, Nat.not_lt.mp hl, rfl, rfl⟩

/-- The encoding of the command that a row makes: its command word and the operand words the row takes. -/
theorem encode_make {opc u : Nat} {row : Row} (h : rowOf opc = some row) (hu : row.family = none → u = 0)
    (a b c : Word) : encode (row.make u a b c) = cmdWord opc u :: [a, b, c].take row.operands := by
  obtain ⟨h1, rfl⟩ := rowOf_some h
  simp only [opcodeTable, globalRows, filterRows, oscillatorRows, delayRows, saturatorSmootherRows, List.cons_append,
    List.nil_append, List.mem_cons, List.not_mem_nil, or_false] at h1
  rcases h1 with h1 | h1 | h1 | h1 | h1 | h1 | h1 | h1 | h1 | h1 | h1 | h1 | h1 | h1 | h1 | h1 | h1 | h1 | h1 | h1 | h1 |
    h1 | h1 | h1 | h1 | h1 <;> subst h1 <;> simp_all [encode]

/-- The command word of the command that a row makes. -/
theorem commandWord_make {opc u : Nat} {row : Row} (h : rowOf opc = some row) (hu : row.family = none → u = 0)
    (a b c : Word) : (row.make u a b c).commandWord = cmdWord opc u := by
  rw [Instr.commandWord, encode_make h hu, List.headD_cons]

/-- The command that a decoded head makes has that head as its command word. -/
theorem commandWord_of_decodeHead {w : Word} {row : Row} {u : Nat} (h : decodeHead w = .ok (row, u)) (a b c : Word) :
    (row.make u a b c).commandWord = w := by
  obtain ⟨h1, -, -, h2, h3⟩ := decodeHead_ok h
  rw [commandWord_make h1 h2, ← h3]

/-! The byte view of the port (20_memory.md R63): going out and coming back in gives the words again. -/

/-- Picking lane `l` from a four-byte group gives the byte that the lane carries. -/
theorem getD_bytesOfWord (lanes : ByteLanes) (w : Word) (l : Fin 4) :
    (bytesOfWord lanes w).getD l.val 0 = laneByte lanes w l := by
  fin_cases l <;> rfl

/-- A word is its four bytes, the most significant first. -/
theorem append_bytes (w : Word) :
    w.extractLsb' 24 8 ++ w.extractLsb' 16 8 ++ w.extractLsb' 8 8 ++ w.extractLsb' 0 8 = w := by
  rw [BitVec.extractLsb'_append_extractLsb'_eq_extractLsb' (by rfl),
    BitVec.extractLsb'_append_extractLsb'_eq_extractLsb' (by rfl),
    BitVec.extractLsb'_append_extractLsb'_eq_extractLsb' (by rfl)]
  exact BitVec.extractLsb'_eq_self

/-- A word that leaves through a host bus comes back as it was, whatever the lanes. -/
theorem wordOfBytes_bytesOfWord {lanes : ByteLanes} (h : lanes.wf) (w : Word) :
    wordOfBytes lanes (laneByte lanes w 0) (laneByte lanes w 1) (laneByte lanes w 2) (laneByte lanes w 3) = w := by
  have hpick := getD_bytesOfWord lanes w
  simp only [bytesOfWord] at hpick
  simp only [List.nodup_cons, List.mem_cons, List.not_mem_nil, or_false, not_or] at h
  obtain ⟨⟨h01, h02, h03⟩, ⟨h12, h13⟩, h23, -⟩ := h
  simp only [wordOfBytes, hpick]
  rw [show laneByte lanes w lanes.lane0 = w.extractLsb' 0 8 from if_pos rfl,
    show laneByte lanes w lanes.lane1 = w.extractLsb' 8 8 by simp [laneByte, Ne.symm h01],
    show laneByte lanes w lanes.lane2 = w.extractLsb' 16 8 by simp [laneByte, Ne.symm h02, Ne.symm h12],
    show laneByte lanes w lanes.lane3 = w.extractLsb' 24 8 by simp [laneByte, Ne.symm h03, Ne.symm h13, Ne.symm h23]]
  exact append_bytes w

/-- Words that leave through a host bus come back as they were, whatever the lanes. -/
theorem wordsOfBytes_bytesOfWords {lanes : ByteLanes} (h : lanes.wf) (ws : List Word) :
    wordsOfBytes lanes (bytesOfWords lanes ws) = ws := by
  induction ws with
  | nil => rfl
  | cons w ws ih =>
    change wordOfBytes lanes _ _ _ _ :: wordsOfBytes lanes (bytesOfWords lanes ws) = w :: ws
    rw [wordOfBytes_bytesOfWord h, ih]

end Sys2Proof
end

