-- ==== Sys2Proof/Laws/State.lean ====
section
/-! SUPPORT. One lemma per field per update of the state record, so that no later proof unfolds an update. -/

namespace Sys2Proof.Machine

variable (s : State)

@[simp] theorem State.setFilter_act (u : Nat) (f : FilterRegs) : (s.setFilter u f).act = s.act := rfl
@[simp] theorem State.setFilter_faulted (u : Nat) (f : FilterRegs) : (s.setFilter u f).faulted = s.faulted := rfl
@[simp] theorem State.setFilter_cause (u : Nat) (f : FilterRegs) : (s.setFilter u f).cause = s.cause := rfl
@[simp] theorem State.setFilter_fcmd (u : Nat) (f : FilterRegs) : (s.setFilter u f).fcmd = s.fcmd := rfl
@[simp] theorem State.setFilter_filters (u : Nat) (f : FilterRegs) : (s.setFilter u f).filters = s.filters.set u f := rfl
@[simp] theorem State.setFilter_oscs (u : Nat) (f : FilterRegs) : (s.setFilter u f).oscs = s.oscs := rfl
@[simp] theorem State.setFilter_delays (u : Nat) (f : FilterRegs) : (s.setFilter u f).delays = s.delays := rfl
@[simp] theorem State.setFilter_smoothers (u : Nat) (f : FilterRegs) : (s.setFilter u f).smoothers = s.smoothers := rfl
@[simp] theorem State.setFilter_por (u : Nat) (f : FilterRegs) : (s.setFilter u f).por = s.por := rfl
@[simp] theorem State.setFilter_inbox (u : Nat) (f : FilterRegs) : (s.setFilter u f).inbox = s.inbox := rfl
@[simp] theorem State.setFilter_outbox (u : Nat) (f : FilterRegs) : (s.setFilter u f).outbox = s.outbox := rfl
@[simp] theorem State.setFilter_draws (u : Nat) (f : FilterRegs) : (s.setFilter u f).draws = s.draws := rfl

@[simp] theorem State.setOsc_act (u : Nat) (o : OscRegs) : (s.setOsc u o).act = s.act := rfl
@[simp] theorem State.setOsc_faulted (u : Nat) (o : OscRegs) : (s.setOsc u o).faulted = s.faulted := rfl
@[simp] theorem State.setOsc_cause (u : Nat) (o : OscRegs) : (s.setOsc u o).cause = s.cause := rfl
@[simp] theorem State.setOsc_fcmd (u : Nat) (o : OscRegs) : (s.setOsc u o).fcmd = s.fcmd := rfl
@[simp] theorem State.setOsc_filters (u : Nat) (o : OscRegs) : (s.setOsc u o).filters = s.filters := rfl
@[simp] theorem State.setOsc_oscs (u : Nat) (o : OscRegs) : (s.setOsc u o).oscs = s.oscs.set u o := rfl
@[simp] theorem State.setOsc_delays (u : Nat) (o : OscRegs) : (s.setOsc u o).delays = s.delays := rfl
@[simp] theorem State.setOsc_smoothers (u : Nat) (o : OscRegs) : (s.setOsc u o).smoothers = s.smoothers := rfl
@[simp] theorem State.setOsc_por (u : Nat) (o : OscRegs) : (s.setOsc u o).por = s.por := rfl
@[simp] theorem State.setOsc_inbox (u : Nat) (o : OscRegs) : (s.setOsc u o).inbox = s.inbox := rfl
@[simp] theorem State.setOsc_outbox (u : Nat) (o : OscRegs) : (s.setOsc u o).outbox = s.outbox := rfl
@[simp] theorem State.setOsc_draws (u : Nat) (o : OscRegs) : (s.setOsc u o).draws = s.draws := rfl

@[simp] theorem State.setDelay_act (u : Nat) (d : DelayLine) : (s.setDelay u d).act = s.act := rfl
@[simp] theorem State.setDelay_faulted (u : Nat) (d : DelayLine) : (s.setDelay u d).faulted = s.faulted := rfl
@[simp] theorem State.setDelay_cause (u : Nat) (d : DelayLine) : (s.setDelay u d).cause = s.cause := rfl
@[simp] theorem State.setDelay_fcmd (u : Nat) (d : DelayLine) : (s.setDelay u d).fcmd = s.fcmd := rfl
@[simp] theorem State.setDelay_filters (u : Nat) (d : DelayLine) : (s.setDelay u d).filters = s.filters := rfl
@[simp] theorem State.setDelay_oscs (u : Nat) (d : DelayLine) : (s.setDelay u d).oscs = s.oscs := rfl
@[simp] theorem State.setDelay_delays (u : Nat) (d : DelayLine) : (s.setDelay u d).delays = s.delays.set u d := rfl
@[simp] theorem State.setDelay_smoothers (u : Nat) (d : DelayLine) : (s.setDelay u d).smoothers = s.smoothers := rfl
@[simp] theorem State.setDelay_por (u : Nat) (d : DelayLine) : (s.setDelay u d).por = s.por := rfl
@[simp] theorem State.setDelay_inbox (u : Nat) (d : DelayLine) : (s.setDelay u d).inbox = s.inbox := rfl
@[simp] theorem State.setDelay_outbox (u : Nat) (d : DelayLine) : (s.setDelay u d).outbox = s.outbox := rfl
@[simp] theorem State.setDelay_draws (u : Nat) (d : DelayLine) : (s.setDelay u d).draws = s.draws := rfl

@[simp] theorem State.setSmoother_act (u : Nat) (r : SmootherRegs) : (s.setSmoother u r).act = s.act := rfl
@[simp] theorem State.setSmoother_faulted (u : Nat) (r : SmootherRegs) : (s.setSmoother u r).faulted = s.faulted := rfl
@[simp] theorem State.setSmoother_cause (u : Nat) (r : SmootherRegs) : (s.setSmoother u r).cause = s.cause := rfl
@[simp] theorem State.setSmoother_fcmd (u : Nat) (r : SmootherRegs) : (s.setSmoother u r).fcmd = s.fcmd := rfl
@[simp] theorem State.setSmoother_filters (u : Nat) (r : SmootherRegs) : (s.setSmoother u r).filters = s.filters := rfl
@[simp] theorem State.setSmoother_oscs (u : Nat) (r : SmootherRegs) : (s.setSmoother u r).oscs = s.oscs := rfl
@[simp] theorem State.setSmoother_delays (u : Nat) (r : SmootherRegs) : (s.setSmoother u r).delays = s.delays := rfl
@[simp] theorem State.setSmoother_smoothers (u : Nat) (r : SmootherRegs) : (s.setSmoother u r).smoothers = s.smoothers.set u r := rfl
@[simp] theorem State.setSmoother_por (u : Nat) (r : SmootherRegs) : (s.setSmoother u r).por = s.por := rfl
@[simp] theorem State.setSmoother_inbox (u : Nat) (r : SmootherRegs) : (s.setSmoother u r).inbox = s.inbox := rfl
@[simp] theorem State.setSmoother_outbox (u : Nat) (r : SmootherRegs) : (s.setSmoother u r).outbox = s.outbox := rfl
@[simp] theorem State.setSmoother_draws (u : Nat) (r : SmootherRegs) : (s.setSmoother u r).draws = s.draws := rfl

@[simp] theorem State.respond_act (res : List Word) : (s.respond res).act = s.act := rfl
@[simp] theorem State.respond_faulted (res : List Word) : (s.respond res).faulted = s.faulted := rfl
@[simp] theorem State.respond_cause (res : List Word) : (s.respond res).cause = s.cause := rfl
@[simp] theorem State.respond_fcmd (res : List Word) : (s.respond res).fcmd = s.fcmd := rfl
@[simp] theorem State.respond_filters (res : List Word) : (s.respond res).filters = s.filters := rfl
@[simp] theorem State.respond_oscs (res : List Word) : (s.respond res).oscs = s.oscs := rfl
@[simp] theorem State.respond_delays (res : List Word) : (s.respond res).delays = s.delays := rfl
@[simp] theorem State.respond_smoothers (res : List Word) : (s.respond res).smoothers = s.smoothers := rfl
@[simp] theorem State.respond_por (res : List Word) : (s.respond res).por = s.por := rfl
@[simp] theorem State.respond_inbox (res : List Word) : (s.respond res).inbox = s.inbox := rfl
@[simp] theorem State.respond_outbox (res : List Word) : (s.respond res).outbox = s.outbox ++ res := rfl
@[simp] theorem State.respond_draws (res : List Word) : (s.respond res).draws = s.draws := rfl

@[simp] theorem State.drawn_act : s.drawn.act = s.act := rfl
@[simp] theorem State.drawn_faulted : s.drawn.faulted = s.faulted := rfl
@[simp] theorem State.drawn_cause : s.drawn.cause = s.cause := rfl
@[simp] theorem State.drawn_fcmd : s.drawn.fcmd = s.fcmd := rfl
@[simp] theorem State.drawn_filters : s.drawn.filters = s.filters := rfl
@[simp] theorem State.drawn_oscs : s.drawn.oscs = s.oscs := rfl
@[simp] theorem State.drawn_delays : s.drawn.delays = s.delays := rfl
@[simp] theorem State.drawn_smoothers : s.drawn.smoothers = s.smoothers := rfl
@[simp] theorem State.drawn_por : s.drawn.por = s.por := rfl
@[simp] theorem State.drawn_inbox : s.drawn.inbox = s.inbox := rfl
@[simp] theorem State.drawn_outbox : s.drawn.outbox = s.outbox := rfl
@[simp] theorem State.drawn_draws : s.drawn.draws = s.draws + 1 := rfl

@[simp] theorem raiseFault_act (c : Cause) (cmd : Word) : (raiseFault c cmd s).act = s.act := rfl
@[simp] theorem raiseFault_faulted (c : Cause) (cmd : Word) : (raiseFault c cmd s).faulted = true := rfl
@[simp] theorem raiseFault_cause (c : Cause) (cmd : Word) : (raiseFault c cmd s).cause = c.code := rfl
@[simp] theorem raiseFault_fcmd (c : Cause) (cmd : Word) : (raiseFault c cmd s).fcmd = cmd := rfl
@[simp] theorem raiseFault_filters (c : Cause) (cmd : Word) : (raiseFault c cmd s).filters = s.filters := rfl
@[simp] theorem raiseFault_oscs (c : Cause) (cmd : Word) : (raiseFault c cmd s).oscs = s.oscs := rfl
@[simp] theorem raiseFault_delays (c : Cause) (cmd : Word) : (raiseFault c cmd s).delays = s.delays := rfl
@[simp] theorem raiseFault_smoothers (c : Cause) (cmd : Word) : (raiseFault c cmd s).smoothers = s.smoothers := rfl
@[simp] theorem raiseFault_por (c : Cause) (cmd : Word) : (raiseFault c cmd s).por = s.por := rfl
@[simp] theorem raiseFault_inbox (c : Cause) (cmd : Word) : (raiseFault c cmd s).inbox = s.inbox := rfl
@[simp] theorem raiseFault_outbox (c : Cause) (cmd : Word) : (raiseFault c cmd s).outbox = s.outbox := rfl
@[simp] theorem raiseFault_draws (c : Cause) (cmd : Word) : (raiseFault c cmd s).draws = s.draws := rfl

@[simp] theorem State.tookCommand_act (rest : List Word) : (s.tookCommand rest).act = s.act := rfl
@[simp] theorem State.tookCommand_faulted (rest : List Word) : (s.tookCommand rest).faulted = s.faulted := rfl
@[simp] theorem State.tookCommand_cause (rest : List Word) : (s.tookCommand rest).cause = s.cause := rfl
@[simp] theorem State.tookCommand_fcmd (rest : List Word) : (s.tookCommand rest).fcmd = s.fcmd := rfl
@[simp] theorem State.tookCommand_filters (rest : List Word) : (s.tookCommand rest).filters = s.filters := rfl
@[simp] theorem State.tookCommand_oscs (rest : List Word) : (s.tookCommand rest).oscs = s.oscs := rfl
@[simp] theorem State.tookCommand_delays (rest : List Word) : (s.tookCommand rest).delays = s.delays := rfl
@[simp] theorem State.tookCommand_smoothers (rest : List Word) : (s.tookCommand rest).smoothers = s.smoothers := rfl
@[simp] theorem State.tookCommand_por (rest : List Word) : (s.tookCommand rest).por = s.por := rfl
@[simp] theorem State.tookCommand_inbox (rest : List Word) : (s.tookCommand rest).inbox = rest := rfl
@[simp] theorem State.tookCommand_outbox (rest : List Word) : (s.tookCommand rest).outbox = s.outbox := rfl
@[simp] theorem State.tookCommand_draws (rest : List Word) : (s.tookCommand rest).draws = s.draws := rfl

@[simp] theorem State.tookOperands_act (rest : List Word) (k : Nat) : (s.tookOperands rest k).act = s.act := rfl
@[simp] theorem State.tookOperands_faulted (rest : List Word) (k : Nat) : (s.tookOperands rest k).faulted = s.faulted := rfl
@[simp] theorem State.tookOperands_cause (rest : List Word) (k : Nat) : (s.tookOperands rest k).cause = s.cause := rfl
@[simp] theorem State.tookOperands_fcmd (rest : List Word) (k : Nat) : (s.tookOperands rest k).fcmd = s.fcmd := rfl
@[simp] theorem State.tookOperands_filters (rest : List Word) (k : Nat) : (s.tookOperands rest k).filters = s.filters := rfl
@[simp] theorem State.tookOperands_oscs (rest : List Word) (k : Nat) : (s.tookOperands rest k).oscs = s.oscs := rfl
@[simp] theorem State.tookOperands_delays (rest : List Word) (k : Nat) : (s.tookOperands rest k).delays = s.delays := rfl
@[simp] theorem State.tookOperands_smoothers (rest : List Word) (k : Nat) : (s.tookOperands rest k).smoothers = s.smoothers := rfl
@[simp] theorem State.tookOperands_por (rest : List Word) (k : Nat) : (s.tookOperands rest k).por = s.por := rfl
@[simp] theorem State.tookOperands_inbox (rest : List Word) (k : Nat) : (s.tookOperands rest k).inbox = rest.drop k := rfl
@[simp] theorem State.tookOperands_outbox (rest : List Word) (k : Nat) : (s.tookOperands rest k).outbox = s.outbox := rfl
@[simp] theorem State.tookOperands_draws (rest : List Word) (k : Nat) : (s.tookOperands rest k).draws = s.draws := rfl

@[simp] theorem State.hostSend_act (ws : List Word) : (s.hostSend ws).act = s.act := rfl
@[simp] theorem State.hostSend_faulted (ws : List Word) : (s.hostSend ws).faulted = s.faulted := rfl
@[simp] theorem State.hostSend_cause (ws : List Word) : (s.hostSend ws).cause = s.cause := rfl
@[simp] theorem State.hostSend_fcmd (ws : List Word) : (s.hostSend ws).fcmd = s.fcmd := rfl
@[simp] theorem State.hostSend_filters (ws : List Word) : (s.hostSend ws).filters = s.filters := rfl
@[simp] theorem State.hostSend_oscs (ws : List Word) : (s.hostSend ws).oscs = s.oscs := rfl
@[simp] theorem State.hostSend_delays (ws : List Word) : (s.hostSend ws).delays = s.delays := rfl
@[simp] theorem State.hostSend_smoothers (ws : List Word) : (s.hostSend ws).smoothers = s.smoothers := rfl
@[simp] theorem State.hostSend_por (ws : List Word) : (s.hostSend ws).por = s.por := rfl
@[simp] theorem State.hostSend_inbox (ws : List Word) : (s.hostSend ws).inbox = s.inbox ++ ws := rfl
@[simp] theorem State.hostSend_outbox (ws : List Word) : (s.hostSend ws).outbox = s.outbox := rfl
@[simp] theorem State.hostSend_draws (ws : List Word) : (s.hostSend ws).draws = s.draws := rfl

@[simp] theorem State.hostReset_act : s.hostReset.act = s.act := rfl
@[simp] theorem State.hostReset_faulted : s.hostReset.faulted = s.faulted := rfl
@[simp] theorem State.hostReset_cause : s.hostReset.cause = s.cause := rfl
@[simp] theorem State.hostReset_fcmd : s.hostReset.fcmd = s.fcmd := rfl
@[simp] theorem State.hostReset_filters : s.hostReset.filters = s.filters := rfl
@[simp] theorem State.hostReset_oscs : s.hostReset.oscs = s.oscs := rfl
@[simp] theorem State.hostReset_delays : s.hostReset.delays = s.delays := rfl
@[simp] theorem State.hostReset_smoothers : s.hostReset.smoothers = s.smoothers := rfl
@[simp] theorem State.hostReset_por : s.hostReset.por = true := rfl
@[simp] theorem State.hostReset_inbox : s.hostReset.inbox = s.inbox := rfl
@[simp] theorem State.hostReset_outbox : s.hostReset.outbox = s.outbox := rfl
@[simp] theorem State.hostReset_draws : s.hostReset.draws = s.draws := rfl

@[simp] theorem State.powerOn_act : s.powerOn.act = false := rfl
@[simp] theorem State.powerOn_faulted : s.powerOn.faulted = false := rfl
@[simp] theorem State.powerOn_cause : s.powerOn.cause = 0#8 := rfl
@[simp] theorem State.powerOn_fcmd : s.powerOn.fcmd = 0#32 := rfl
@[simp] theorem State.powerOn_filters : s.powerOn.filters = List.replicate s.filters.length FilterRegs.reset := rfl
@[simp] theorem State.powerOn_oscs : s.powerOn.oscs = List.replicate s.oscs.length OscRegs.reset := rfl
@[simp] theorem State.powerOn_smoothers : s.powerOn.smoothers = List.replicate s.smoothers.length SmootherRegs.reset := rfl
@[simp] theorem State.powerOn_por : s.powerOn.por = false := rfl
@[simp] theorem State.powerOn_inbox : s.powerOn.inbox = s.inbox := rfl
@[simp] theorem State.powerOn_outbox : s.powerOn.outbox = s.outbox := rfl
@[simp] theorem State.powerOn_draws : s.powerOn.draws = s.draws := rfl
@[simp] theorem State.powerOn_delays :
    s.powerOn.delays = s.delays.map fun d => DelayLine.reset d.capLog2 := by
  simp [State.powerOn, State.resetWith, State.params, Function.comp_def]

@[simp] theorem State.setFilter_nan (u : Nat) (f : FilterRegs) : (s.setFilter u f).nan = s.nan := rfl
@[simp] theorem State.setFilter_count (u : Nat) (f : FilterRegs) : (s.setFilter u f).count = s.count := by
  funext x; cases x <;> simp [State.count]
@[simp] theorem State.setOsc_count (u : Nat) (o : OscRegs) : (s.setOsc u o).count = s.count := by
  funext x; cases x <;> simp [State.count]
@[simp] theorem State.setDelay_count (u : Nat) (d : DelayLine) : (s.setDelay u d).count = s.count := by
  funext x; cases x <;> simp [State.count]
@[simp] theorem State.setSmoother_count (u : Nat) (r : SmootherRegs) : (s.setSmoother u r).count = s.count := by
  funext x; cases x <;> simp [State.count]
@[simp] theorem State.respond_count (res : List Word) : (s.respond res).count = s.count := rfl
@[simp] theorem State.drawn_count : s.drawn.count = s.count := rfl
@[simp] theorem raiseFault_count (c : Cause) (cmd : Word) : (raiseFault c cmd s).count = s.count := rfl
@[simp] theorem State.tookCommand_count (rest : List Word) : (s.tookCommand rest).count = s.count := rfl
@[simp] theorem State.tookOperands_count (rest : List Word) (k : Nat) : (s.tookOperands rest k).count = s.count := rfl
@[simp] theorem State.hostSend_count (ws : List Word) : (s.hostSend ws).count = s.count := rfl

@[simp] theorem FilterRegs.process_c1 (A : Arith F32) (f : FilterRegs) (x : F32) : (f.process A x).c1 = f.c1 := rfl
@[simp] theorem FilterRegs.process_c2 (A : Arith F32) (f : FilterRegs) (x : F32) : (f.process A x).c2 = f.c2 := rfl
@[simp] theorem FilterRegs.process_d0 (A : Arith F32) (f : FilterRegs) (x : F32) : (f.process A x).d0 = f.d0 := rfl
@[simp] theorem FilterRegs.process_cv (A : Arith F32) (f : FilterRegs) (x : F32) : (f.process A x).cv = f.cv := rfl
@[simp] theorem FilterRegs.configure_z1 (f : FilterRegs) (c : F32 × F32 × F32) : (f.configure c).z1 = f.z1 := rfl
@[simp] theorem FilterRegs.configure_z2 (f : FilterRegs) (c : F32 × F32 × F32) : (f.configure c).z2 = f.z2 := rfl
@[simp] theorem FilterRegs.activate_c1 (f : FilterRegs) : f.activate.c1 = f.c1 := rfl
@[simp] theorem FilterRegs.activate_c2 (f : FilterRegs) : f.activate.c2 = f.c2 := rfl
@[simp] theorem FilterRegs.activate_d0 (f : FilterRegs) : f.activate.d0 = f.d0 := rfl
@[simp] theorem FilterRegs.activate_cv (f : FilterRegs) : f.activate.cv = f.cv := rfl
@[simp] theorem OscRegs.advance_incf (nan : Nat → F32) (o : OscRegs) : (o.advance nan).incf = o.incf := rfl
@[simp] theorem OscRegs.advance_incs (nan : Nat → F32) (o : OscRegs) : (o.advance nan).incs = o.incs := rfl
@[simp] theorem OscRegs.advance_vf (nan : Nat → F32) (o : OscRegs) : (o.advance nan).vf = o.vf := rfl
@[simp] theorem OscRegs.advance_vs (nan : Nat → F32) (o : OscRegs) : (o.advance nan).vs = o.vs := rfl
@[simp] theorem OscRegs.activate_incf (o : OscRegs) : o.activate.incf = o.incf := rfl
@[simp] theorem OscRegs.activate_incs (o : OscRegs) : o.activate.incs = o.incs := rfl
@[simp] theorem OscRegs.activate_vf (o : OscRegs) : o.activate.vf = o.vf := rfl
@[simp] theorem OscRegs.activate_vs (o : OscRegs) : o.activate.vs = o.vs := rfl
@[simp] theorem DelayLine.activate_capLog2 (d : DelayLine) : d.activate.capLog2 = d.capLog2 := rfl
@[simp] theorem DelayLine.push_capLog2 (d : DelayLine) (x : F32) : (d.push x).capLog2 = d.capLog2 := rfl
@[simp] theorem DelayLine.ringWrite_capLog2 (d : DelayLine) (i v : Word) : (d.ringWrite i v).capLog2 = d.capLog2 := rfl
@[simp] theorem DelayLine.ringWrite_wi (d : DelayLine) (i v : Word) : (d.ringWrite i v).wi = d.wi := rfl

@[simp] theorem FilterRegs.configure_cv (f : FilterRegs) (c : F32 × F32 × F32) : (f.configure c).cv = true := rfl
@[simp] theorem FilterRegs.configure_c1 (f : FilterRegs) (c : F32 × F32 × F32) : (f.configure c).c1 = c.1 := rfl
@[simp] theorem FilterRegs.configure_c2 (f : FilterRegs) (c : F32 × F32 × F32) : (f.configure c).c2 = c.2.1 := rfl
@[simp] theorem FilterRegs.configure_d0 (f : FilterRegs) (c : F32 × F32 × F32) : (f.configure c).d0 = c.2.2 := rfl
@[simp] theorem FilterRegs.activate_z1 (f : FilterRegs) : f.activate.z1 = 0#32 := rfl
@[simp] theorem FilterRegs.activate_z2 (f : FilterRegs) : f.activate.z2 = 0#32 := rfl
@[simp] theorem OscRegs.activate_pf (o : OscRegs) : o.activate.pf = 0#32 := rfl
@[simp] theorem OscRegs.activate_ps (o : OscRegs) : o.activate.ps = 0#32 := rfl
@[simp] theorem DelayLine.activate_ring (d : DelayLine) : d.activate.ring = [] := rfl
@[simp] theorem DelayLine.activate_wi (d : DelayLine) : d.activate.wi = 0#32 := rfl
@[simp] theorem DelayLine.push_wi (d : DelayLine) (x : F32) : (d.push x).wi = (d.wi + 1) &&& d.mask := rfl
@[simp] theorem DelayLine.push_ring (d : DelayLine) (x : F32) : (d.push x).ring = d.ring.write (d.slot d.wi) x := rfl
@[simp] theorem DelayLine.push_mask (d : DelayLine) (x : F32) : (d.push x).mask = d.mask := rfl
@[simp] theorem DelayLine.push_cap (d : DelayLine) (x : F32) : (d.push x).cap = d.cap := rfl
@[simp] theorem DelayLine.push_slot (d : DelayLine) (x : F32) (i : Word) : (d.push x).slot i = d.slot i := rfl

end Sys2Proof.Machine
end

