-- ==== Sys2Proof/Laws/Memory.lean ====
section
/-! SUPPORT. The laws of a ring's memory and of masking: a read after a write, the canonical form kept, every index on a
slot of the ring. -/

namespace Sys2Proof.Machine

@[simp] theorem Memory.read_nil (a : Nat) : Memory.read [] a = 0#32 := rfl

/-- A slot below every listed index reads as +0.0. -/
theorem Memory.read_of_lt {m : Memory} {a : Nat} (h : ∀ e ∈ m, a < e.1) : m.read a = 0#32 := by
  induction m with
  | nil => rfl
  | cons e m ih =>
    have hne : e.1 ≠ a := by have := h e (by simp); omega
    simp [Memory.read, hne, ih fun e' he' => h e' (by simp [he'])]

/-- Every index a write leaves listed was listed or is the one written. -/
theorem Memory.mem_write {m : Memory} {a : Nat} {v : Word} {e : Nat × Word} (h : e ∈ m.write a v) :
    e ∈ m ∨ (e = (a, v) ∧ v ≠ 0#32) := by
  induction m with
  | nil => by_cases hv : v = 0#32 <;> simp_all [Memory.write]
  | cons b m ih =>
    obtain ⟨b, w⟩ := b
    simp only [Memory.write] at h
    split_ifs at h <;> simp_all <;> tauto

/-- A write keeps the canonical form. -/
theorem Memory.wf_write {m : Memory} (h : m.wf) (a : Nat) (v : Word) : (m.write a v).wf := by
  induction m with
  | nil => by_cases hv : v = 0#32 <;> simp_all [Memory.write, Memory.wf]
  | cons b m ih =>
    obtain ⟨b, w⟩ := b
    obtain ⟨hp, hz⟩ := h
    rw [List.pairwise_cons] at hp
    have hm : Memory.wf m := ⟨hp.2, fun e he => hz e (by simp [he])⟩
    have hw : w ≠ 0#32 := hz (b, w) (by simp)
    simp only [Memory.write]
    split_ifs with h1 h2 h3 h4
    · exact ⟨List.pairwise_cons.mpr hp, hz⟩
    · refine ⟨List.pairwise_cons.mpr ⟨?_, List.pairwise_cons.mpr hp⟩, ?_⟩
      · intro e he
        rcases List.mem_cons.mp he with rfl | he
        · exact h1
        · exact Nat.lt_trans h1 (hp.1 e he)
      · intro e he
        rcases List.mem_cons.mp he with rfl | he
        · exact h2
        · exact hz e he
    · exact hm
    · subst h3
      refine ⟨List.pairwise_cons.mpr ⟨hp.1, hp.2⟩, ?_⟩
      intro e he
      rcases List.mem_cons.mp he with rfl | he
      · exact h4
      · exact hm.2 e he
    · refine ⟨List.pairwise_cons.mpr ⟨?_, (ih hm).1⟩, ?_⟩
      · intro e he
        rcases Memory.mem_write he with he | ⟨rfl, -⟩
        · exact hp.1 e he
        · show b < a
          omega
      · intro e he
        rcases List.mem_cons.mp he with rfl | he
        · exact hw
        · exact (ih hm).2 e he

/-- A read after a write: the slot written gives the value written, every other slot what it gave. -/
theorem Memory.read_write {m : Memory} (h : m.wf) (a b : Nat) (v : Word) :
    (m.write a v).read b = if b = a then v else m.read b := by
  induction m with
  | nil =>
    by_cases hv : v = 0#32
    · subst hv
      simp [Memory.write]
    · by_cases hb : b = a
      · subst hb
        simp [Memory.write, hv, Memory.read]
      · simp [Memory.write, hv, Memory.read, hb, Ne.symm hb]
  | cons c m ih =>
    obtain ⟨c, w⟩ := c
    obtain ⟨hp, hz⟩ := h
    rw [List.pairwise_cons] at hp
    have hm : Memory.wf m := ⟨hp.2, fun e he => hz e (by simp [he])⟩
    have below (x : Nat) (hx : x ≤ c) : Memory.read m x = 0#32 :=
      Memory.read_of_lt fun e he => Nat.lt_of_le_of_lt hx (hp.1 e he)
    simp only [Memory.write]
    by_cases h1 : a < c
    · rw [if_pos h1]
      by_cases hb : b = a
      · subst hb
        by_cases hv : v = 0#32 <;> simp [hv, Memory.read, Nat.ne_of_gt h1, below b (Nat.le_of_lt h1)]
      · by_cases hv : v = 0#32 <;> simp [hv, Memory.read, hb, Ne.symm hb]
    · rw [if_neg h1]
      by_cases h2 : a = c
      · rw [if_pos h2]
        subst h2
        by_cases hb : b = a
        · subst hb
          by_cases hv : v = 0#32 <;> simp [hv, Memory.read, below b (Nat.le_refl b)]
        · by_cases hv : v = 0#32 <;> simp [hv, Memory.read, hb, Ne.symm hb]
      · rw [if_neg h2]
        by_cases hc : c = b
        · subst hc
          simp [Memory.read, Ne.symm h2]
        · simp [Memory.read, hc, ih hm]

/-- Two canonical memories that read alike everywhere are equal. -/
theorem Memory.ext_read {m n : Memory} (hm : m.wf) (hn : n.wf) (h : ∀ a, m.read a = n.read a) : m = n := by
  induction m generalizing n with
  | nil =>
    cases n with
    | nil => rfl
    | cons e n =>
      have := h e.1
      simp [Memory.read] at this
      exact absurd this.symm (hn.2 e (by simp))
  | cons e m ih =>
    cases n with
    | nil =>
      have := h e.1
      simp [Memory.read] at this
      exact absurd this (hm.2 e (by simp))
    | cons f n =>
      obtain ⟨a, v⟩ := e
      obtain ⟨b, w⟩ := f
      have hm' := List.pairwise_cons.mp hm.1
      have hn' := List.pairwise_cons.mp hn.1
      have hv : v ≠ 0#32 := hm.2 (a, v) (by simp)
      have hw : w ≠ 0#32 := hn.2 (b, w) (by simp)
      have lowm (x : Nat) (hx : x ≤ a) : Memory.read m x = 0#32 :=
        Memory.read_of_lt fun e he => Nat.lt_of_le_of_lt hx (hm'.1 e he)
      have lown (x : Nat) (hx : x ≤ b) : Memory.read n x = 0#32 :=
        Memory.read_of_lt fun e he => Nat.lt_of_le_of_lt hx (hn'.1 e he)
      have hab : a = b := by
        rcases Nat.lt_trichotomy a b with hlt | heq | hgt
        · have := h a
          simp [Memory.read, Nat.ne_of_gt hlt, lown a (Nat.le_of_lt hlt)] at this
          exact absurd this hv
        · exact heq
        · have := h b
          simp [Memory.read, Nat.ne_of_gt hgt, lowm b (Nat.le_of_lt hgt)] at this
          exact absurd this.symm hw
      subst hab
      have hvw : v = w := by simpa [Memory.read] using h a
      subst hvw
      congr 1
      refine ih ⟨hm'.2, fun e he => hm.2 e (by simp [he])⟩ ⟨hn'.2, fun e he => hn.2 e (by simp [he])⟩ fun x => ?_
      have := h x
      by_cases hx : a = x
      · subst hx
        rw [lowm a (Nat.le_refl a), lown a (Nat.le_refl a)]
      · simpa [Memory.read, hx] using this

/-- Masking with `CAP - 1` is reduction modulo `CAP` (00_scope.md R14). -/
theorem DelayLine.slot_eq_mod {d : DelayLine} (h : d.capLog2 ≤ 31) (i : Word) : d.slot i = i.toNat % d.cap := by
  have hlt : (2 : Nat) ^ d.capLog2 - 1 < 2 ^ 32 :=
    Nat.lt_of_le_of_lt (Nat.sub_le _ _) (Nat.pow_lt_pow_right (by decide) (by omega))
  rw [DelayLine.slot, DelayLine.mask, DelayLine.cap, BitVec.toNat_and, BitVec.toNat_ofNat, Nat.mod_eq_of_lt hlt,
    Nat.and_two_pow_sub_one_eq_mod]

theorem DelayLine.cap_pos (d : DelayLine) : 0 < d.cap := Nat.two_pow_pos _

/-- Every index lands on a slot of the ring (20_memory.md R64, R65). -/
theorem DelayLine.slot_lt {d : DelayLine} (h : d.capLog2 ≤ 31) (i : Word) : d.slot i < d.cap := by
  rw [d.slot_eq_mod h]
  exact Nat.mod_lt _ d.cap_pos

/-- The next write index, as a number (43_delay.md R160). -/
theorem DelayLine.push_wi_toNat {d : DelayLine} (h : d.capLog2 ≤ 31) (x : F32) :
    (d.push x).wi.toNat = (d.wi.toNat + 1) % d.cap := by
  have key := d.slot_eq_mod h (d.wi + 1)
  have hdvd : d.cap ∣ 2 ^ 32 := Nat.pow_dvd_pow 2 (by omega)
  have : (d.push x).wi.toNat = d.slot (d.wi + 1) := rfl
  rw [this, key, BitVec.toNat_add, Nat.mod_mod_of_dvd _ hdvd]
  rfl

/-- A write keeps a delay line legal. -/
theorem DelayLine.wf_push {d : DelayLine} (h : d.wf) (x : F32) : (d.push x).wf := by
  obtain ⟨h1, h31, hwi, hring, hcap⟩ := h
  refine ⟨h1, h31, ?_, Memory.wf_write hring _ _, ?_⟩
  · rw [DelayLine.push_wi_toNat h31]
    exact Nat.mod_lt _ d.cap_pos
  · intro e he
    rcases Memory.mem_write he with he | ⟨rfl, -⟩
    · exact hcap e he
    · exact d.slot_lt h31 _

/-- Activation leaves a delay line legal. -/
theorem DelayLine.wf_activate {d : DelayLine} (h : d.wf) : d.activate.wf :=
  ⟨h.1, h.2.1, d.cap_pos, by simp [Memory.wf], by simp⟩

/-- A delay line after power-on reset is legal. -/
theorem DelayLine.wf_reset {k : Nat} (h1 : 1 ≤ k) (h31 : k ≤ 31) : (DelayLine.reset k).wf :=
  ⟨h1, h31, Nat.two_pow_pos _, by simp [DelayLine.reset, Memory.wf], by simp [DelayLine.reset]⟩

end Sys2Proof.Machine
end

