-- ==== Sys2Proof/Laws/Ops.lean ====
section
/-! SUPPORT. What each shared operation of the meanings can do, said once: ending a command, finding a unit, the checks. -/

namespace Sys2Proof.Machine

variable {i : Instr} {s t : State} {r : Attempt} {c : Cause} {u : Nat}

theorem issue_faulted (h : s.faulted = true) : issue i s r = .next s := by
  simp [issue, h]

theorem issue_ok (h : s.faulted = false) : issue i s (.ok t) = .next t := by
  simp [issue, h]

theorem issue_error (h : s.faulted = false) : issue i s (.error c) = .next (raiseFault c i.commandWord s) := by
  simp [issue, h]

/-- All that ending a command can do: drop it in the Faulted state, complete it, or enter the fault of the first check
that failed. -/
theorem issue_cases (h : issue i s r = .next t) :
    (s.faulted = true ∧ t = s) ∨ (s.faulted = false ∧ r = .ok t) ∨
    (s.faulted = false ∧ ∃ c, r = .error c ∧ t = raiseFault c i.commandWord s) := by
  cases hf : s.faulted with
  | true => exact .inl ⟨rfl, by simpa [issue, hf] using h.symm⟩
  | false =>
    cases r with
    | ok t' => exact .inr (.inl ⟨rfl, by simpa [issue, hf] using h⟩)
    | error c => exact .inr (.inr ⟨rfl, c, rfl, by simpa [issue, hf] using h.symm⟩)

/-- Ending a command always answers a next state. -/
theorem issue_next : ∃ t, issue i s r = .next t := by
  cases hf : s.faulted with
  | true => exact ⟨s, issue_faulted hf⟩
  | false =>
    cases r with
    | ok t => exact ⟨t, issue_ok hf⟩
    | error c => exact ⟨_, issue_error hf⟩

theorem onFilter_some {k : FilterRegs → Attempt} {f : FilterRegs} (h : s.filters[u]? = some f) :
    onFilter s u k = k f := by
  simp [onFilter, h]

theorem onFilter_none {k : FilterRegs → Attempt} (h : s.filters[u]? = none) : onFilter s u k = .error .badUnit := by
  simp only [onFilter, h]

theorem onFilter_ok {k : FilterRegs → Attempt} (h : onFilter s u k = .ok t) :
    ∃ f, s.filters[u]? = some f ∧ k f = .ok t := by
  cases hf : s.filters[u]? with
  | none => simp [onFilter_none hf] at h
  | some f => exact ⟨f, rfl, by rwa [onFilter_some hf] at h⟩

theorem onOsc_some {k : OscRegs → Attempt} {o : OscRegs} (h : s.oscs[u]? = some o) : onOsc s u k = k o := by
  simp [onOsc, h]

theorem onOsc_none {k : OscRegs → Attempt} (h : s.oscs[u]? = none) : onOsc s u k = .error .badUnit := by
  simp only [onOsc, h]

theorem onOsc_ok {k : OscRegs → Attempt} (h : onOsc s u k = .ok t) : ∃ o, s.oscs[u]? = some o ∧ k o = .ok t := by
  cases ho : s.oscs[u]? with
  | none => simp [onOsc_none ho] at h
  | some o => exact ⟨o, rfl, by rwa [onOsc_some ho] at h⟩

theorem onDelay_some {k : DelayLine → Attempt} {d : DelayLine} (h : s.delays[u]? = some d) : onDelay s u k = k d := by
  simp [onDelay, h]

theorem onDelay_none {k : DelayLine → Attempt} (h : s.delays[u]? = none) : onDelay s u k = .error .badUnit := by
  simp only [onDelay, h]

theorem onDelay_ok {k : DelayLine → Attempt} (h : onDelay s u k = .ok t) :
    ∃ d, s.delays[u]? = some d ∧ k d = .ok t := by
  cases hd : s.delays[u]? with
  | none => simp [onDelay_none hd] at h
  | some d => exact ⟨d, rfl, by rwa [onDelay_some hd] at h⟩

theorem onSmoother_some {k : SmootherRegs → Attempt} {y : SmootherRegs} (h : s.smoothers[u]? = some y) :
    onSmoother s u k = k y := by
  simp [onSmoother, h]

theorem onSmoother_none {k : SmootherRegs → Attempt} (h : s.smoothers[u]? = none) :
    onSmoother s u k = .error .badUnit := by
  simp only [onSmoother, h]

theorem onSmoother_ok {k : SmootherRegs → Attempt} (h : onSmoother s u k = .ok t) :
    ∃ y, s.smoothers[u]? = some y ∧ k y = .ok t := by
  cases hy : s.smoothers[u]? with
  | none => simp [onSmoother_none hy] at h
  | some y => exact ⟨y, rfl, by rwa [onSmoother_some hy] at h⟩

theorem needActive_on (h : s.act = true) : needActive s r = r := by
  simp [needActive, h]

theorem needActive_off (h : s.act = false) : needActive s r = .error .notActive := by
  simp [needActive, h]

theorem needActive_ok (h : needActive s r = .ok t) : s.act = true ∧ r = .ok t := by
  cases ha : s.act with
  | true => exact ⟨rfl, by rwa [needActive_on ha] at h⟩
  | false => simp [needActive_off ha] at h

@[simp] theorem needConfigured_true : needConfigured true r = r := rfl

@[simp] theorem needConfigured_false : needConfigured false r = .error .unconfigured := rfl

theorem needConfigured_ok {b : Bool} (h : needConfigured b r = .ok t) : b = true ∧ r = .ok t := by
  cases b with
  | true => exact ⟨rfl, h⟩
  | false => cases h

theorem needFinite_ok {d : F32} (h : needFinite d r = .ok t) : F32.isFinite d = true ∧ r = .ok t := by
  cases hd : F32.isFinite d with
  | true => exact ⟨rfl, by simpa [needFinite, hd] using h⟩
  | false => simp [needFinite, hd] at h

/-- No command writes a reading back of a slot elsewhere: writing delay line `u` leaves every other line's slots. -/
theorem slotAt_setDelay_of_ne {d : DelayLine} {v j : Nat} (h : u ≠ v) : slotAt (s.setDelay u d) v j = slotAt s v j := by
  simp [slotAt, List.getElem?_set_ne h]

/-- The slots of the delay line that was written. -/
theorem slotAt_setDelay {d : DelayLine} {j : Nat} (h : u < s.delays.length) :
    slotAt (s.setDelay u d) u j = some (d.ring.read j) := by
  simp [slotAt, h]

/-- The code of a cause is one of 1..5 (60_exceptions.md R200). -/
theorem Cause.code_range (c : Cause) : 1 ≤ c.code.toNat ∧ c.code.toNat ≤ 5 := by
  cases c <;> decide

end Sys2Proof.Machine
end

