-- ==== Sys2Proof/Laws/Exec.lean ====
section
/-! SUPPORT. Everything a command can do, said once: it is dropped, or it enters the fault of its first failed check, or
it has its effect. -/

namespace Sys2Proof.Machine

/-- The state a command leaves when it runs. -/
def effect (i : Instr) (s : State) : State :=
  let f (u : Nat) : FilterRegs := s.filters[u]?.getD FilterRegs.reset
  let o (u : Nat) : OscRegs := s.oscs[u]?.getD OscRegs.reset
  let d (u : Nat) : DelayLine := s.delays[u]?.getD (DelayLine.reset 1)
  let r (u : Nat) : SmootherRegs := s.smoothers[u]?.getD SmootherRegs.reset
  match i with
  | .act =>
    { s with filters := s.filters.map FilterRegs.activate, oscs := s.oscs.map OscRegs.activate
             delays := s.delays.map DelayLine.activate, act := true }
  | .statRd => s.respond [statusWord s]
  | .fcmdRd => s.respond [s.fcmd]
  | .filtCfg u a b c => (s.setFilter u ((f u).configure (filterCoefficients s.arith a b c))).drawn
  | .filtProc u x => ((s.setFilter u ((f u).process s.arith x)).respond [(f u).output s.arith x]).drawn
  | .filtRdz1 u => s.respond [(f u).z1]
  | .filtRdz2 u => s.respond [(f u).z2]
  | .filtRdc1 u => s.respond [(f u).c1]
  | .filtRdc2 u => s.respond [(f u).c2]
  | .filtRdd0 u => s.respond [(f u).d0]
  | .oscSetf u x => s.setOsc u { o u with incf := x, vf := true }
  | .oscSets u x => s.setOsc u { o u with incs := x, vs := true }
  | .oscStep u => ((s.setOsc u ((o u).advance s.nan)).respond [((o u).advance s.nan).pf, ((o u).advance s.nan).ps]).drawn
  | .oscTap u x a b => (s.respond [modulation s.arith (o u).pf (o u).ps x a b]).drawn
  | .oscRdpf u => s.respond [(o u).pf]
  | .oscRdps u => s.respond [(o u).ps]
  | .oscRdif u => s.respond [(o u).incf]
  | .oscRdis u => s.respond [(o u).incs]
  | .dlWr u x => s.setDelay u ((d u).push x)
  | .dlRd u x => (s.respond [(d u).readFractional s.nan x]).drawn
  | .dlRdwi u => s.respond [(d u).wi]
  | .dlPeek u k => s.respond [(d u).ringRead k]
  | .sat z => (s.respond [saturate s.arith z]).drawn
  | .smLoad u x => s.setSmoother u { y := x, vy := true }
  | .smStep u x =>
    ((s.setSmoother u { r u with y := smoothed s.arith (r u).y x }).respond [smoothed s.arith (r u).y x]).drawn
  | .smRd u => s.respond [(r u).y]

theorem lt_length_of_getElem? {α : Type} {l : List α} {u : Nat} {a : α} (h : l[u]? = some a) : u < l.length :=
  (List.getElem?_eq_some_iff.mp h).1

/-- A command is dropped in the Faulted state, STAT.RD and FCMD.RD apart; else it enters the fault of its first failed
check; else it has its effect. -/
theorem exec_eq (i : Instr) (s : State) :
    exec i s = if s.faulted && !runsFaulted i then .next s else
      match firstFault i s with
      | some c => .next (raiseFault c i.commandWord s)
      | none => .next (effect i s) := by
  cases i with
  | act => cases h : s.faulted <;>
      simp [exec, execAct, issue, firstFault, unitExists, family?, needsAct, configuredOk, delayOk, runsFaulted, effect, h]
  | statRd =>
    simp [exec, execStatRd, firstFault, unitExists, family?, needsAct, configuredOk, delayOk, runsFaulted, effect]
  | fcmdRd =>
    simp [exec, execFcmdRd, firstFault, unitExists, family?, needsAct, configuredOk, delayOk, runsFaulted, effect]
  | sat z => cases h : s.faulted <;>
      simp [exec, execSat, issue, firstFault, unitExists, family?, needsAct, configuredOk, delayOk, runsFaulted, effect, h]
  | filtCfg u a b c =>
    rcases h : s.filters[u]? with _ | r
    · have hd : unitExists (.filtCfg u a b c) s = false := decide_eq_false (Nat.not_lt.mpr (List.getElem?_eq_none_iff.mp h))
      cases hf : s.faulted <;> simp [exec, execFiltCfg, issue, onFilter, firstFault, runsFaulted, h, hf, hd]
    · have hd : unitExists (.filtCfg u a b c) s = true := decide_eq_true (lt_length_of_getElem? h)
      cases hf : s.faulted <;> simp [exec, execFiltCfg, issue, onFilter, firstFault, needsAct, configuredOk,
        delayOk, runsFaulted, effect, h, hf, hd]
  | filtProc u x =>
    rcases h : s.filters[u]? with _ | r
    · have hd : unitExists (.filtProc u x) s = false := decide_eq_false (Nat.not_lt.mpr (List.getElem?_eq_none_iff.mp h))
      cases hf : s.faulted <;> simp [exec, execFiltProc, issue, onFilter, firstFault, runsFaulted, h, hf, hd]
    · have hd : unitExists (.filtProc u x) s = true := decide_eq_true (lt_length_of_getElem? h)
      cases hf : s.faulted <;> simp [exec, execFiltProc, issue, onFilter, needActive, needConfigured,
        firstFault, needsAct, configuredOk, delayOk, runsFaulted, effect, h, hf, hd]
      all_goals split_ifs <;> simp_all
  | filtRdz1 u =>
    rcases h : s.filters[u]? with _ | r
    · have hd : unitExists (.filtRdz1 u) s = false := decide_eq_false (Nat.not_lt.mpr (List.getElem?_eq_none_iff.mp h))
      cases hf : s.faulted <;> simp [exec, execFiltRdz1, issue, onFilter, firstFault, runsFaulted, h, hf, hd]
    · have hd : unitExists (.filtRdz1 u) s = true := decide_eq_true (lt_length_of_getElem? h)
      cases hf : s.faulted <;> simp [exec, execFiltRdz1, issue, onFilter, needActive, firstFault, needsAct,
        configuredOk, delayOk, runsFaulted, effect, h, hf, hd]
      all_goals split_ifs <;> simp_all
  | filtRdz2 u =>
    rcases h : s.filters[u]? with _ | r
    · have hd : unitExists (.filtRdz2 u) s = false := decide_eq_false (Nat.not_lt.mpr (List.getElem?_eq_none_iff.mp h))
      cases hf : s.faulted <;> simp [exec, execFiltRdz2, issue, onFilter, firstFault, runsFaulted, h, hf, hd]
    · have hd : unitExists (.filtRdz2 u) s = true := decide_eq_true (lt_length_of_getElem? h)
      cases hf : s.faulted <;> simp [exec, execFiltRdz2, issue, onFilter, needActive, firstFault, needsAct,
        configuredOk, delayOk, runsFaulted, effect, h, hf, hd]
      all_goals split_ifs <;> simp_all
  | filtRdc1 u =>
    rcases h : s.filters[u]? with _ | r
    · have hd : unitExists (.filtRdc1 u) s = false := decide_eq_false (Nat.not_lt.mpr (List.getElem?_eq_none_iff.mp h))
      cases hf : s.faulted <;> simp [exec, execFiltRdc1, issue, onFilter, firstFault, runsFaulted, h, hf, hd]
    · have hd : unitExists (.filtRdc1 u) s = true := decide_eq_true (lt_length_of_getElem? h)
      cases hf : s.faulted <;> simp [exec, execFiltRdc1, issue, onFilter, needConfigured, firstFault, needsAct,
        configuredOk, delayOk, runsFaulted, effect, h, hf, hd]
      all_goals split_ifs <;> simp_all
  | filtRdc2 u =>
    rcases h : s.filters[u]? with _ | r
    · have hd : unitExists (.filtRdc2 u) s = false := decide_eq_false (Nat.not_lt.mpr (List.getElem?_eq_none_iff.mp h))
      cases hf : s.faulted <;> simp [exec, execFiltRdc2, issue, onFilter, firstFault, runsFaulted, h, hf, hd]
    · have hd : unitExists (.filtRdc2 u) s = true := decide_eq_true (lt_length_of_getElem? h)
      cases hf : s.faulted <;> simp [exec, execFiltRdc2, issue, onFilter, needConfigured, firstFault, needsAct,
        configuredOk, delayOk, runsFaulted, effect, h, hf, hd]
      all_goals split_ifs <;> simp_all
  | filtRdd0 u =>
    rcases h : s.filters[u]? with _ | r
    · have hd : unitExists (.filtRdd0 u) s = false := decide_eq_false (Nat.not_lt.mpr (List.getElem?_eq_none_iff.mp h))
      cases hf : s.faulted <;> simp [exec, execFiltRdd0, issue, onFilter, firstFault, runsFaulted, h, hf, hd]
    · have hd : unitExists (.filtRdd0 u) s = true := decide_eq_true (lt_length_of_getElem? h)
      cases hf : s.faulted <;> simp [exec, execFiltRdd0, issue, onFilter, needConfigured, firstFault, needsAct,
        configuredOk, delayOk, runsFaulted, effect, h, hf, hd]
      all_goals split_ifs <;> simp_all
  | oscSetf u x =>
    rcases h : s.oscs[u]? with _ | r
    · have hd : unitExists (.oscSetf u x) s = false := decide_eq_false (Nat.not_lt.mpr (List.getElem?_eq_none_iff.mp h))
      cases hf : s.faulted <;> simp [exec, execOscSetf, issue, onOsc, firstFault, runsFaulted, h, hf, hd]
    · have hd : unitExists (.oscSetf u x) s = true := decide_eq_true (lt_length_of_getElem? h)
      cases hf : s.faulted <;> simp [exec, execOscSetf, issue, onOsc, firstFault, needsAct, configuredOk,
        delayOk, runsFaulted, effect, h, hf, hd]
  | oscSets u x =>
    rcases h : s.oscs[u]? with _ | r
    · have hd : unitExists (.oscSets u x) s = false := decide_eq_false (Nat.not_lt.mpr (List.getElem?_eq_none_iff.mp h))
      cases hf : s.faulted <;> simp [exec, execOscSets, issue, onOsc, firstFault, runsFaulted, h, hf, hd]
    · have hd : unitExists (.oscSets u x) s = true := decide_eq_true (lt_length_of_getElem? h)
      cases hf : s.faulted <;> simp [exec, execOscSets, issue, onOsc, firstFault, needsAct, configuredOk,
        delayOk, runsFaulted, effect, h, hf, hd]
  | oscStep u =>
    rcases h : s.oscs[u]? with _ | r
    · have hd : unitExists (.oscStep u) s = false := decide_eq_false (Nat.not_lt.mpr (List.getElem?_eq_none_iff.mp h))
      cases hf : s.faulted <;> simp [exec, execOscStep, issue, onOsc, firstFault, runsFaulted, h, hf, hd]
    · have hd : unitExists (.oscStep u) s = true := decide_eq_true (lt_length_of_getElem? h)
      cases hf : s.faulted <;> simp [exec, execOscStep, issue, onOsc, needActive, needConfigured, firstFault,
        needsAct, configuredOk, delayOk, runsFaulted, effect, h, hf, hd]
      all_goals split_ifs <;> simp_all
  | oscTap u x a b =>
    rcases h : s.oscs[u]? with _ | r
    · have hd : unitExists (.oscTap u x a b) s = false := decide_eq_false (Nat.not_lt.mpr (List.getElem?_eq_none_iff.mp h))
      cases hf : s.faulted <;> simp [exec, execOscTap, issue, onOsc, firstFault, runsFaulted, h, hf, hd]
    · have hd : unitExists (.oscTap u x a b) s = true := decide_eq_true (lt_length_of_getElem? h)
      cases hf : s.faulted <;> simp [exec, execOscTap, issue, onOsc, needActive, firstFault, needsAct,
        configuredOk, delayOk, runsFaulted, effect, h, hf, hd]
      all_goals split_ifs <;> simp_all
  | oscRdpf u =>
    rcases h : s.oscs[u]? with _ | r
    · have hd : unitExists (.oscRdpf u) s = false := decide_eq_false (Nat.not_lt.mpr (List.getElem?_eq_none_iff.mp h))
      cases hf : s.faulted <;> simp [exec, execOscRdpf, issue, onOsc, firstFault, runsFaulted, h, hf, hd]
    · have hd : unitExists (.oscRdpf u) s = true := decide_eq_true (lt_length_of_getElem? h)
      cases hf : s.faulted <;> simp [exec, execOscRdpf, issue, onOsc, needActive, firstFault, needsAct,
        configuredOk, delayOk, runsFaulted, effect, h, hf, hd]
      all_goals split_ifs <;> simp_all
  | oscRdps u =>
    rcases h : s.oscs[u]? with _ | r
    · have hd : unitExists (.oscRdps u) s = false := decide_eq_false (Nat.not_lt.mpr (List.getElem?_eq_none_iff.mp h))
      cases hf : s.faulted <;> simp [exec, execOscRdps, issue, onOsc, firstFault, runsFaulted, h, hf, hd]
    · have hd : unitExists (.oscRdps u) s = true := decide_eq_true (lt_length_of_getElem? h)
      cases hf : s.faulted <;> simp [exec, execOscRdps, issue, onOsc, needActive, firstFault, needsAct,
        configuredOk, delayOk, runsFaulted, effect, h, hf, hd]
      all_goals split_ifs <;> simp_all
  | oscRdif u =>
    rcases h : s.oscs[u]? with _ | r
    · have hd : unitExists (.oscRdif u) s = false := decide_eq_false (Nat.not_lt.mpr (List.getElem?_eq_none_iff.mp h))
      cases hf : s.faulted <;> simp [exec, execOscRdif, issue, onOsc, firstFault, runsFaulted, h, hf, hd]
    · have hd : unitExists (.oscRdif u) s = true := decide_eq_true (lt_length_of_getElem? h)
      cases hf : s.faulted <;> simp [exec, execOscRdif, issue, onOsc, needConfigured, firstFault, needsAct,
        configuredOk, delayOk, runsFaulted, effect, h, hf, hd]
      all_goals split_ifs <;> simp_all
  | oscRdis u =>
    rcases h : s.oscs[u]? with _ | r
    · have hd : unitExists (.oscRdis u) s = false := decide_eq_false (Nat.not_lt.mpr (List.getElem?_eq_none_iff.mp h))
      cases hf : s.faulted <;> simp [exec, execOscRdis, issue, onOsc, firstFault, runsFaulted, h, hf, hd]
    · have hd : unitExists (.oscRdis u) s = true := decide_eq_true (lt_length_of_getElem? h)
      cases hf : s.faulted <;> simp [exec, execOscRdis, issue, onOsc, needConfigured, firstFault, needsAct,
        configuredOk, delayOk, runsFaulted, effect, h, hf, hd]
      all_goals split_ifs <;> simp_all
  | dlWr u x =>
    rcases h : s.delays[u]? with _ | r
    · have hd : unitExists (.dlWr u x) s = false := decide_eq_false (Nat.not_lt.mpr (List.getElem?_eq_none_iff.mp h))
      cases hf : s.faulted <;> simp [exec, execDlWr, issue, onDelay, firstFault, runsFaulted, h, hf, hd]
    · have hd : unitExists (.dlWr u x) s = true := decide_eq_true (lt_length_of_getElem? h)
      cases hf : s.faulted <;> simp [exec, execDlWr, issue, onDelay, needActive, firstFault, needsAct,
        configuredOk, delayOk, runsFaulted, effect, h, hf, hd]
      all_goals split_ifs <;> simp_all
  | dlRd u x =>
    rcases h : s.delays[u]? with _ | r
    · have hd : unitExists (.dlRd u x) s = false := decide_eq_false (Nat.not_lt.mpr (List.getElem?_eq_none_iff.mp h))
      cases hf : s.faulted <;> simp [exec, execDlRd, issue, onDelay, firstFault, runsFaulted, h, hf, hd]
    · have hd : unitExists (.dlRd u x) s = true := decide_eq_true (lt_length_of_getElem? h)
      cases hf : s.faulted <;> simp [exec, execDlRd, issue, onDelay, needActive, needFinite, firstFault,
        needsAct, configuredOk, delayOk, runsFaulted, effect, h, hf, hd]
      all_goals split_ifs <;> simp_all
  | dlRdwi u =>
    rcases h : s.delays[u]? with _ | r
    · have hd : unitExists (.dlRdwi u) s = false := decide_eq_false (Nat.not_lt.mpr (List.getElem?_eq_none_iff.mp h))
      cases hf : s.faulted <;> simp [exec, execDlRdwi, issue, onDelay, firstFault, runsFaulted, h, hf, hd]
    · have hd : unitExists (.dlRdwi u) s = true := decide_eq_true (lt_length_of_getElem? h)
      cases hf : s.faulted <;> simp [exec, execDlRdwi, issue, onDelay, needActive, firstFault, needsAct,
        configuredOk, delayOk, runsFaulted, effect, h, hf, hd]
      all_goals split_ifs <;> simp_all
  | dlPeek u k =>
    rcases h : s.delays[u]? with _ | r
    · have hd : unitExists (.dlPeek u k) s = false := decide_eq_false (Nat.not_lt.mpr (List.getElem?_eq_none_iff.mp h))
      cases hf : s.faulted <;> simp [exec, execDlPeek, issue, onDelay, firstFault, runsFaulted, h, hf, hd]
    · have hd : unitExists (.dlPeek u k) s = true := decide_eq_true (lt_length_of_getElem? h)
      cases hf : s.faulted <;> simp [exec, execDlPeek, issue, onDelay, needActive, firstFault, needsAct,
        configuredOk, delayOk, runsFaulted, effect, h, hf, hd]
      all_goals split_ifs <;> simp_all
  | smLoad u x =>
    rcases h : s.smoothers[u]? with _ | r
    · have hd : unitExists (.smLoad u x) s = false := decide_eq_false (Nat.not_lt.mpr (List.getElem?_eq_none_iff.mp h))
      cases hf : s.faulted <;> simp [exec, execSmLoad, issue, onSmoother, firstFault, runsFaulted, h, hf, hd]
    · have hd : unitExists (.smLoad u x) s = true := decide_eq_true (lt_length_of_getElem? h)
      cases hf : s.faulted <;> simp [exec, execSmLoad, issue, onSmoother, firstFault, needsAct, configuredOk,
        delayOk, runsFaulted, effect, h, hf, hd]
  | smStep u x =>
    rcases h : s.smoothers[u]? with _ | r
    · have hd : unitExists (.smStep u x) s = false := decide_eq_false (Nat.not_lt.mpr (List.getElem?_eq_none_iff.mp h))
      cases hf : s.faulted <;> simp [exec, execSmStep, issue, onSmoother, firstFault, runsFaulted, h, hf, hd]
    · have hd : unitExists (.smStep u x) s = true := decide_eq_true (lt_length_of_getElem? h)
      cases hf : s.faulted <;> simp [exec, execSmStep, issue, onSmoother, needActive, needConfigured,
        firstFault, needsAct, configuredOk, delayOk, runsFaulted, effect, h, hf, hd]
      all_goals split_ifs <;> simp_all
  | smRd u =>
    rcases h : s.smoothers[u]? with _ | r
    · have hd : unitExists (.smRd u) s = false := decide_eq_false (Nat.not_lt.mpr (List.getElem?_eq_none_iff.mp h))
      cases hf : s.faulted <;> simp [exec, execSmRd, issue, onSmoother, firstFault, runsFaulted, h, hf, hd]
    · have hd : unitExists (.smRd u) s = true := decide_eq_true (lt_length_of_getElem? h)
      cases hf : s.faulted <;> simp [exec, execSmRd, issue, onSmoother, needConfigured, firstFault, needsAct,
        configuredOk, delayOk, runsFaulted, effect, h, hf, hd]
      all_goals split_ifs <;> simp_all

/-- The three ways a command ends. -/
theorem exec_cases {i : Instr} {s t : State} (h : exec i s = .next t) :
    (s.faulted = true ∧ runsFaulted i = false ∧ t = s) ∨
    (∃ c, s.faulted = false ∧ firstFault i s = some c ∧ t = raiseFault c i.commandWord s) ∨
    ((s.faulted = false ∨ runsFaulted i = true) ∧ firstFault i s = none ∧ t = effect i s) := by
  have hrf : runsFaulted i = true → firstFault i s = none := by
    intro hr
    cases i <;> simp_all [runsFaulted, firstFault, unitExists, family?, needsAct, configuredOk, delayOk]
  rw [exec_eq] at h
  cases hf : s.faulted <;> cases hr : runsFaulted i <;> cases hc : firstFault i s <;> simp_all

@[simp] theorem effect_faulted (i : Instr) (s : State) : (effect i s).faulted = s.faulted := by cases i <;> rfl
@[simp] theorem effect_cause (i : Instr) (s : State) : (effect i s).cause = s.cause := by cases i <;> rfl
@[simp] theorem effect_fcmd (i : Instr) (s : State) : (effect i s).fcmd = s.fcmd := by cases i <;> rfl
@[simp] theorem effect_por (i : Instr) (s : State) : (effect i s).por = s.por := by cases i <;> rfl
@[simp] theorem effect_inbox (i : Instr) (s : State) : (effect i s).inbox = s.inbox := by cases i <;> rfl

/-- Only ACT writes STATUS.ACT. -/
theorem effect_act (i : Instr) (s : State) : (effect i s).act = true ↔ (i = .act ∨ s.act = true) := by
  cases i <;> simp [effect]

end Sys2Proof.Machine
end

