-- ==== Sys2Proof/Laws/Float.lean ====
section
/-! SUPPORT. The laws of binary32 arithmetic: the magnitudes in order, rounding characterised by the midpoints between
neighbouring magnitudes, and from it that rounding is exact on binary32 values and monotone. -/

namespace Sys2Proof.Machine.F32

theorem magVal_def (m : Nat) :
    magVal m = if m / 8388608 = 0 then m else (8388608 + m % 8388608) * 2 ^ (m / 8388608 - 1) := by
  unfold magVal
  simp only [show (2 : Nat) ^ 23 = 8388608 by norm_num]

/-- A scaled significand: the magnitude word `k * 2^23 + r` with `r` in `[2^23, 2^24]` holds `r * 2^k`. -/
theorem magVal_scaled {k r : Nat} (h1 : 8388608 ≤ r) (h2 : r ≤ 16777216) :
    magVal (k * 8388608 + r) = r * 2 ^ k := by
  rw [magVal_def]
  rcases Nat.lt_or_eq_of_le h2 with h | h
  · have hd : (k * 8388608 + r) / 8388608 = k + 1 := by omega
    have hm : (k * 8388608 + r) % 8388608 = r - 8388608 := by omega
    rw [hd, hm, if_neg (by omega), Nat.add_sub_cancel, Nat.add_sub_cancel' h1]
  · have hd : (k * 8388608 + r) / 8388608 = k + 2 := by omega
    have hm : (k * 8388608 + r) % 8388608 = 0 := by omega
    rw [hd, hm, if_neg (by omega), h, show k + 2 - 1 = k + 1 from rfl, pow_succ]
    ring

/-- The magnitudes up to the second binade are themselves. -/
theorem magVal_small {m : Nat} (h : m ≤ 16777216) : magVal m = m := by
  rcases Nat.lt_or_ge m 8388608 with hm | hm
  · rw [magVal_def, if_pos (by omega)]
  · have := magVal_scaled (k := 0) hm h
    simpa using this

/-- Every magnitude word is a significand and a spacing, and its successor is the next significand. -/
theorem magVal_form (m : Nat) :
    ∃ k r, m = k * 8388608 + r ∧ (k = 0 ∨ 8388608 ≤ r) ∧ r < 16777216 ∧ magVal m = r * 2 ^ k ∧
      magVal (m + 1) = (r + 1) * 2 ^ k := by
  rcases Nat.lt_or_ge m 8388608 with hm | hm
  · exact ⟨0, m, by omega, .inl rfl, by omega, by simpa using magVal_small (m := m) (by omega),
      by simpa using magVal_small (m := m + 1) (by omega)⟩
  · have h1 : 8388608 ≤ 8388608 + m % 8388608 := by omega
    have h2 : 8388608 + m % 8388608 < 16777216 := by omega
    have he : m = (m / 8388608 - 1) * 8388608 + (8388608 + m % 8388608) := by omega
    refine ⟨m / 8388608 - 1, 8388608 + m % 8388608, he, .inr h1, h2, ?_, ?_⟩
    · conv_lhs => rw [he]
      exact magVal_scaled h1 (by omega)
    · have he' : m + 1 = (m / 8388608 - 1) * 8388608 + (8388608 + m % 8388608 + 1) := by omega
      rw [he']
      exact magVal_scaled (by omega) (by omega)

theorem magVal_lt_succ (m : Nat) : magVal m < magVal (m + 1) := by
  obtain ⟨k, r, -, -, -, h1, h2⟩ := magVal_form m
  rw [h1, h2]
  exact Nat.mul_lt_mul_of_pos_right (by omega) (Nat.two_pow_pos k)

/-- The magnitude words order the magnitudes. -/
theorem magVal_strictMono : StrictMono magVal := strictMono_nat_of_lt_succ magVal_lt_succ

theorem magVal_lt {m n : Nat} : magVal m < magVal n ↔ m < n := magVal_strictMono.lt_iff_lt

theorem magVal_le {m n : Nat} : magVal m ≤ magVal n ↔ m ≤ n := magVal_strictMono.le_iff_le

@[simp] theorem magVal_zero : magVal 0 = 0 := magVal_small (by omega)

theorem magVal_eq_zero {m : Nat} : magVal m = 0 ↔ m = 0 := by
  rw [← magVal_zero]
  exact magVal_strictMono.injective.eq_iff

/-- The whole number nearest to `n / d`: within half a unit, and even when it is a tie. -/
theorem nearestEven_spec (n : Nat) {d : Nat} (hd : 0 < d) :
    2 * n ≤ d * (2 * nearestEven n d + 1) ∧ 2 * (d * nearestEven n d) ≤ 2 * n + d ∧
    (2 * n = d * (2 * nearestEven n d + 1) → nearestEven n d % 2 = 0) ∧
    (2 * (d * nearestEven n d) = 2 * n + d → nearestEven n d % 2 = 0) := by
  have hn := Nat.div_add_mod n d
  have hr := Nat.mod_lt n hd
  generalize hq : n / d = q at hn
  generalize n % d = r at hn hr
  have hexp : d * (2 * q + 1) = 2 * (d * q) + d := by ring
  have hexp1 : d * (2 * (q + 1) + 1) = 2 * (d * q) + 3 * d := by ring
  have hexp2 : d * (q + 1) = d * q + d := by ring
  unfold nearestEven
  rw [hq, show n % d = r by have := Nat.div_add_mod n d; rw [hq] at this; omega]
  split_ifs with h
  · rw [hexp1, hexp2]
    refine ⟨by omega, by omega, by omega, fun he => ?_⟩
    rcases h with h | ⟨-, h⟩ <;> omega
  · rw [hexp]
    refine ⟨by omega, by omega, fun he => ?_, fun he => by omega⟩
    by_contra hodd
    exact h (.inr ⟨by omega, by omega⟩)

/-- The significand that rounding finds, before the largest magnitude cuts it off: `r * 2^k` with `r` the whole number
nearest to `n / (d * 2^k)`, and `r` in `[2^23, 2^24]` unless the spacing is 1. -/
theorem roundMag_form (n : Nat) {d : Nat} (hd : 0 < d) :
    ∃ k r, roundMag n d = min (k * 8388608 + r) 0x7F800000 ∧ r = nearestEven n (d * 2 ^ k) ∧ r ≤ 16777216 ∧
      (k = 0 ∨ (8388608 ≤ r ∧ d * (8388608 * 2 ^ k) ≤ n)) ∧ n < d * (16777216 * 2 ^ k) := by
  have hlog := Nat.log2_self_le (n := n / d)
  refine ⟨Nat.log2 (n / d) - 23, _, by norm_num [roundMag], rfl, ?_⟩
  have hdivlt : n < d * (n / d + 1) := Nat.lt_mul_div_succ n hd
  have hpow : n / d < 16777216 * 2 ^ (Nat.log2 (n / d) - 23) := by
    have h1 : n / d < 2 ^ (Nat.log2 (n / d) + 1) := Nat.lt_log2_self
    refine Nat.lt_of_lt_of_le h1 ?_
    rw [show (16777216 : Nat) = 2 ^ 24 by norm_num, ← pow_add]
    exact Nat.pow_le_pow_right (by omega) (by omega)
  have hlt : n < d * (16777216 * 2 ^ (Nat.log2 (n / d) - 23)) :=
    Nat.lt_of_lt_of_le hdivlt (Nat.mul_le_mul_left d hpow)
  have hlow : Nat.log2 (n / d) - 23 = 0 ∨ d * (8388608 * 2 ^ (Nat.log2 (n / d) - 23)) ≤ n := by
    rcases Nat.lt_or_ge (Nat.log2 (n / d)) 24 with h | h
    · exact .inl (by omega)
    · refine .inr ?_
      have hne : n / d ≠ 0 := by
        intro h0
        rw [h0] at h
        simp at h
      have h2 := hlog hne
      have h3 : 8388608 * 2 ^ (Nat.log2 (n / d) - 23) = 2 ^ Nat.log2 (n / d) := by
        rw [show (8388608 : Nat) = 2 ^ 23 by norm_num, ← pow_add]
        congr 1
        omega
      rw [h3]
      exact Nat.le_trans (Nat.mul_le_mul_left d h2) (Nat.mul_div_le n d)
  generalize Nat.log2 (n / d) - 23 = k at hlt hlow
  have hD : 0 < d * 2 ^ k := Nat.mul_pos hd (Nat.two_pow_pos k)
  obtain ⟨h1, h2, -, -⟩ := nearestEven_spec n hD
  have e1 : d * (16777216 * 2 ^ k) = 16777216 * (d * 2 ^ k) := by ring
  have e2 : d * (8388608 * 2 ^ k) = 8388608 * (d * 2 ^ k) := by ring
  rw [e1] at hlt ⊢
  rw [e2] at hlow ⊢
  generalize nearestEven n (d * 2 ^ k) = r at h1 h2
  generalize d * 2 ^ k = D at h1 h2 hlt hlow hD ⊢
  have hr : r ≤ 16777216 := by
    by_contra hgt
    have : 16777217 ≤ r := by omega
    have := Nat.mul_le_mul_left D this
    omega
  refine ⟨hr, hlow.imp_right fun h => ⟨?_, h⟩, hlt⟩
  by_contra hlt'
  have h3 := Nat.mul_le_mul_left D (show r + 1 ≤ 8388608 by omega)
  have h4 : 2 * (D * (r + 1)) = D * (2 * r + 1) + D := by ring
  omega

/-- The magnitude a significand and a spacing hold, the next one up to a binade, and the one before within it. -/
theorem magVal_significand {k r : Nat} (hr : r ≤ 16777216) (h : k = 0 ∨ 8388608 ≤ r) :
    magVal (k * 8388608 + r) = r * 2 ^ k := by
  rcases h with rfl | h
  · simpa using magVal_small hr
  · exact magVal_scaled h hr

/-- Rounding without the cut at the largest magnitude lies between the midpoints to its neighbours, and is even when it
lies on one. -/
theorem significand_spec {n d k r : Nat} (hd : 0 < d) (hr : r = nearestEven n (d * 2 ^ k)) (hle : r ≤ 16777216)
    (hlow : k = 0 ∨ (8388608 ≤ r ∧ d * (8388608 * 2 ^ k) ≤ n)) (hlt : n < d * (16777216 * 2 ^ k)) :
    (2 * n ≤ d * (magVal (k * 8388608 + r) + magVal (k * 8388608 + r + 1)) ∧
      (2 * n = d * (magVal (k * 8388608 + r) + magVal (k * 8388608 + r + 1)) → (k * 8388608 + r) % 2 = 0)) ∧
    ∀ m, k * 8388608 + r = m + 1 →
      d * (magVal m + magVal (k * 8388608 + r)) ≤ 2 * n ∧
      (d * (magVal m + magVal (k * 8388608 + r)) = 2 * n → (k * 8388608 + r) % 2 = 0) := by
  have hD : 0 < d * 2 ^ k := Nat.mul_pos hd (Nat.two_pow_pos k)
  obtain ⟨h1, h2, h3, h4⟩ := nearestEven_spec n hD
  rw [← hr] at h1 h2 h3 h4
  have hval : magVal (k * 8388608 + r) = r * 2 ^ k := magVal_significand hle (hlow.imp_right (·.1))
  have hdr : d * (r * 2 ^ k) = d * 2 ^ k * r := by ring
  have e1 : d * (8388608 * 2 ^ k) = d * 2 ^ k * 8388608 := by ring
  have e2 : d * (16777216 * 2 ^ k) = d * 2 ^ k * 16777216 := by ring
  rw [e1] at hlow
  rw [e2] at hlt
  constructor
  · rcases Nat.lt_or_eq_of_le hle with hlt' | heq
    · have hnext : magVal (k * 8388608 + r + 1) = (r + 1) * 2 ^ k := by
        rw [Nat.add_assoc]
        exact magVal_significand (by omega) (hlow.imp_right fun h => by omega)
      have hmid : d * (magVal (k * 8388608 + r) + magVal (k * 8388608 + r + 1)) = d * 2 ^ k * (2 * r + 1) := by
        rw [hval, hnext]
        ring
      rw [hmid]
      exact ⟨h1, fun h => by have := h3 h; omega⟩
    · have hstrict : 2 * n < d * (magVal (k * 8388608 + r) + magVal (k * 8388608 + r + 1)) := by
        have hmono : d * magVal (k * 8388608 + r) ≤ d * magVal (k * 8388608 + r + 1) :=
          Nat.mul_le_mul_left d (Nat.le_of_lt (magVal_lt_succ _))
        have hthis : d * magVal (k * 8388608 + r) = d * 2 ^ k * 16777216 := by
          rw [hval, heq]
          ring
        rw [Nat.mul_add]
        omega
      exact ⟨Nat.le_of_lt hstrict, fun h => absurd h (Nat.ne_of_lt hstrict)⟩
  · intro m hm
    by_cases hedge : k = 0 ∨ 8388609 ≤ r
    · have hr1 : 1 ≤ r := by
        rcases hedge with h | h
        · subst h
          omega
        · omega
      have hprev : magVal m = (r - 1) * 2 ^ k := by
        have hmk : m = k * 8388608 + (r - 1) := by omega
        rw [hmk]
        exact magVal_significand (by omega) (hedge.imp_right fun h => by omega)
      have hmid : d * (magVal m + magVal (k * 8388608 + r)) + d * 2 ^ k = 2 * (d * 2 ^ k * r) := by
        rw [hval, hprev]
        obtain ⟨q, rfl⟩ : ∃ q, r = q + 1 := ⟨r - 1, by omega⟩
        rw [Nat.add_sub_cancel]
        ring
      exact ⟨by omega, fun h => by have := h4 (by omega); omega⟩
    · have hk : k ≠ 0 := fun h => hedge (.inl h)
      have hbig := (hlow.resolve_left hk)
      have hr8 : r = 8388608 := by omega
      have hstrict : d * (magVal m + magVal (k * 8388608 + r)) < 2 * n := by
        have hlt1 : magVal m < magVal (k * 8388608 + r) := magVal_lt.mpr (by omega)
        have hmul : d * magVal m < d * magVal (k * 8388608 + r) := Nat.mul_lt_mul_of_pos_left hlt1 hd
        have hthis : d * magVal (k * 8388608 + r) = d * 2 ^ k * 8388608 := by
          rw [hval, hr8]
          ring
        rw [Nat.mul_add]
        omega
      exact ⟨Nat.le_of_lt hstrict, fun h => absurd h (Nat.ne_of_lt hstrict)⟩

/-- Rounding, characterised: `n / d` lies between the midpoints from the rounded magnitude to its two neighbours, and
where it lies on a midpoint the rounded magnitude is the even one (00_scope.md R13). The magnitude of Inf has no midpoint
above it. -/
theorem roundMag_spec (n : Nat) {d : Nat} (hd : 0 < d) :
    roundMag n d ≤ 0x7F800000 ∧
    (roundMag n d < 0x7F800000 →
      2 * n ≤ d * (magVal (roundMag n d) + magVal (roundMag n d + 1)) ∧
      (2 * n = d * (magVal (roundMag n d) + magVal (roundMag n d + 1)) → roundMag n d % 2 = 0)) ∧
    ∀ m, roundMag n d = m + 1 →
      d * (magVal m + magVal (roundMag n d)) ≤ 2 * n ∧
      (d * (magVal m + magVal (roundMag n d)) = 2 * n → roundMag n d % 2 = 0) := by
  obtain ⟨k, r, he, hr, hle, hlow, hlt⟩ := roundMag_form n hd
  obtain ⟨hup, hdown⟩ := significand_spec hd hr hle hlow hlt
  rw [he]
  rcases Nat.lt_or_ge (k * 8388608 + r) 0x7F800000 with hM | hM
  · rw [Nat.min_eq_left (Nat.le_of_lt hM)]
    exact ⟨Nat.le_of_lt hM, fun _ => hup, hdown⟩
  · rw [Nat.min_eq_right hM]
    refine ⟨Nat.le_refl _, fun h => absurd h (Nat.lt_irrefl _), fun m hm => ⟨?_, fun _ => by decide⟩⟩
    have h1 : k * 8388608 + r = (k * 8388608 + r - 1) + 1 := by omega
    refine Nat.le_trans (Nat.mul_le_mul_left d (Nat.add_le_add ?_ ?_)) (hdown _ h1).1
    · exact magVal_le.mpr (by omega)
    · exact magVal_le.mpr hM

theorem roundMag_le (n : Nat) {d : Nat} (hd : 0 < d) : roundMag n d ≤ 0x7F800000 := (roundMag_spec n hd).1

/-- Rounding is monotone. -/
theorem roundMag_mono {n d n' d' : Nat} (hd : 0 < d) (hd' : 0 < d') (h : n * d' ≤ n' * d) :
    roundMag n d ≤ roundMag n' d' := by
  by_contra hlt
  have hlt : roundMag n' d' < roundMag n d := Nat.lt_of_not_le hlt
  obtain ⟨m, hm⟩ : ∃ m, roundMag n d = m + 1 := ⟨roundMag n d - 1, by omega⟩
  have hinf : roundMag n' d' < 0x7F800000 := Nat.lt_of_lt_of_le hlt (roundMag_le n hd)
  obtain ⟨hup, hupe⟩ := (roundMag_spec n' hd').2.1 hinf
  obtain ⟨hdn, hdne⟩ := (roundMag_spec n hd).2.2 m hm
  have hA : magVal (roundMag n' d') ≤ magVal m := magVal_le.mpr (by omega)
  have hB : magVal (roundMag n' d' + 1) ≤ magVal (roundMag n d) := magVal_le.mpr (by omega)
  have key : d * d' * (magVal m + magVal (roundMag n d)) ≤ d * d' * (magVal (roundMag n' d') + magVal (roundMag n' d' + 1)) := by
    calc d * d' * (magVal m + magVal (roundMag n d)) = d' * (d * (magVal m + magVal (roundMag n d))) := by ring
      _ ≤ d' * (2 * n) := Nat.mul_le_mul_left d' hdn
      _ = 2 * (n * d') := by ring
      _ ≤ 2 * (n' * d) := by omega
      _ = d * (2 * n') := by ring
      _ ≤ d * (d' * (magVal (roundMag n' d') + magVal (roundMag n' d' + 1))) := Nat.mul_le_mul_left d hup
      _ = d * d' * (magVal (roundMag n' d') + magVal (roundMag n' d' + 1)) := by ring
  have hsum := Nat.le_of_mul_le_mul_left key (Nat.mul_pos hd hd')
  have hAe : magVal m = magVal (roundMag n' d') := by omega
  have hBe : magVal (roundMag n d) = magVal (roundMag n' d' + 1) := by omega
  have hme : m = roundMag n' d' := magVal_strictMono.injective hAe
  have hdn2 : d * (magVal m + magVal (roundMag n d)) = 2 * n := by
    apply Nat.le_antisymm hdn
    have : d' * (2 * n) ≤ d' * (d * (magVal m + magVal (roundMag n d))) := by
      calc d' * (2 * n) = 2 * (n * d') := by ring
        _ ≤ 2 * (n' * d) := by omega
        _ = d * (2 * n') := by ring
        _ ≤ d * (d' * (magVal (roundMag n' d') + magVal (roundMag n' d' + 1))) := Nat.mul_le_mul_left d hup
        _ = d' * (d * (magVal m + magVal (roundMag n d))) := by rw [hAe, hBe]; ring
    exact Nat.le_of_mul_le_mul_left this hd'
  have hup2 : 2 * n' = d' * (magVal (roundMag n' d') + magVal (roundMag n' d' + 1)) := by
    apply Nat.le_antisymm hup
    have : d * (d' * (magVal (roundMag n' d') + magVal (roundMag n' d' + 1))) ≤ d * (2 * n') := by
      calc d * (d' * (magVal (roundMag n' d') + magVal (roundMag n' d' + 1)))
          = d' * (d * (magVal m + magVal (roundMag n d))) := by rw [hAe, hBe]; ring
        _ = d' * (2 * n) := by rw [hdn2]
        _ = 2 * (n * d') := by ring
        _ ≤ 2 * (n' * d) := by omega
        _ = d * (2 * n') := by ring
    exact Nat.le_of_mul_le_mul_left this hd
  have h1 := hdne hdn2
  have h2 := hupe hup2
  omega

/-- Rounding is exact on the magnitudes. -/
theorem roundMag_exact {m d : Nat} (hd : 0 < d) (hm : m ≤ 0x7F800000) : roundMag (magVal m * d) d = m := by
  obtain ⟨hle, hup, hdn⟩ := roundMag_spec (magVal m * d) hd
  generalize roundMag (magVal m * d) d = r at hle hup hdn
  rcases Nat.lt_trichotomy r m with h | h | h
  · have h1 := (hup (by omega)).1
    have h2 : magVal r < magVal m := magVal_lt.mpr h
    have h3 : magVal (r + 1) ≤ magVal m := magVal_le.mpr h
    have h4 : d * (magVal r + magVal (r + 1)) < d * (2 * magVal m) := Nat.mul_lt_mul_of_pos_left (by omega) hd
    have h5 : d * (2 * magVal m) = 2 * (magVal m * d) := by ring
    omega
  · exact h
  · obtain ⟨q, rfl⟩ : ∃ q, r = q + 1 := ⟨r - 1, by omega⟩
    have h1 := (hdn q rfl).1
    have h2 : magVal m ≤ magVal q := magVal_le.mpr (by omega)
    have h3 : magVal q < magVal (q + 1) := magVal_lt_succ q
    have h4 : d * (2 * magVal m) < d * (magVal q + magVal (q + 1)) := Nat.mul_lt_mul_of_pos_left (by omega) hd
    have h5 : d * (2 * magVal m) = 2 * (magVal m * d) := by ring
    omega

@[simp] theorem roundMag_zero {d : Nat} (hd : 0 < d) : roundMag 0 d = 0 := by
  have := roundMag_exact (m := 0) hd (by decide)
  simpa using this

/-- A rounded magnitude is finite exactly below the midpoint from the largest finite one to the next power of two; the
midpoint itself rounds to Inf, the largest finite one being odd (IEEE 754, log entry 12). -/
theorem roundMag_lt_inf (n : Nat) {d : Nat} (hd : 0 < d) :
    roundMag n d < 0x7F800000 ↔ 2 * n < d * (magVal 0x7F7FFFFF + magVal 0x7F800000) := by
  obtain ⟨hle, hup, hdn⟩ := roundMag_spec n hd
  constructor
  · intro h
    obtain ⟨h1, h2⟩ := hup h
    rcases Nat.lt_or_eq_of_le (show roundMag n d ≤ 0x7F7FFFFF by omega) with hlt | heq
    · have h3 : magVal (roundMag n d) < magVal 0x7F7FFFFF := magVal_lt.mpr hlt
      have h4 : magVal (roundMag n d + 1) ≤ magVal 0x7F800000 := magVal_le.mpr (by omega)
      exact Nat.lt_of_le_of_lt h1 (Nat.mul_lt_mul_of_pos_left (Nat.add_lt_add_of_lt_of_le h3 h4) hd)
    · rw [heq] at h1 h2
      exact Nat.lt_of_le_of_ne h1 fun h => absurd (h2 h) (by decide)
  · intro h
    by_contra hge
    have heq : roundMag n d = 0x7F7FFFFF + 1 := by omega
    have h1 := (hdn _ heq).1
    rw [heq] at h1
    exact absurd h (Nat.not_lt.mpr h1)

/-- Rounding never passes a magnitude from below. -/
theorem roundMag_le_of_le {n d m : Nat} (hd : 0 < d) (hm : m ≤ 0x7F800000) (h : n ≤ magVal m * d) : roundMag n d ≤ m := by
  have := roundMag_mono hd hd (n' := magVal m * d) (by exact Nat.mul_le_mul_right d h)
  rwa [roundMag_exact hd hm] at this

/-- Rounding never passes a magnitude from above. -/
theorem le_roundMag_of_le {n d m : Nat} (hd : 0 < d) (hm : m ≤ 0x7F800000) (h : magVal m * d ≤ n) : m ≤ roundMag n d := by
  have := roundMag_mono hd hd (n := magVal m * d) (n' := n) (by exact Nat.mul_le_mul_right d h)
  rwa [roundMag_exact hd hm] at this

/-! The two parts of a word, sign and magnitude. -/

theorem sign_eq (a : F32) : sign a = decide (2147483648 ≤ a.toNat) := by
  have h := a.isLt
  norm_num at h
  rw [sign, BitVec.getLsbD, Nat.testBit_eq_decide_div_mod_eq]
  norm_num
  omega

theorem mag_eq (a : F32) : mag a = a.toNat % 2147483648 := by
  rw [mag]
  norm_num

theorem mag_lt (a : F32) : mag a < 2147483648 := by
  rw [mag_eq]
  omega

/-- A word is its sign and its magnitude. -/
theorem toNat_eq (a : F32) : a.toNat = (if sign a then 2147483648 else 0) + mag a := by
  have h := a.isLt
  norm_num at h
  have hm := mag_eq a
  rw [sign_eq]
  by_cases hs : 2147483648 ≤ a.toNat
  · simp only [hs, decide_true, if_true]
    omega
  · simp only [hs, decide_false, Bool.false_eq_true, if_false]
    omega

/-- Two words with the same sign and the same magnitude are the same word. -/
theorem ext_sign_mag {a b : F32} (hs : sign a = sign b) (hm : mag a = mag b) : a = b := by
  apply BitVec.eq_of_toNat_eq
  rw [toNat_eq a, toNat_eq b, hs, hm]

theorem pack_toNat (s : Bool) {m : Nat} (hm : m < 2147483648) :
    (pack s m).toNat = (if s then 2147483648 else 0) + m := by
  rw [pack, BitVec.toNat_ofNat]
  cases s
  · norm_num
    omega
  · norm_num
    omega

theorem sign_pack (s : Bool) {m : Nat} (hm : m < 2147483648) : sign (pack s m) = s := by
  rw [sign_eq, pack_toNat s hm]
  cases s
  · simpa using hm
  · simp

theorem mag_pack (s : Bool) {m : Nat} (hm : m < 2147483648) : mag (pack s m) = m := by
  rw [mag_eq, pack_toNat s hm]
  cases s
  · simpa using Nat.mod_eq_of_lt hm
  · simpa using Nat.mod_eq_of_lt hm

@[simp] theorem pack_sign_mag (a : F32) : pack (sign a) (mag a) = a :=
  ext_sign_mag (sign_pack _ (mag_lt a)) (mag_pack _ (mag_lt a))

theorem sign_round (s : Bool) (n : Nat) {d : Nat} (hd : 0 < d) : sign (pack s (roundMag n d)) = s :=
  sign_pack s (Nat.lt_of_le_of_lt (roundMag_le n hd) (by decide))

theorem mag_round (s : Bool) (n : Nat) {d : Nat} (hd : 0 < d) : mag (pack s (roundMag n d)) = roundMag n d :=
  mag_pack s (Nat.lt_of_le_of_lt (roundMag_le n hd) (by decide))

theorem getLsbD_eq_of_ne {a b : F32} (hm : mag a = mag b) {i : Nat} (hi : i < 31) : a.getLsbD i = b.getLsbD i := by
  have h (c : F32) : c.getLsbD i = (mag c).testBit i := by
    rw [mag, Nat.testBit_mod_two_pow, BitVec.getLsbD]
    simp [hi]
  rw [h a, h b, hm]

theorem mag_eq_of_getLsbD {a b : F32} (h : ∀ i, i < 31 → a.getLsbD i = b.getLsbD i) : mag a = mag b := by
  apply Nat.eq_of_testBit_eq
  intro i
  rw [mag, mag, Nat.testBit_mod_two_pow, Nat.testBit_mod_two_pow]
  by_cases hi : i < 31
  · have := h i hi
    rw [BitVec.getLsbD, BitVec.getLsbD] at this
    rw [this]
  · simp [hi]

@[simp] theorem sign_neg (a : F32) : sign (neg a) = !sign a := by
  rw [sign, sign, neg, BitVec.getLsbD_xor, show (0x80000000#32).getLsbD 31 = true from rfl, Bool.xor_true]

@[simp] theorem mag_neg (a : F32) : mag (neg a) = mag a := by
  refine mag_eq_of_getLsbD fun i hi => ?_
  have h : (0x80000000#32).getLsbD i = false := by
    interval_cases i <;> rfl
  rw [neg, BitVec.getLsbD_xor, h, Bool.xor_false]

@[simp] theorem sign_absf (a : F32) : sign (absf a) = false := by
  rw [sign, absf, BitVec.getLsbD_and, show (0x7FFFFFFF#32).getLsbD 31 = false from rfl, Bool.and_false]

@[simp] theorem mag_absf (a : F32) : mag (absf a) = mag a := by
  refine mag_eq_of_getLsbD fun i hi => ?_
  have h : (0x7FFFFFFF#32).getLsbD i = true := by
    interval_cases i <;> rfl
  rw [absf, BitVec.getLsbD_and, h, Bool.and_true]

theorem isNaN_congr {a b : F32} (h : mag a = mag b) : isNaN a = isNaN b := by
  rw [isNaN, isNaN, h]

@[simp] theorem isNaN_neg (a : F32) : isNaN (neg a) = isNaN a := isNaN_congr (mag_neg a)

@[simp] theorem isNaN_absf (a : F32) : isNaN (absf a) = isNaN a := isNaN_congr (mag_absf a)

@[simp] theorem neg_neg (a : F32) : neg (neg a) = a := ext_sign_mag (by simp) (by simp)

@[simp] theorem val_neg (a : F32) : val (neg a) = -val a := by
  rw [val, val, sign_neg, mag_neg]
  cases sign a <;> simp

theorem val_natAbs (a : F32) : (val a).natAbs = magVal (mag a) := by
  rw [val]
  split_ifs <;> simp

/-- The value of a rounded result. -/
theorem val_round (s : Bool) (n : Nat) {d : Nat} (hd : 0 < d) :
    val (pack s (roundMag n d)) = if s then -(magVal (roundMag n d) : Int) else (magVal (roundMag n d) : Int) := by
  rw [val, sign_round s n hd, mag_round s n hd]

/-! NaN, Inf and finite values are apart. -/

theorem isNaN_iff {a : F32} : isNaN a = true ↔ 0x7F800000 < mag a := by simp [isNaN]

theorem isInf_iff {a : F32} : isInf a = true ↔ mag a = 0x7F800000 := by simp [isInf]

theorem isFinite_iff {a : F32} : isFinite a = true ↔ mag a < 0x7F800000 := by simp [isFinite]

theorem not_isNaN_of_isFinite {a : F32} (h : isFinite a = true) : isNaN a = false := by
  rw [isFinite_iff] at h
  simp only [isNaN, decide_eq_false_iff_not]
  omega

theorem not_isInf_of_isFinite {a : F32} (h : isFinite a = true) : isInf a = false := by
  rw [isFinite_iff] at h
  simp only [isInf, decide_eq_false_iff_not]
  omega

theorem isNaN_round (s : Bool) (n : Nat) {d : Nat} (hd : 0 < d) : isNaN (pack s (roundMag n d)) = false := by
  have := roundMag_le n hd
  simp only [isNaN, mag_round s n hd, decide_eq_false_iff_not]
  omega

/-- A free word makes a NaN. -/
@[simp] theorem isNaN_nanOf (raw : Word) : isNaN (nanOf raw) = true := by
  rw [nanOf]
  split_ifs with h
  · exact h
  · rw [isNaN_iff]
    have hor : raw ||| 0x7FC00000#32 = raw ||| 0x7FC00000#32 ||| 0x7FC00000#32 := by
      rw [BitVec.or_assoc, BitVec.or_self]
    have hge : 0x7FC00000 ≤ mag (raw ||| 0x7FC00000#32) := by
      have h1 : mag (raw ||| 0x7FC00000#32) = mag raw ||| 0x7FC00000 := by
        rw [mag, mag, BitVec.toNat_or, Nat.or_mod_two_pow]
        rfl
      rw [h1]
      exact Nat.right_le_or
    have : 0x7F800000 < 0x7FC00000 := by decide
    omega

/-- Every NaN is the NaN of a free word: itself. -/
theorem nanOf_eq_self {a : F32} (h : isNaN a = true) : nanOf a = a := by
  have hor : a ||| 0x7F800000#32 = a := by
    rw [isNaN_iff, mag_eq] at h
    have hlow : ∀ i, i < 8 → a.getLsbD (23 + i) = true ∨ i = 8 := by
      intro i hi
      left
      rw [BitVec.getLsbD, Nat.testBit_eq_decide_div_mod_eq]
      simp only [decide_eq_true_eq]
      interval_cases i <;> norm_num <;> omega
    apply BitVec.eq_of_getLsbD_eq
    intro i hi
    rw [BitVec.getLsbD_or]
    by_cases h1 : 23 ≤ i ∧ i < 31
    · obtain ⟨j, rfl⟩ : ∃ j, i = 23 + j := ⟨i - 23, by omega⟩
      rw [(hlow j (by omega)).resolve_right (by omega)]
      rfl
    · have h0 : (0x7F800000#32).getLsbD i = false := by
        have : i < 23 ∨ i = 31 := by omega
        rcases this with h2 | h2
        · interval_cases i <;> rfl
        · subst h2
          rfl
      rw [h0, Bool.or_false]
  rw [nanOf, hor, if_pos h]

/-! A NaN operand gives a NaN result. -/

theorem add_nan_left {nan a : F32} (b : F32) (h : isNaN a = true) : add nan a b = nan := by simp [add, h]

theorem add_nan_right {nan b : F32} (a : F32) (h : isNaN b = true) : add nan a b = nan := by simp [add, h]

theorem sub_nan_left {nan a : F32} (b : F32) (h : isNaN a = true) : sub nan a b = nan := add_nan_left _ h

theorem sub_nan_right {nan b : F32} (a : F32) (h : isNaN b = true) : sub nan a b = nan := add_nan_right _ (by simpa using h)

theorem mul_nan_left {nan a : F32} (b : F32) (h : isNaN a = true) : mul nan a b = nan := by simp [mul, h]

theorem mul_nan_right {nan b : F32} (a : F32) (h : isNaN b = true) : mul nan a b = nan := by simp [mul, h]

theorem div_nan_left {nan a : F32} (b : F32) (h : isNaN a = true) : div nan a b = nan := by simp [div, h]

theorem div_nan_right {nan b : F32} (a : F32) (h : isNaN b = true) : div nan a b = nan := by simp [div, h]

theorem gt_nan_left {a : F32} (b : F32) (h : isNaN a = true) : gt a b = false := by simp [gt, h]

theorem gt_nan_right {b : F32} (a : F32) (h : isNaN b = true) : gt a b = false := by simp [gt, h]

/-! The operations on finite operands. -/

theorem add_finite {nan a b : F32} (ha : isFinite a = true) (hb : isFinite b = true) :
    add nan a b = if val a + val b = 0 then zero (sign a && sign b)
      else pack (decide (val a + val b < 0)) (roundMag (val a + val b).natAbs 1) := by
  simp [add, not_isNaN_of_isFinite ha, not_isNaN_of_isFinite hb, not_isInf_of_isFinite ha, not_isInf_of_isFinite hb]

theorem isFinite_neg {a : F32} : isFinite (neg a) = isFinite a := by rw [isFinite, isFinite, mag_neg]

theorem mul_finite {nan a b : F32} (ha : isFinite a = true) (hb : isFinite b = true) :
    mul nan a b = pack (sign a != sign b) (roundMag (magVal (mag a) * magVal (mag b)) (2 ^ 149)) := by
  simp [mul, not_isNaN_of_isFinite ha, not_isNaN_of_isFinite hb, not_isInf_of_isFinite ha, not_isInf_of_isFinite hb]

theorem div_finite {nan a b : F32} (ha : isFinite a = true) (hb : isFinite b = true) (h0 : isZero b = false) :
    div nan a b = pack (sign a != sign b) (roundMag (magVal (mag a) * 2 ^ 149) (magVal (mag b))) := by
  simp [div, not_isNaN_of_isFinite ha, not_isNaN_of_isFinite hb, not_isInf_of_isFinite ha, not_isInf_of_isFinite hb, h0]

end Sys2Proof.Machine.F32
end

