-- ==== Sys2Proof/Laws/PerInstr.lean ====
section
/-! SUPPORT. Facts about every command as syntax, one lemma per constructor. -/

namespace Sys2Proof.Laws.EncodedHead

/-- The encoding of a well-formed command is its command word and as many operand words as its row of the opcode map says
(30_encoding.md R80, R85, R88); the command word decodes to that row and the command's UNIT value, and the row makes the
command again from that value and those words. -/
def Statement (i : Instr) : Prop :=
  i.wellFormed = true →
    ∃ row ops, encode i = i.commandWord :: ops ∧ decodeHead i.commandWord = .ok (row, i.unit?.getD 0) ∧
      ops.length = row.operands ∧ row.family = Machine.family? i ∧
      ∀ rest : List Word, row.make (i.unit?.getD 0) ((ops ++ rest).getD 0 0) ((ops ++ rest).getD 1 0)
        ((ops ++ rest).getD 2 0) = i

theorem act : Statement (.act) := fun _ =>
  ⟨_, _, rfl, decodeHead_cmdWord (opc := 0x01) (u := 0) (of_decide_eq_true rfl) (of_decide_eq_true rfl) rfl (fun _ => rfl),
    rfl, rfl, fun _ => rfl⟩

theorem statRd : Statement (.statRd) := fun _ =>
  ⟨_, _, rfl, decodeHead_cmdWord (opc := 0x02) (u := 0) (of_decide_eq_true rfl) (of_decide_eq_true rfl) rfl (fun _ => rfl),
    rfl, rfl, fun _ => rfl⟩

theorem fcmdRd : Statement (.fcmdRd) := fun _ =>
  ⟨_, _, rfl, decodeHead_cmdWord (opc := 0x03) (u := 0) (of_decide_eq_true rfl) (of_decide_eq_true rfl) rfl (fun _ => rfl),
    rfl, rfl, fun _ => rfl⟩

theorem filtCfg (u : Nat) (a : Word) (b : Word) (c : Word) : Statement (.filtCfg u a b c) := fun h =>
  ⟨_, _, rfl, decodeHead_cmdWord (opc := 0x10) (u := u) (of_decide_eq_true rfl) (Instr.unit_lt h rfl) rfl nofun,
    rfl, rfl, fun _ => rfl⟩

theorem filtProc (u : Nat) (a : Word) : Statement (.filtProc u a) := fun h =>
  ⟨_, _, rfl, decodeHead_cmdWord (opc := 0x11) (u := u) (of_decide_eq_true rfl) (Instr.unit_lt h rfl) rfl nofun,
    rfl, rfl, fun _ => rfl⟩

theorem filtRdz1 (u : Nat) : Statement (.filtRdz1 u) := fun h =>
  ⟨_, _, rfl, decodeHead_cmdWord (opc := 0x18) (u := u) (of_decide_eq_true rfl) (Instr.unit_lt h rfl) rfl nofun,
    rfl, rfl, fun _ => rfl⟩

theorem filtRdz2 (u : Nat) : Statement (.filtRdz2 u) := fun h =>
  ⟨_, _, rfl, decodeHead_cmdWord (opc := 0x19) (u := u) (of_decide_eq_true rfl) (Instr.unit_lt h rfl) rfl nofun,
    rfl, rfl, fun _ => rfl⟩

theorem filtRdc1 (u : Nat) : Statement (.filtRdc1 u) := fun h =>
  ⟨_, _, rfl, decodeHead_cmdWord (opc := 0x1A) (u := u) (of_decide_eq_true rfl) (Instr.unit_lt h rfl) rfl nofun,
    rfl, rfl, fun _ => rfl⟩

theorem filtRdc2 (u : Nat) : Statement (.filtRdc2 u) := fun h =>
  ⟨_, _, rfl, decodeHead_cmdWord (opc := 0x1B) (u := u) (of_decide_eq_true rfl) (Instr.unit_lt h rfl) rfl nofun,
    rfl, rfl, fun _ => rfl⟩

theorem filtRdd0 (u : Nat) : Statement (.filtRdd0 u) := fun h =>
  ⟨_, _, rfl, decodeHead_cmdWord (opc := 0x1C) (u := u) (of_decide_eq_true rfl) (Instr.unit_lt h rfl) rfl nofun,
    rfl, rfl, fun _ => rfl⟩

theorem oscSetf (u : Nat) (a : Word) : Statement (.oscSetf u a) := fun h =>
  ⟨_, _, rfl, decodeHead_cmdWord (opc := 0x20) (u := u) (of_decide_eq_true rfl) (Instr.unit_lt h rfl) rfl nofun,
    rfl, rfl, fun _ => rfl⟩

theorem oscSets (u : Nat) (a : Word) : Statement (.oscSets u a) := fun h =>
  ⟨_, _, rfl, decodeHead_cmdWord (opc := 0x21) (u := u) (of_decide_eq_true rfl) (Instr.unit_lt h rfl) rfl nofun,
    rfl, rfl, fun _ => rfl⟩

theorem oscStep (u : Nat) : Statement (.oscStep u) := fun h =>
  ⟨_, _, rfl, decodeHead_cmdWord (opc := 0x22) (u := u) (of_decide_eq_true rfl) (Instr.unit_lt h rfl) rfl nofun,
    rfl, rfl, fun _ => rfl⟩

theorem oscTap (u : Nat) (a : Word) (b : Word) (c : Word) : Statement (.oscTap u a b c) := fun h =>
  ⟨_, _, rfl, decodeHead_cmdWord (opc := 0x23) (u := u) (of_decide_eq_true rfl) (Instr.unit_lt h rfl) rfl nofun,
    rfl, rfl, fun _ => rfl⟩

theorem oscRdpf (u : Nat) : Statement (.oscRdpf u) := fun h =>
  ⟨_, _, rfl, decodeHead_cmdWord (opc := 0x28) (u := u) (of_decide_eq_true rfl) (Instr.unit_lt h rfl) rfl nofun,
    rfl, rfl, fun _ => rfl⟩

theorem oscRdps (u : Nat) : Statement (.oscRdps u) := fun h =>
  ⟨_, _, rfl, decodeHead_cmdWord (opc := 0x29) (u := u) (of_decide_eq_true rfl) (Instr.unit_lt h rfl) rfl nofun,
    rfl, rfl, fun _ => rfl⟩

theorem oscRdif (u : Nat) : Statement (.oscRdif u) := fun h =>
  ⟨_, _, rfl, decodeHead_cmdWord (opc := 0x2A) (u := u) (of_decide_eq_true rfl) (Instr.unit_lt h rfl) rfl nofun,
    rfl, rfl, fun _ => rfl⟩

theorem oscRdis (u : Nat) : Statement (.oscRdis u) := fun h =>
  ⟨_, _, rfl, decodeHead_cmdWord (opc := 0x2B) (u := u) (of_decide_eq_true rfl) (Instr.unit_lt h rfl) rfl nofun,
    rfl, rfl, fun _ => rfl⟩

theorem dlWr (u : Nat) (a : Word) : Statement (.dlWr u a) := fun h =>
  ⟨_, _, rfl, decodeHead_cmdWord (opc := 0x30) (u := u) (of_decide_eq_true rfl) (Instr.unit_lt h rfl) rfl nofun,
    rfl, rfl, fun _ => rfl⟩

theorem dlRd (u : Nat) (a : Word) : Statement (.dlRd u a) := fun h =>
  ⟨_, _, rfl, decodeHead_cmdWord (opc := 0x31) (u := u) (of_decide_eq_true rfl) (Instr.unit_lt h rfl) rfl nofun,
    rfl, rfl, fun _ => rfl⟩

theorem dlRdwi (u : Nat) : Statement (.dlRdwi u) := fun h =>
  ⟨_, _, rfl, decodeHead_cmdWord (opc := 0x38) (u := u) (of_decide_eq_true rfl) (Instr.unit_lt h rfl) rfl nofun,
    rfl, rfl, fun _ => rfl⟩

theorem dlPeek (u : Nat) (a : Word) : Statement (.dlPeek u a) := fun h =>
  ⟨_, _, rfl, decodeHead_cmdWord (opc := 0x39) (u := u) (of_decide_eq_true rfl) (Instr.unit_lt h rfl) rfl nofun,
    rfl, rfl, fun _ => rfl⟩

theorem sat (a : Word) : Statement (.sat a) := fun _ =>
  ⟨_, _, rfl, decodeHead_cmdWord (opc := 0x40) (u := 0) (of_decide_eq_true rfl) (of_decide_eq_true rfl) rfl (fun _ => rfl),
    rfl, rfl, fun _ => rfl⟩

theorem smLoad (u : Nat) (a : Word) : Statement (.smLoad u a) := fun h =>
  ⟨_, _, rfl, decodeHead_cmdWord (opc := 0x50) (u := u) (of_decide_eq_true rfl) (Instr.unit_lt h rfl) rfl nofun,
    rfl, rfl, fun _ => rfl⟩

theorem smStep (u : Nat) (a : Word) : Statement (.smStep u a) := fun h =>
  ⟨_, _, rfl, decodeHead_cmdWord (opc := 0x51) (u := u) (of_decide_eq_true rfl) (Instr.unit_lt h rfl) rfl nofun,
    rfl, rfl, fun _ => rfl⟩

theorem smRd (u : Nat) : Statement (.smRd u) := fun h =>
  ⟨_, _, rfl, decodeHead_cmdWord (opc := 0x58) (u := u) (of_decide_eq_true rfl) (Instr.unit_lt h rfl) rfl nofun,
    rfl, rfl, fun _ => rfl⟩

end Sys2Proof.Laws.EncodedHead
end

