-- ==== Sys2Proof/Laws/Step.lean ====
section
/-! SUPPORT. What a step can do, said once: the cases of taking a command from the port. -/

namespace Sys2Proof.Machine

variable {s t : State} {i : Instr} {cmd : Word} {rest : List Word} {row : Row} {u : Nat}

theorem fetch_por (h : s.por = true) : fetch s = .settle s.powerOn := by
  simp [fetch, h]

theorem fetch_empty (hp : s.por = false) (hi : s.inbox = []) : fetch s = .settle s := by
  simp [fetch, hp, hi]

theorem fetch_faulted (hp : s.por = false) (hi : s.inbox = cmd :: rest) (hf : s.faulted = true) :
    fetch s = fetchFaulted cmd (s.tookCommand rest) := by
  simp [fetch, hp, hi, hf]

theorem fetch_command (hp : s.por = false) (hi : s.inbox = cmd :: rest) (hf : s.faulted = false) :
    fetch s = fetchCommand s cmd rest := by
  simp [fetch, hp, hi, hf]

theorem fetchCommand_illegal {e : Reject} (h : decodeHead cmd = .error e) :
    fetchCommand s cmd rest = .settle (raiseFault .illegal cmd (s.tookCommand rest)) := by
  simp only [fetchCommand, h]

theorem fetchCommand_badUnit (h : decodeHead cmd = .ok (row, u)) (hu : unitMissing s row.family u = true) :
    fetchCommand s cmd rest = .settle (raiseFault .badUnit cmd (s.tookCommand rest)) := by
  simp only [fetchCommand, h, hu, if_true]

theorem fetchCommand_run (h : decodeHead cmd = .ok (row, u)) (hu : unitMissing s row.family u = false)
    (hk : row.operands ≤ rest.length) :
    fetchCommand s cmd rest = .run (commandOf row u rest) (s.tookOperands rest row.operands) := by
  simp [fetchCommand, h, hu, operandsSent, hk]

theorem fetchCommand_wait (h : decodeHead cmd = .ok (row, u)) (hu : unitMissing s row.family u = false)
    (hk : rest.length < row.operands) : fetchCommand s cmd rest = .settle s := by
  simp [fetchCommand, h, hu, operandsSent, Nat.not_le.mpr hk]

theorem step_settle (h : fetch s = .settle t) : step s = .next t := by
  simp only [step, h]

theorem step_run (h : fetch s = .run i t) : step s = exec i t := by
  simp only [step, h]

/-- All that taking a command can do: the power-on reset, waiting, a word dropped or a status command run in the Faulted
state, a decoding fault, or a command run with its words taken. -/
theorem fetch_cases (s : State) :
    (s.por = true ∧ fetch s = .settle s.powerOn) ∨
    (s.por = false ∧ fetch s = .settle s) ∨
    (s.por = false ∧ ∃ cmd rest, s.inbox = cmd :: rest ∧ s.faulted = true ∧
      fetch s = fetchFaulted cmd (s.tookCommand rest)) ∨
    (s.por = false ∧ ∃ cmd rest c, s.inbox = cmd :: rest ∧ s.faulted = false ∧ (c = .illegal ∨ c = .badUnit) ∧
      fetch s = .settle (raiseFault c cmd (s.tookCommand rest))) ∨
    (s.por = false ∧ ∃ cmd rest row u, s.inbox = cmd :: rest ∧ s.faulted = false ∧ decodeHead cmd = .ok (row, u) ∧
      unitMissing s row.family u = false ∧ row.operands ≤ rest.length ∧
      fetch s = .run (commandOf row u rest) (s.tookOperands rest row.operands)) := by
  cases hp : s.por with
  | true => exact .inl ⟨rfl, fetch_por hp⟩
  | false =>
    refine .inr ?_
    cases hi : s.inbox with
    | nil => exact .inl ⟨rfl, fetch_empty hp hi⟩
    | cons cmd rest =>
      cases hf : s.faulted with
      | true => exact .inr (.inl ⟨rfl, cmd, rest, rfl, rfl, fetch_faulted hp hi hf⟩)
      | false =>
        have hfetch := fetch_command hp hi hf
        cases hd : decodeHead cmd with
        | error e =>
          exact .inr (.inr (.inl ⟨rfl, cmd, rest, .illegal, rfl, rfl, .inl rfl,
            hfetch.trans (fetchCommand_illegal hd)⟩))
        | ok p =>
          obtain ⟨row, u⟩ := p
          cases hu : unitMissing s row.family u with
          | true =>
            exact .inr (.inr (.inl ⟨rfl, cmd, rest, .badUnit, rfl, rfl, .inr rfl,
              hfetch.trans (fetchCommand_badUnit hd hu)⟩))
          | false =>
            rcases Nat.lt_or_ge rest.length row.operands with hk | hk
            · exact .inl ⟨rfl, hfetch.trans (fetchCommand_wait hd hu hk)⟩
            · exact .inr (.inr (.inr ⟨rfl, cmd, rest, row, u, rfl, rfl, hd, hu, hk,
                hfetch.trans (fetchCommand_run hd hu hk)⟩))

/-- All that a word can do in the Faulted state (60_exceptions.md R204). -/
theorem fetchFaulted_cases (cmd : Word) (s : State) :
    (cmd = 0x02000000#32 ∧ fetchFaulted cmd s = .run .statRd s) ∨
    (cmd = 0x03000000#32 ∧ fetchFaulted cmd s = .run .fcmdRd s) ∨
    (cmd ≠ 0x02000000#32 ∧ cmd ≠ 0x03000000#32 ∧ fetchFaulted cmd s = .settle s) := by
  by_cases h2 : cmd = 0x02000000#32
  · exact .inl ⟨h2, by simp [fetchFaulted, h2]⟩
  · by_cases h3 : cmd = 0x03000000#32
    · exact .inr (.inl ⟨h3, by simp [fetchFaulted, h3]⟩)
    · exact .inr (.inr ⟨h2, h3, by simp [fetchFaulted, h2, h3]⟩)

end Sys2Proof.Machine
end

