-- ==== Sys2Proof/Tests/Slice0.lean ====
section
/-! SUPPORT. Tests on fixed values. Every expected result is written out from the spec: a row of the opcode map
(30_encoding.md R85), a vector of 95_test_vectors.md, or a corner case of the command's own rule. -/

namespace Sys2Proof.Tests

open Sys2Proof Sys2Proof.Machine

/-! ## Well-formedness refuses what has no encoding (30_encoding.md R81; 00_scope.md R5, R6; 20_memory.md R63) -/

theorem test_unit_255_is_well_formed : (Instr.filtProc 255 0#32).wellFormed = true := by decide
theorem test_filter_256_is_ill_formed : (Instr.filtCfg 256 0#32 0#32 0#32).wellFormed = false := by decide
theorem test_osc_256_is_ill_formed : (Instr.oscStep 256).wellFormed = false := by decide
theorem test_delay_256_is_ill_formed : (Instr.dlPeek 256 0#32).wellFormed = false := by decide
theorem test_smoother_300_is_ill_formed : (Instr.smRd 300).wellFormed = false := by decide
theorem test_257_filters_are_ill_formed : ¬ Params.wf { nf := 257, no := 0, capLog2 := [], ns := 0 } := by decide
theorem test_257_pairs_are_ill_formed : ¬ Params.wf { nf := 0, no := 257, capLog2 := [], ns := 0 } := by decide
theorem test_257_smoothers_are_ill_formed : ¬ Params.wf { nf := 0, no := 0, capLog2 := [], ns := 257 } := by decide
theorem test_257_lines_are_ill_formed :
    ¬ Params.wf { nf := 0, no := 0, capLog2 := List.replicate 257 3, ns := 0 } := fun h =>
  absurd (List.length_replicate ▸ h.2.2.1) (by decide)
theorem test_capacity_log_0_is_ill_formed : ¬ Params.wf { nf := 0, no := 0, capLog2 := [0], ns := 0 } := by decide
theorem test_capacity_log_32_is_ill_formed : ¬ Params.wf { nf := 0, no := 0, capLog2 := [3, 32], ns := 0 } := by decide
theorem test_reference_params_are_well_formed : referenceParams.wf := by decide
theorem test_equal_lanes_are_ill_formed : ¬ ByteLanes.wf { lane0 := 0, lane1 := 1, lane2 := 2, lane3 := 1 } := by decide

/-! ## Decoding: the words of 30_encoding.md R85 and 95_test_vectors.md section 8 -/

theorem test_decode_act : decode [0x01000000#32] = .ok (.act, []) := by decide
theorem test_decode_statRd : decode [0x02000000#32] = .ok (.statRd, []) := by decide
theorem test_decode_fcmdRd : decode [0x03000000#32] = .ok (.fcmdRd, []) := by decide
theorem test_decode_filtCfg : decode [0x10000000#32, 0x463B8000#32, 0x3F800000#32, 0x473B8000#32] =
    .ok (.filtCfg 0 0x463B8000#32 0x3F800000#32 0x473B8000#32, []) := by decide
theorem test_decode_filtProc : decode [0x11020000#32, 0x3F800000#32, 9#32] =
    .ok (.filtProc 2 0x3F800000#32, [9#32]) := by decide
theorem test_decode_filtRdz1 : decode [0x18FF0000#32] = .ok (.filtRdz1 255, []) := by decide
theorem test_decode_filtRdz2 : decode [0x19010000#32] = .ok (.filtRdz2 1, []) := by decide
theorem test_decode_filtRdc1 : decode [0x1A800000#32] = .ok (.filtRdc1 128, []) := by decide
theorem test_decode_filtRdc2 : decode [0x1B000000#32] = .ok (.filtRdc2 0, []) := by decide
theorem test_decode_filtRdd0 : decode [0x1C030000#32] = .ok (.filtRdd0 3, []) := by decide
theorem test_decode_oscSetf : decode [0x20000000#32, 0x3F000000#32] = .ok (.oscSetf 0 0x3F000000#32, []) := by decide
theorem test_decode_oscSets : decode [0x21010000#32, 0x3E000000#32] = .ok (.oscSets 1 0x3E000000#32, []) := by decide
theorem test_decode_oscStep : decode [0x22040000#32] = .ok (.oscStep 4, []) := by decide
theorem test_decode_oscTap : decode [0x23000000#32, 0x40060A92#32, 0x3F800000#32, 0x3F000000#32] =
    .ok (.oscTap 0 0x40060A92#32 0x3F800000#32 0x3F000000#32, []) := by decide
theorem test_decode_oscRdpf : decode [0x28000000#32] = .ok (.oscRdpf 0, []) := by decide
theorem test_decode_oscRdps : decode [0x29020000#32] = .ok (.oscRdps 2, []) := by decide
theorem test_decode_oscRdif : decode [0x2A000000#32] = .ok (.oscRdif 0, []) := by decide
theorem test_decode_oscRdis : decode [0x2B400000#32] = .ok (.oscRdis 64, []) := by decide
theorem test_decode_dlWr : decode [0x30000000#32, 0x40A00000#32] = .ok (.dlWr 0 0x40A00000#32, []) := by decide
theorem test_decode_dlRd : decode [0x31010000#32, 0x3FC00000#32] = .ok (.dlRd 1 0x3FC00000#32, []) := by decide
theorem test_decode_dlRdwi : decode [0x38000000#32] = .ok (.dlRdwi 0, []) := by decide
theorem test_decode_dlPeek : decode [0x39010000#32, 0x00000007#32] = .ok (.dlPeek 1 7#32, []) := by decide
theorem test_decode_sat : decode [0x40000000#32, 0x3F800000#32] = .ok (.sat 0x3F800000#32, []) := by decide
theorem test_decode_smLoad : decode [0x50000000#32, 0x40000000#32] = .ok (.smLoad 0 0x40000000#32, []) := by decide
theorem test_decode_smStep : decode [0x51050000#32, 0x40400000#32] = .ok (.smStep 5 0x40400000#32, []) := by decide
theorem test_decode_smRd : decode [0x58FE0000#32] = .ok (.smRd 254, []) := by decide

theorem test_decode_zero_word : decode [0#32] = .error (.reservedOpcode 0) := by decide
theorem test_decode_reserved_opcode : decode [0x12000000#32] = .error (.reservedOpcode 0x12) := by decide
theorem test_decode_last_opcode : decode [0xFF000000#32] = .error (.reservedOpcode 0xFF) := by decide
theorem test_decode_nonzero_reserved_field : decode [0x11000001#32, 0#32] = .error (.nonzeroReserved 1) := by decide
theorem test_decode_reserved_field_top_bit : decode [0x01008000#32] = .error (.nonzeroReserved 0x8000) := by decide
theorem test_decode_sat_with_unit : decode [0x40010000#32, 0#32] = .error (.nonzeroUnit 1) := by decide
theorem test_decode_act_with_unit : decode [0x01800000#32] = .error (.nonzeroUnit 128) := by decide
theorem test_decode_no_word : decode [] = .error .noCommandWord := by decide
theorem test_decode_missing_operands : decode [0x10000000#32, 1#32] = .error (.missingOperands 2) := by decide

theorem test_encode_filtProc : encode (.filtProc 2 0x3F800000#32) = [0x11020000#32, 0x3F800000#32] := by decide
theorem test_encode_oscTap : encode (.oscTap 255 1#32 2#32 3#32) = [0x23FF0000#32, 1#32, 2#32, 3#32] := by decide

/-- The program words of P2 up to its first read (95_test_vectors.md section 8). -/
theorem test_encode_program : encodeAll [.act, .dlWr 0 0x3F800000#32, .dlRd 0 0x3FC00000#32, .dlRdwi 0] =
    [0x01000000#32, 0x30000000#32, 0x3F800000#32, 0x31000000#32, 0x3FC00000#32, 0x38000000#32] := by decide

/-- With the lane of bits 7:0 at the lowest address (20_memory.md R63). -/
theorem test_decode_bytes_lane0_first :
    decodeBytes { lane0 := 0, lane1 := 1, lane2 := 2, lane3 := 3 } [0x00, 0x00, 0x02, 0x18] =
      .ok (.filtRdz1 2, []) := by decide

/-- With the lane of bits 31:24 at the lowest address (20_memory.md R63). -/
theorem test_decode_bytes_lane3_first :
    decodeBytes { lane0 := 3, lane1 := 2, lane2 := 1, lane3 := 0 } [0x40, 0x00, 0x00, 0x00, 0x3F, 0x80, 0x00, 0x00] =
      .ok (.sat 0x3F800000#32, []) := by decide

/-- A result word leaves by the same lanes (20_memory.md R63, 30_encoding.md R80): 1.0 with bits 7:0 lowest, then highest. -/
theorem test_result_bytes_lane0_first :
    { State.reset with outbox := [0x3F800000#32] }.resultBytes { lane0 := 0, lane1 := 1, lane2 := 2, lane3 := 3 } =
      [0x00, 0x00, 0x80, 0x3F] := by decide
theorem test_result_bytes_lane3_first :
    { State.reset with outbox := [0x3F800102#32] }.resultBytes { lane0 := 3, lane1 := 2, lane2 := 1, lane3 := 0 } =
      [0x3F, 0x80, 0x01, 0x02] := by decide

theorem test_decodeTableWord_act : decodeTableWord 32 0x01000000 = some .act := by decide
theorem test_decodeTableWord_missing_operands :
    decodeTableWord 32 0x23000000 = some (.oscTap 0 0#32 0#32 0#32) := by decide
theorem test_decodeTableWord_with_operand :
    decodeTableWord 64 (0x30010000 + 0x3F800000 * 2 ^ 32) = some (.dlWr 1 0x3F800000#32) := by decide
theorem test_decodeTableWord_illegal : decodeTableWord 32 0x00000000 = none := by decide

/-! ## The assembler (30_encoding.md R89, R90) -/

/-- The literal `nan`, which is any NaN. -/
def someNaN : F32 := 0x7FC00000#32

theorem test_assemble_filtCfg : assembleLine someNaN "FILT.CFG u0, 1000.0, 0.70710678, 48000.0".toList =
    .ok [.filtCfg 0 0x447A0000#32 0x3F3504F3#32 0x473B8000#32] := by decide
theorem test_assemble_sat : assembleLine someNaN "SAT 1.5".toList = .ok [.sat 0x3FC00000#32] := by decide
theorem test_assemble_raw_bits :
    assembleLine someNaN "DL.WR u0, 0x3F124925 ; stored as given".toList = .ok [.dlWr 0 0x3F124925#32] := by decide
theorem test_assemble_peek : assembleLine someNaN "DL.PEEK u1, 7".toList = .ok [.dlPeek 1 7#32] := by decide
theorem test_assemble_infinity : assembleLine someNaN "DL.RD u0, -inf".toList = .ok [.dlRd 0 0xFF800000#32] := by decide
theorem test_assemble_stepless_comment : assembleLine someNaN " ; nothing".toList = .ok [] := by decide
theorem test_assemble_forbidden_unit : assembleLine someNaN "SAT u0, 1.0".toList = .error .badOperand := by decide
theorem test_assemble_missing_unit : assembleLine someNaN "OSC.STEP".toList = .error .badUnit := by decide
theorem test_assemble_unit_256 : assembleLine someNaN "SM.RD u256".toList = .error .badUnit := by decide
theorem test_assemble_block : assembleLine someNaN "FILT.BLOCK u2, 1.0, 0.0".toList =
    .ok [.filtProc 2 0x3F800000#32, .filtProc 2 0#32] := by decide
theorem test_assemble_empty_block : assembleLine someNaN "FILT.BLOCK u2".toList = .ok [] := by decide
theorem test_assemble_integer_delay : assembleLine someNaN "DL.RDI u0, 5".toList = .ok [.dlRd 0 0x40A00000#32] := by decide
theorem test_assemble_integer_delay_too_large :
    assembleLine someNaN "DL.RDI u0, 16777216".toList = .error .badOperand := by decide
theorem test_assemble_both_increments : assembleLine someNaN "OSC.SET u0, 0.5, 0.125".toList =
    .ok [.oscSetf 0 0x3F000000#32, .oscSets 0 0x3E000000#32] := by decide

/-! ## Reset and the port (70_reset_and_hazards.md R230, 60_exceptions.md R202 to R207; 95_test_vectors.md section 7) -/

/-- The state a step leaves, the given one where it leaves none. -/
def after (o : Outcome) : State :=
  match o with
  | .next t => t
  | _ => State.reset

/-- STATUS and FCMD after a step from power-on reset, ACT given, with the given words sent. -/
def statusAfter (act : Bool) (ws : List Word) : Word × Word :=
  let t := after (step { State.reset with act := act, inbox := ws })
  (statusWord t, t.fcmd)

theorem test_reset_status : statusWord State.reset = 0#32 ∧ State.reset.fcmd = 0#32 := by decide
theorem test_reset_memory_is_canonical : ∀ d ∈ State.reset.delays, d.ring.wf := by decide
theorem test_step_zero_word : statusAfter false [0#32] = (0x00000102#32, 0#32) := by decide
theorem test_step_reserved_opcode : statusAfter false [0x12000000#32] = (0x00000102#32, 0x12000000#32) := by decide
theorem test_step_nonzero_reserved : statusAfter true [0x11000001#32] = (0x00000103#32, 0x11000001#32) := by decide
theorem test_step_sat_with_unit : statusAfter true [0x40010000#32] = (0x00000103#32, 0x40010000#32) := by decide
theorem test_step_bad_unit_before_not_active :
    statusAfter false [0x11010000#32, 0x3F800000#32] = (0x00000202#32, 0x11010000#32) := by decide
theorem test_step_not_active_before_unconfigured :
    statusAfter false [0x11000000#32, 0x3F800000#32] = (0x00000302#32, 0x11000000#32) := by decide
theorem test_step_unconfigured :
    statusAfter true [0x11000000#32, 0x3F800000#32] = (0x00000403#32, 0x11000000#32) := by decide
theorem test_step_bad_delay : statusAfter true [0x31000000#32, 0x7FC00001#32] = (0x00000503#32, 0x31000000#32) := by decide
theorem test_step_infinite_delay :
    statusAfter true [0x31000000#32, 0x7F800000#32] = (0x00000503#32, 0x31000000#32) := by decide
theorem test_step_not_active_before_bad_delay :
    statusAfter false [0x31000000#32, 0x7FC00000#32] = (0x00000302#32, 0x31000000#32) := by decide

/-- A decoding fault takes the command word alone; the operand word stays to be read as a command word (R207). -/
theorem test_step_framing_after_bad_unit :
    (after (step { State.reset with inbox := [0x11010000#32, 0x02000000#32] })).inbox = [0x02000000#32] := by decide

/-- That operand word then returns STATUS (R207). -/
theorem test_step_operand_word_read_as_command :
    (after (step { State.reset with faulted := true, cause := 1, fcmd := 0x12000000#32, inbox := [0x02000000#32] })).outbox =
      [0x00000102#32] := by decide

/-- ACT is dropped in the Faulted state (R204). -/
theorem test_step_act_dropped_when_faulted :
    (after (step { State.reset with faulted := true, cause := 3, fcmd := 0x11000000#32, inbox := [0x01000000#32] })).act =
      false := by decide

/-- A fault after decoding has taken the operand words (R207). -/
theorem test_step_framing_after_not_active :
    (after (step { State.reset with inbox := [0x11000000#32, 0x3F800000#32, 7#32] })).inbox = [7#32] := by decide

theorem test_power_on_reset_clears_a_fault :
    statusWord (after (step { State.reset with act := true, faulted := true, cause := 5, por := true })) = 0#32 := by decide

theorem test_withFetchWord_runs_next :
    (after (step (State.reset.withFetchWord 32 0x50000000))).smoothers = [{ y := 0#32, vy := true }] := by decide

/-! ## One command each (95_test_vectors.md sections 2 to 6)

`TAN32` and `SIN32` have no body, so the vectors that need them run the formula with the value the vector used. -/

/-- NaN draws for the tests. -/
def draws : Nat → F32 := fun _ => someNaN

/-- Binary32 arithmetic in which `TAN32` and `SIN32` give the values a vector used. -/
def arithWith (tanUsed : F32) (sinUsed : F32 → F32) : Arith F32 :=
  { binary32 draws with tan := fun _ => tanUsed, sin := sinUsed }

/-- An Active unit with one filter in a given state. -/
def withFilter (f : FilterRegs) : State := { State.reset with act := true, filters := [f] }

/-- An Active unit with one oscillator pair in a given state. -/
def withOsc (o : OscRegs) : State := { State.reset with act := true, oscs := [o] }

/-- An Active unit with one delay line in a given state. -/
def withDelay (d : DelayLine) : State := { State.reset with act := true, delays := [d] }

/-- An Active unit with one smoother that holds a value. -/
def withSmoother (y : F32) : State := { State.reset with act := true, smoothers := [{ y := y, vy := true }] }

/-- A configured pair at phases 0 with given increments. -/
def pair (incf incs : F32) : OscRegs := { pf := 0#32, ps := 0#32, incf := incf, incs := incs, vf := true, vs := true }

/-- The coefficients of row 2 of section 2.1 with a given memory. -/
def quarter (z1 z2 : F32) : FilterRegs :=
  { z1 := z1, z2 := z2, c1 := 0x40000000#32, c2 := 0x3F2AAAAB#32, d0 := 0x3EAAAAAB#32, cv := true }

/-- The line of section 4.1: capacity 8, after the writes 1 to 5. -/
def fiveWritten : DelayLine :=
  { capLog2 := 3, wi := 5#32, ring := [(0, 0x3F800000#32), (1, 0x40000000#32), (2, 0x40400000#32), (3, 0x40800000#32),
      (4, 0x40A00000#32)] }

theorem test_act_zeroes :
    after (exec .act { State.reset with
      filters := [quarter 1#32 2#32], oscs := [{ pair 3#32 4#32 with pf := 5#32, ps := 6#32 }], delays := [fiveWritten] }) =
      { State.reset with
        act := true, filters := [quarter 0#32 0#32], oscs := [pair 3#32 4#32], delays := [DelayLine.reset 3] } := by decide
theorem test_act_keeps_the_smoother : (after (exec .act (withSmoother 7#32))).smoothers = [{ y := 7#32, vy := true }] := by
  decide

theorem test_statRd_bits :
    (after (exec .statRd { State.reset with act := true, faulted := true, cause := 5 })).outbox = [0x00000503#32] := by decide
theorem test_fcmdRd :
    (after (exec .fcmdRd { State.reset with faulted := true, fcmd := 0x31000000#32 })).outbox = [0x31000000#32] := by decide

/-- Row 1 of section 2.1. -/
theorem test_filtCfg_1000_hz :
    filterCoefficients (arithWith 0x3D863BA7#32 id) 0x447A0000#32 0x3F3504F3#32 0x473B8000#32 =
      (0x3E3D173A#32, 0x3DADBB0A#32, 0x3B8052DA#32) := by decide

/-- The Nyquist row of section 2.1. -/
theorem test_filtCfg_nyquist :
    filterCoefficients (arithWith 0xCBAE8A4A#32 id) 0x46BB8000#32 0x3F800000#32 0x473B8000#32 =
      (0x40800001#32, 0x3F800000#32, 0x3F800001#32) := by decide

/-- Row 2 of section 2.2. -/
theorem test_filtProc_impulse :
    (after (exec (.filtProc 0 0#32) (withFilter (quarter 0xC0000000#32 0x3FAAAAAB#32)))).filters =
      [quarter 0xBF2AAAAC#32 0#32] := by decide
theorem test_filtProc_output :
    (after (exec (.filtProc 0 0#32) (withFilter (quarter 0xC0000000#32 0x3FAAAAAB#32)))).outbox = [0x3E638E38#32] := by
  decide

theorem test_filtRdz1 : (after (exec (.filtRdz1 0) (withFilter (quarter 1#32 2#32)))).outbox = [1#32] := by decide
theorem test_filtRdz2 : (after (exec (.filtRdz2 0) (withFilter (quarter 1#32 2#32)))).outbox = [2#32] := by decide
theorem test_filtRdc1 : (after (exec (.filtRdc1 0) (withFilter (quarter 1#32 2#32)))).outbox = [0x40000000#32] := by decide
theorem test_filtRdc2 : (after (exec (.filtRdc2 0) (withFilter (quarter 1#32 2#32)))).outbox = [0x3F2AAAAB#32] := by decide
theorem test_filtRdd0 : (after (exec (.filtRdd0 0) (withFilter (quarter 1#32 2#32)))).outbox = [0x3EAAAAAB#32] := by decide
theorem test_filtRdc1_before_act :
    (after (exec (.filtRdc1 0) { State.reset with filters := [quarter 1#32 2#32] })).outbox = [0x40000000#32] := by decide

theorem test_oscSetf : (after (exec (.oscSetf 0 0x3F000000#32) State.reset)).oscs =
    [{ OscRegs.reset with incf := 0x3F000000#32, vf := true }] := by decide
theorem test_oscSets : (after (exec (.oscSets 0 0x3E000000#32) State.reset)).oscs =
    [{ OscRegs.reset with incs := 0x3E000000#32, vs := true }] := by decide

/-- Row 1 of section 3.1: 9.0 is wrapped once; the other phase stays. -/
theorem test_oscStep_wraps :
    (after (exec (.oscStep 0) (withOsc { pair 0x40400000#32 0#32 with pf := 0x40C00000#32 }))).outbox =
      [0x402DE04A#32, 0#32] := by decide

/-- A phase that lands on a full turn is kept (R142); a negative increment is not wrapped. -/
theorem test_oscStep_keeps_one_turn :
    (after (exec (.oscStep 0) (withOsc (pair 0x40C90FDB#32 0xBF800000#32)))).outbox = [0x40C90FDB#32, 0xBF800000#32] := by
  decide

/-- Row 3 of section 3.2. -/
theorem test_oscTap :
    modulation (arithWith 0#32 fun a => if a = 0x3F800000#32 then 0x3F576AA4#32 else 0x3F68C7B7#32)
      0x3F800000#32 0x40000000#32 0#32 0x3E800000#32 0x3F400000#32 = 0x3F647072#32 := by decide

theorem test_oscRdpf : (after (exec (.oscRdpf 0) (withOsc { pair 3#32 4#32 with pf := 1#32, ps := 2#32 }))).outbox = [1#32] := by
  decide
theorem test_oscRdps : (after (exec (.oscRdps 0) (withOsc { pair 3#32 4#32 with pf := 1#32, ps := 2#32 }))).outbox = [2#32] := by
  decide
theorem test_oscRdif : (after (exec (.oscRdif 0) (withOsc (pair 3#32 4#32)))).outbox = [3#32] := by decide
theorem test_oscRdis : (after (exec (.oscRdis 0) (withOsc (pair 3#32 4#32)))).outbox = [4#32] := by decide

theorem test_dlWr_wraps :
    (after (exec (.dlWr 0 0x3F800000#32) (withDelay { capLog2 := 3, wi := 7#32, ring := [(7, 9#32)] }))).delays =
      [{ capLog2 := 3, wi := 0#32, ring := [(7, 0x3F800000#32)] }] := by decide
theorem test_dlWr_stores_zero :
    (after (exec (.dlWr 0 0#32) (withDelay { fiveWritten with wi := 3#32 }))).delays =
      [{ fiveWritten with wi := 4#32, ring := [(0, 0x3F800000#32), (1, 0x40000000#32), (2, 0x40400000#32),
        (4, 0x40A00000#32)] }] := by decide
theorem test_dlRd_fraction : (after (exec (.dlRd 0 0x40B00000#32) (withDelay fiveWritten))).outbox = [0x3F000000#32] := by decide
theorem test_dlRd_beyond_the_word : (after (exec (.dlRd 0 0x501502F9#32) (withDelay { fiveWritten with wi := 4#32 }))).outbox =
    [0x40A00000#32] := by decide

/-- The limits of section 4.3: a fraction that rounds to 1.0, and a difference that overflows. -/
theorem test_delayFrac_rounds : delayFrac someNaN 0xB0800000#32 = 0x3F800000#32 := by decide
theorem test_interpolate_overflow :
    F32.isNaN (interpolate (binary32 draws) 0xFF61B1E6#32 0x7F61B1E6#32 0#32) = true := by decide

theorem test_dlRdwi : (after (exec (.dlRdwi 0) (withDelay fiveWritten))).outbox = [5#32] := by decide
theorem test_dlPeek_masks : (after (exec (.dlPeek 0 12#32) (withDelay fiveWritten))).outbox = [0x40A00000#32] := by decide

theorem test_sat_one : (after (exec (.sat 0x3F800000#32) State.reset)).outbox = [0x3F124925#32] := by decide
theorem test_sat_large : (after (exec (.sat 0x4B800000#32) State.reset)).outbox = [0x3F800000#32] := by decide
theorem test_saturate_least_subnormal : saturate (binary32 draws) 1#32 = 1#32 := by decide

theorem test_smLoad : (after (exec (.smLoad 0 0x7FC00001#32) State.reset)).smoothers = [{ y := 0x7FC00001#32, vy := true }] := by
  decide
theorem test_smStep : (after (exec (.smStep 0 0x3C23D70A#32) (withSmoother 0x3E800000#32))).outbox = [0x3E7FFCDB#32] := by decide
theorem test_smStep_stalls :
    (after (exec (.smStep 0 0x3F800001#32) (withSmoother 0x3F800000#32))).smoothers = [{ y := 0x3F800000#32, vy := true }] := by
  decide
theorem test_smRd : (after (exec (.smRd 0) { withSmoother 5#32 with act := false })).outbox = [5#32] := by decide

/-! ## Witnesses: concrete values that meet all hypotheses of a statement together, one for each clause -/

theorem witness_DecodeInvertsEncode : (Instr.oscTap 255 1#32 2#32 3#32).wellFormed = true := by decide

theorem witness_EncodeInvertsDecode : decode [0x58FF0000#32, 4#32] = .ok (.smRd 255, [4#32]) := by decide

/-- The reserved opcodes of R87 are exactly those the opcode map does not list. -/
theorem test_reserved_or_listed (n : Nat) (h : n < 256) : reservedOpcode n ↔ n ∉ listedOpcodes := by
  simp only [reservedOpcode, listedOpcodes, List.mem_cons, List.not_mem_nil, or_false]
  omega

/-- The first and the last opcode of each reserved range. -/
theorem witness_RejectedWordsFault_reserved :
    ∀ n ∈ [0x00, 0x04, 0x0F, 0x12, 0x17, 0x1D, 0x1F, 0x24, 0x27, 0x2C, 0x2F, 0x32, 0x37, 0x3A, 0x3F, 0x41, 0x4F, 0x52,
      0x57, 0x59, 0xFF], reservedOpcode n := by
  intro n hn
  simp only [List.mem_cons, List.not_mem_nil, or_false] at hn
  unfold reservedOpcode
  omega

/-- A unit with the words of one command in the port's queue. -/
def sent (ws : List Word) : State := { State.reset with inbox := ws }

theorem witness_RejectedWordsFault_fields :
    (sent [0x0100FFFF#32]).por = false ∧ (sent [0x0100FFFF#32]).faulted = false ∧
    (0x01000001#32 : Word).toNat % 2 ^ 16 ≠ 0 ∧ (0x40FF0000#32 : Word).toNat / 2 ^ 24 = 0x40 ∧
    (0x40FF0000#32 : Word).toNat / 2 ^ 16 % 2 ^ 8 ≠ 0 := by decide

/-- The first unit that does not exist, and the last one the field can name. -/
theorem witness_RejectedWordsFault_unit :
    (∃ row, decodeHead 0x11010000#32 = .ok (row, 1) ∧ row.family = some .filt ∧ State.reset.count .filt ≤ 1) ∧
    (∃ row, decodeHead 0x51FF0000#32 = .ok (row, 255) ∧ row.family = some .sm ∧ State.reset.count .sm ≤ 255) :=
  ⟨⟨_, rfl, rfl, by decide⟩, ⟨_, rfl, rfl, by decide⟩⟩

theorem witness_StepRunsDecodedCommand :
    (sent [0x50000000#32, 1#32]).por = false ∧ (sent [0x50000000#32, 1#32]).faulted = false ∧
    decode (sent [0x50000000#32, 1#32]).inbox = .ok (.smLoad 0 1#32, []) ∧
    unitExists (.smLoad 0 1#32) (sent [0x50000000#32, 1#32]) = true := by decide

theorem witness_StepWaitsForWords :
    State.reset.por = false ∧ State.reset.inbox = [] ∧
    (∃ row, decodeHead 0x10000000#32 = .ok (row, 0) ∧ (∀ f, row.family = some f → 0 < State.reset.count f) ∧
      [1#32, 2#32].length < row.operands) :=
  ⟨rfl, rfl, _, rfl, fun f h => by cases h; decide, by decide⟩

/-- A Faulted unit with one word in the port's queue. -/
def faultedWith (w : Word) : State :=
  { State.reset with faulted := true, cause := 3, fcmd := 0x11000000#32, inbox := [w] }

/-- Whatever the word: STAT.RD, FCMD.RD or another. -/
theorem witness_FaultedStateDropsWords (w : Word) :
    (faultedWith w).por = false ∧ (faultedWith w).faulted = true ∧ (faultedWith w).inbox = [w] := ⟨rfl, rfl, rfl⟩

theorem witness_FaultedRunsChangeNoState :
    (faultedWith 0x01000000#32).por = false ∧ (faultedWith 0x01000000#32).faulted = true := by decide

theorem witness_OnlyPowerOnResetLeavesFaulted :
    step (faultedWith 1#32).hostReset = .next (faultedWith 1#32).hostReset.powerOn ∧
    (faultedWith 1#32).hostReset.faulted = true ∧ (faultedWith 1#32).hostReset.powerOn.faulted = false := ⟨rfl, rfl, rfl⟩

theorem witness_LaterWordsDoNotChangeAStep :
    step (sent [0x01000000#32]) = .next (after (step (sent [0x01000000#32]))) ∧
    after (step (sent [0x01000000#32])) ≠ sent [0x01000000#32] := ⟨rfl, by decide⟩

theorem witness_PowerOnResetIsTakenFirst : State.reset.hostReset.por = true := rfl

theorem witness_BootSequenceReadsStatusOne :
    ∀ c ∈ [Instr.filtCfg 0 1#32 2#32 3#32, .oscSetf 0 1#32, .oscSets 0 1#32, .smLoad 0 1#32],
      loads c = true ∧ c.wellFormed = true ∧ unitExists c (State.resetWith referenceParams) = true := by decide

/-- Each cause of a decoded command, where it is the first check that fails, and a command with none. -/
theorem witness_ChecksComeInOrder :
    firstFault (.filtProc 1 0#32) State.reset = some .badUnit ∧
    firstFault (.filtProc 0 0#32) State.reset = some .notActive ∧
    firstFault (.filtProc 0 0#32) (withFilter FilterRegs.reset) = some .unconfigured ∧
    firstFault (.dlRd 0 0x7F800000#32) (withDelay fiveWritten) = some .badDelay ∧
    firstFault (.dlRd 0 0x7F7FFFFF#32) (withDelay fiveWritten) = none ∧ State.reset.faulted = false ∧
    (withFilter FilterRegs.reset).faulted = false ∧ (withDelay fiveWritten).faulted = false := by decide

theorem witness_FaultEntryWritesOnlyStatus :
    (sent [0x11000000#32, 1#32]).faulted = false ∧
    step (sent [0x11000000#32, 1#32]) = .next (after (step (sent [0x11000000#32, 1#32]))) ∧
    (after (step (sent [0x11000000#32, 1#32]))).faulted = true := ⟨rfl, rfl, by decide⟩

theorem witness_OperandValuesNeverFault :
    (Instr.sat 1#32).commandWord = (Instr.sat 0x7FC00000#32).commandWord ∧ (Instr.sat 1#32).wellFormed = true ∧
    (∀ u d, Instr.sat 1#32 ≠ .dlRd u d) ∧ (∃ t, exec (.sat 1#32) State.reset = .next t) ∧
    (∃ t, exec (.sat 0x7FC00000#32) State.reset = .next t) := ⟨by decide, by decide, nofun, ⟨_, rfl⟩, ⟨_, rfl⟩⟩

theorem witness_ResultWordsMatchTheOpcodeMap :
    (Instr.oscStep 0).wellFormed = true ∧ (∃ t, exec (.oscStep 0) (withOsc (pair 1#32 2#32)) = .next t ∧ t.faulted = false) ∧
    (∃ t, exec (.oscStep 1) (withOsc (pair 1#32 2#32)) = .next t ∧ t.faulted = true) :=
  ⟨by decide, ⟨_, rfl, rfl⟩, ⟨_, rfl, rfl⟩⟩

theorem witness_StepKeepsTheStateLegal : (withDelay fiveWritten).wf ∧ ∃ t, step (withDelay fiveWritten) = .next t :=
  ⟨by decide, _, rfl⟩

theorem witness_ResetIsLegal : referenceParams.wf ∧
    Params.wf { nf := 256, no := 0, capLog2 := [1, 31], ns := 256 } := by decide

theorem witness_CapacitiesNeverChange : ∃ t, step (sent [0x01000000#32]) = .next t := ⟨_, rfl⟩

theorem witness_ConfiguredBitsAreNeverCleared :
    (withOsc (pair 1#32 2#32)).por = false ∧ (∃ t, step (withOsc (pair 1#32 2#32)) = .next t) ∧
    (withOsc (pair 1#32 2#32)).oscs[0]? = some (pair 1#32 2#32) ∧
    (withFilter (quarter 1#32 2#32)).filters[0]? = some (quarter 1#32 2#32) ∧
    (withSmoother 1#32).smoothers[0]? = some { y := 1#32, vy := true } := ⟨rfl, ⟨_, rfl⟩, rfl, rfl, rfl⟩

/-- Two different states that agree on all that is not unspecified. -/
theorem witness_UnspecifiedDataIsNeverSeen :
    sameDefined State.reset { State.reset with
      filters := [{ FilterRegs.reset with z1 := 1#32, c2 := 2#32 }], delays := [{ DelayLine.reset 3 with wi := 7#32 }],
      smoothers := [{ y := 3#32, vy := false }] } ∧ step State.reset = .next State.reset :=
  ⟨⟨rfl, rfl, rfl, rfl, rfl, rfl, rfl, rfl, .cons ⟨rfl, nofun, nofun⟩ .nil, .cons ⟨rfl, rfl, nofun, nofun, nofun⟩ .nil,
    .cons ⟨rfl, nofun⟩ .nil, .cons ⟨rfl, nofun⟩ .nil⟩, rfl⟩

theorem witness_UnitsAreIndependent :
    let s := { withFilter (quarter 1#32 2#32) with smoothers := [{ y := 9#32, vy := true }] }
    let s' := withFilter (quarter 1#32 2#32)
    family? (.filtProc 0 5#32) = some .filt ∧ (Instr.filtProc 0 5#32).unit? = some 0 ∧ s.act = s'.act ∧
    s.faulted = s'.faulted ∧ s.draws = s'.draws ∧ unitRegs s .filt 0 = unitRegs s' .filt 0 ∧
    (∃ t, exec (.filtProc 0 5#32) s = .next t) ∧ (∃ t, exec (.filtProc 0 5#32) s' = .next t) :=
  ⟨rfl, rfl, rfl, rfl, rfl, rfl, ⟨_, rfl⟩, ⟨_, rfl⟩⟩

theorem witness_ReadsWriteNothing :
    writesNothing (.dlRd 0 0x3F800000#32) = true ∧
    ∃ t, exec (.dlRd 0 0x3F800000#32) (withDelay fiveWritten) = .next t ∧ t.faulted = false := ⟨rfl, _, rfl, rfl⟩

theorem witness_FilterCommandsFrame :
    (∃ t, exec (.filtCfg 0 1#32 2#32 3#32) (withFilter (quarter 1#32 2#32)) = .next t ∧ t.faulted = false) ∧
    (∃ t, exec (.filtProc 0 1#32) (withFilter (quarter 1#32 2#32)) = .next t ∧ t.faulted = false) :=
  ⟨⟨_, rfl, rfl⟩, ⟨_, rfl, rfl⟩⟩

theorem witness_OscillatorCommandsFrame :
    (∃ t, exec (.oscSetf 0 1#32) (withOsc OscRegs.reset) = .next t ∧ t.faulted = false) ∧
    (∃ t, exec (.oscSets 0 1#32) (withOsc OscRegs.reset) = .next t ∧ t.faulted = false) ∧
    (∃ t, exec (.oscStep 0) (withOsc (pair 1#32 2#32)) = .next t ∧ t.faulted = false) :=
  ⟨⟨_, rfl, rfl⟩, ⟨_, rfl, rfl⟩, ⟨_, rfl, rfl⟩⟩

/-- At the last slot of the ring. -/
theorem witness_DelayWriteChangesOneSlot :
    (withDelay { fiveWritten with wi := 7#32 }).wf ∧
    ∃ t, exec (.dlWr 0 1#32) (withDelay { fiveWritten with wi := 7#32 }) = .next t ∧ t.faulted = false :=
  ⟨by decide, _, rfl, rfl⟩

theorem witness_SmootherCommandsFrame :
    (∃ t, exec (.smLoad 0 1#32) (withSmoother 2#32) = .next t ∧ t.faulted = false) ∧
    (∃ t, exec (.smStep 0 1#32) (withSmoother 2#32) = .next t ∧ t.faulted = false) :=
  ⟨⟨_, rfl, rfl⟩, ⟨_, rfl, rfl⟩⟩

theorem witness_ActivationZeroFills :
    State.reset.faulted = false ∧ (faultedWith 0#32).faulted = true ∧
    State.reset.delays[0]? = some (DelayLine.reset 3) := by decide

/-- FILT.CFG, FILT.PROC and the read-backs of a filter, Active or not. -/
theorem witness_Filter :
    (withFilter (quarter 1#32 2#32)).faulted = false ∧ (withFilter (quarter 1#32 2#32)).act = true ∧
    (withFilter (quarter 1#32 2#32)).filters[0]? = some (quarter 1#32 2#32) ∧ (quarter 1#32 2#32).cv = true := by decide

theorem witness_FilterConfigureStoresCoefficients :
    State.reset.faulted = false ∧ State.reset.filters[0]? = some FilterRegs.reset := by decide

theorem witness_Oscillator :
    (withOsc (pair 1#32 2#32)).faulted = false ∧ (withOsc (pair 1#32 2#32)).act = true ∧
    (withOsc (pair 1#32 2#32)).oscs[0]? = some (pair 1#32 2#32) ∧ (pair 1#32 2#32).vf = true ∧
    (pair 1#32 2#32).vs = true := by decide

/-- Both increments and both phases at one full turn. -/
theorem witness_PhasesStayWithinOneTurn :
    let o := { pair 0x40C90FDB#32 0x40C90FDB#32 with pf := 0x40C90FDB#32, ps := 0x40C90FDB#32 }
    (withOsc o).oscs[0]? = some o ∧ o.incf.toNat ≤ 0x40C90FDB ∧ o.pf.toNat ≤ 0x40C90FDB ∧
    ∃ t, exec (.oscStep 0) (withOsc o) = .next t := ⟨rfl, by decide, by decide, _, rfl⟩

/-- A line at its last slot, and one that is not. -/
theorem witness_DelayWriteStoresSample :
    (withDelay { fiveWritten with wi := 7#32 }).wf ∧ (withDelay fiveWritten).wf ∧ (withDelay fiveWritten).faulted = false ∧
    (withDelay fiveWritten).act = true ∧ (withDelay fiveWritten).delays[0]? = some fiveWritten := by decide

/-- The least and the greatest finite delay. -/
theorem witness_DelayReadInterpolates :
    F32.isFinite 0xFF7FFFFF#32 = true ∧ F32.isFinite 0x7F7FFFFF#32 = true ∧ fiveWritten.capLog2 ≤ 31 := by decide

theorem witness_DelayReadFaults :
    F32.isFinite 0x7F800000#32 = false ∧ F32.isFinite 0xFFFFFFFF#32 = false ∧ (withDelay fiveWritten).act = true ∧
    State.reset.act = false ∧ State.reset.delays[0]? = some (DelayLine.reset 3) := by decide

/-- Two samples in the port's queue of an Active unit. -/
theorem witness_DelayLineHoldsItsHistory :
    let s := { withDelay (DelayLine.reset 1) with inbox := encodeAll [.dlWr 0 7#32, .dlWr 0 8#32, .dlWr 0 9#32] ++ [1#32] }
    s.wf ∧ s.por = false ∧ s.faulted = false ∧ s.act = true ∧ s.delays[0]? = some (DelayLine.reset 1) ∧
    s.inbox = encodeAll ([7#32, 8#32, 9#32].map (Instr.dlWr 0)) ++ [1#32] := by decide

/-- Floors 0 and `CAP - 1`. -/
theorem witness_FractionalReadMeaning :
    (DelayLine.reset 3).wf ∧ F32.isFinite 0x3F000000#32 = true ∧ F32.floorInt 0x3F000000#32 = 0 ∧
    F32.isFinite 0x40F00000#32 = true ∧ F32.floorInt 0x40F00000#32 = 7 ∧
    (withDelay ((DelayLine.reset 3).activate.pushAll [1#32, 2#32])).delays[0]? =
      some ((DelayLine.reset 3).activate.pushAll [1#32, 2#32]) := by decide

theorem witness_FractionIsExact : F32.isFinite 0x7F7FFFFF#32 = true ∧ F32.sign 0x7F7FFFFF#32 = false ∧
    F32.isFinite 0#32 = true ∧ F32.sign 0#32 = false := by decide

/-- A stored −0.0 with a difference that is not negative, and one with a negative difference. -/
theorem witness_IntegerDelayReturnsTheSample :
    let line : DelayLine := { capLog2 := 3, wi := 2#32, ring := [(0, 0x3F800000#32), (1, 0x80000000#32)] }
    let line' : DelayLine := { capLog2 := 3, wi := 2#32, ring := [(0, 0xBF800000#32), (1, 0x80000000#32)] }
    F32.isNaN someNaN = true ∧ F32.isFinite 0x3F800000#32 = true ∧ F32.sign 0x3F800000#32 = false ∧
    F32.val 0x3F800000#32 = F32.floorInt 0x3F800000#32 * 2 ^ 149 ∧
    F32.isFinite (F32.sub someNaN (line.ringRead (line.tap 0x3F800000#32 - 1)) (line.ringRead (line.tap 0x3F800000#32))) = true ∧
    line.readFractional draws 0x3F800000#32 = 0#32 ∧ line'.readFractional draws 0x3F800000#32 = 0x80000000#32 := by decide

/-- Indices that are equal modulo the capacity, and the last slot. -/
theorem witness_RingIndicesAlias : fiveWritten.capLog2 ≤ 31 ∧
    (0xFFFFFFFF#32 : Word).toNat % 2 ^ fiveWritten.capLog2 = (7#32 : Word).toNat % 2 ^ fiveWritten.capLog2 ∧
    (7#32 : Word).toNat < 2 ^ fiveWritten.capLog2 := by decide

/-- The magnitudes where the clauses meet. -/
theorem witness_SaturatorIsBounded : (∀ k, F32.isNaN (draws k) = true) ∧ F32.mag 0x4B7FFFFF#32 < 0x4B800000 ∧
    0x4B800000 ≤ F32.mag 0xCB800000#32 ∧ F32.mag 0x7F7FFFFF#32 < 0x7F800000 ∧ 0x7F800000 ≤ F32.mag 0xFF800000#32 :=
  ⟨fun _ => (by decide : F32.isNaN someNaN = true), by decide, by decide, by decide, by decide⟩

theorem witness_SaturatorIsOdd : F32.isFinite 0x80000000#32 = true ∧ F32.isFinite 0x7F7FFFFF#32 = true := by decide

theorem witness_SmootherCommandsCompute : (withSmoother 1#32).faulted = false ∧ (withSmoother 1#32).act = true ∧
    (withSmoother 1#32).smoothers[0]? = some { y := 1#32, vy := true } := by decide

/-- Upward, downward and equal. -/
theorem witness_SmootherNeverOvershoots :
    F32.isFinite (F32.sub someNaN 0x3F800000#32 0#32) = true ∧ F32.val 0#32 ≤ F32.val 0x3F800000#32 ∧
    F32.isFinite (F32.sub someNaN 0x80000000#32 0x3F800000#32) = true ∧ F32.val 0x80000000#32 ≤ F32.val 0x3F800000#32 ∧
    F32.isFinite (F32.sub someNaN 1#32 1#32) = true := by decide

/-- Below the threshold and on it: the largest finite binary32 and half its spacing, 2^103, sum to the threshold exactly. -/
theorem witness_ArithmeticRoundsToNearestEven :
    F32.isFinite 0x7F7FFFFF#32 = true ∧ F32.isFinite 0x73000000#32 = true ∧ F32.isFinite 0x72FFFFFF#32 = true ∧
    F32.val 0x7F7FFFFF#32 + F32.val 0x73000000#32 = overflowAt ∧
    F32.add someNaN 0x7F7FFFFF#32 0x73000000#32 = 0x7F800000#32 ∧
    F32.val 0x7F7FFFFF#32 + F32.val 0x72FFFFFF#32 < overflowAt ∧
    F32.add someNaN 0x7F7FFFFF#32 0x72FFFFFF#32 = 0x7F7FFFFF#32 ∧ F32.isZero 0x73000000#32 = false := by decide

/-- Products and quotients on both sides of the threshold. -/
theorem witness_ArithmeticRoundsToNearestEven_scaled :
    F32.val 0x7F7FFFFF#32 * F32.val 0x3F800000#32 < 2 ^ 149 * overflowAt ∧
    2 ^ 149 * overflowAt ≤ F32.val 0x7F7FFFFF#32 * F32.val 0x3F800001#32 ∧
    F32.val 0x3F800000#32 * F32.val 0x3F800000#32 < F32.val 0x3F800000#32 * overflowAt ∧
    F32.val 0x00000001#32 * overflowAt ≤ 2 ^ 149 * F32.val 0x3F800000#32 := by decide

/-- Operands of each clause. -/
theorem witness_SpecialResultsFollowIeee754 :
    F32.isNaN 0xFF800000#32 = false ∧ F32.isInf 0xFF800000#32 = true ∧ F32.isInf 0x7F800000#32 = true ∧
    F32.isFinite 0x80000000#32 = true ∧ F32.isZero 0x80000000#32 = true ∧ F32.isFinite 0x7F7FFFFF#32 = true ∧
    F32.val 0x80000000#32 + F32.val 0#32 = 0 ∧ F32.val 0x3F800000#32 + F32.val 0xBF800000#32 = 0 ∧
    F32.isZero 0x00000001#32 = false := by decide

/-- A quiet and a signalling NaN, with either sign. -/
theorem witness_NaNOperandsAreAlike : F32.isNaN 0x7FC00000#32 = true ∧ F32.isNaN 0xFF800001#32 = true := by decide

theorem witness_NaNStaysInState :
    (∃ t, exec (.filtProc 0 1#32) (withFilter (quarter someNaN someNaN)) = .next t) ∧
    (withFilter (quarter someNaN someNaN)).filters[0]? = some (quarter someNaN someNaN) ∧
    F32.isNaN (quarter someNaN someNaN).z1 = true ∧ Instr.filtProc 0 1#32 ≠ .act := ⟨⟨_, rfl⟩, rfl, by decide, nofun⟩

theorem witness_RealFilterPassesDC : (1 : ℝ) ≠ 0 ∧ (2 : ℝ) ≠ 0 := by norm_num

/-- Sequences that follow the recursion exist: they are defined by it. -/
theorem witness_RealFilterIsStable :
    (0 : ℝ) < 1000 ∧ (1000 : ℝ) < 48000 / 4 ∧ (1 / 10 : ℝ) < 1 ∧ (1 : ℝ) < 10 ∧
    ∀ c1 c2 : ℝ, ∃ z1 z2 input : ℕ → ℝ, (∀ k, input k = if k = 0 then 1 else 0) ∧ z1 0 = 0 ∧ z2 0 = 0 ∧
      (∀ k, z1 (k + 1) = filterZ1 realArith c1 (z1 k) (z2 k) (input k)) ∧
      (∀ k, z2 (k + 1) = filterZ2 realArith c2 (z1 k) (z2 k)) := by
  refine ⟨by norm_num, by norm_num, by norm_num, by norm_num, fun c1 c2 => ?_⟩
  let input : ℕ → ℝ := fun k => if k = 0 then 1 else 0
  let z : ℕ → ℝ × ℝ := fun k => Nat.rec (0, 0) (fun k p =>
    (filterZ1 realArith c1 p.1 p.2 (input k), filterZ2 realArith c2 p.1 p.2)) k
  exact ⟨fun k => (z k).1, fun k => (z k).2, input, fun _ => rfl, rfl, rfl, fun _ => rfl, fun _ => rfl⟩

end Sys2Proof.Tests
end

/-! The history of a delay line (10_state.md R35): what a run of DL.WR commands sent back to back does, and which sample
each slot behind the write index then holds. -/

namespace Sys2Proof.Machine

/-! ## A run of writes sent back to back (43_delay.md R160) -/

@[simp] theorem DelayLine.pushAll_nil (d : DelayLine) : d.pushAll [] = d := rfl

@[simp] theorem DelayLine.pushAll_cons (d : DelayLine) (x : F32) (xs : List F32) :
    d.pushAll (x :: xs) = (d.push x).pushAll xs := rfl

theorem DelayLine.pushAll_append_singleton (d : DelayLine) (xs : List F32) (x : F32) :
    d.pushAll (xs ++ [x]) = (d.pushAll xs).push x := by
  simp [DelayLine.pushAll]

/-- Writing back the delay line that stands there changes nothing. -/
theorem State.setDelay_self {s : State} {u : Nat} {d : DelayLine} (h : s.delays[u]? = some d) : s.setDelay u d = s := by
  obtain ⟨hu, rfl⟩ := List.getElem?_eq_some_iff.mp h
  simp [State.setDelay]

/-- Of two writes to one delay line the second counts. -/
@[simp] theorem State.setDelay_setDelay (s : State) (u : Nat) (d e : DelayLine) :
    (s.setDelay u d).setDelay u e = s.setDelay u e := by
  simp [State.setDelay]

/-- Taking words and writing a delay line do not meet. -/
@[simp] theorem State.setDelay_tookCommand (s : State) (u : Nat) (d : DelayLine) (rest : List Word) :
    (s.setDelay u d).tookCommand rest = (s.tookCommand rest).setDelay u d := rfl

@[simp] theorem State.tookCommand_tookCommand (s : State) (ws rest : List Word) :
    (s.tookCommand ws).tookCommand rest = s.tookCommand rest := rfl

theorem State.tookCommand_self {s : State} {rest : List Word} (h : s.inbox = rest) : s.tookCommand rest = s := by
  subst h
  rfl

/-- The meaning of DL.WR where its checks pass: the line with the sample pushed, nothing else changed. -/
theorem exec_dlWr {s : State} {u : Nat} {d : DelayLine} (x : F32) (hf : s.faulted = false) (ha : s.act = true)
    (hd : s.delays[u]? = some d) : exec (.dlWr u x) s = .next (s.setDelay u (d.push x)) := by
  have hattempt : (onDelay s u fun d => needActive s <| .ok (s.setDelay u (d.push x))) = .ok (s.setDelay u (d.push x)) :=
    (onDelay_some hd).trans (needActive_on ha)
  exact (congrArg (issue _ s) hattempt).trans (issue_ok hf)

/-- A step that finds the two words of a DL.WR at the head of the port takes them and pushes the sample. -/
theorem step_dlWr {s : State} {u : Nat} {d : DelayLine} {x : F32} {rest : List Word} (hp : s.por = false)
    (hf : s.faulted = false) (ha : s.act = true) (hu : u < 256) (hd : s.delays[u]? = some d)
    (hi : s.inbox = encode (.dlWr u x) ++ rest) :
    step s = .next ((s.tookCommand rest).setDelay u (d.push x)) := by
  have hhead := decodeHead_cmdWord (opc := 0x30) (of_decide_eq_true rfl) hu rfl nofun
  have hunit : unitMissing s (some .dl) u = false := decide_eq_false (Nat.not_le.mpr (lt_length_of_getElem? hd))
  have hfetch := (fetch_command hp hi hf).trans (fetchCommand_run hhead hunit (Nat.le_add_left 1 rest.length))
  exact (step_run hfetch).trans (exec_dlWr (s := s.tookCommand rest) x hf ha hd)

/-- A run begins with its first step. -/
theorem run_succ_of_step {M : Host.Core} {s t : M.State} (h : M.step s = .next t) (k : Nat) :
    M.run (k + 1) s = M.run k t := by
  rw [Host.Core.run, h]

/-- As many steps as there are DL.WR transactions at the head of the port take them all: the samples are pushed in order,
and nothing else changes. -/
theorem run_dlWr (xs : List F32) {s : State} {u : Nat} {d : DelayLine} {rest : List Word} (hp : s.por = false)
    (hf : s.faulted = false) (ha : s.act = true) (hu : u < 256) (hd : s.delays[u]? = some d)
    (hi : s.inbox = encodeAll (xs.map (Instr.dlWr u)) ++ rest) :
    core.run xs.length s = .next ((s.tookCommand rest).setDelay u (d.pushAll xs)) := by
  induction xs generalizing s d with
  | nil =>
    rw [DelayLine.pushAll_nil, State.tookCommand_self (rest := rest) hi, State.setDelay_self hd]
    rfl
  | cons x xs ih =>
    have hrun := ih (s := (s.tookCommand (encodeAll (xs.map (Instr.dlWr u)) ++ rest)).setDelay u (d.push x))
      (d := d.push x) hp hf ha (by simp [lt_length_of_getElem? hd]) rfl
    simp only [State.setDelay_tookCommand, State.tookCommand_tookCommand, State.setDelay_setDelay] at hrun
    exact (run_succ_of_step (step_dlWr hp hf ha hu hd hi) xs.length).trans hrun

/-! ## The slots behind the write index (10_state.md R35) -/

/-- The number of the slot `k` behind the write index, `(D[u].wi − k) mod CAP[u]` (10_state.md R35). -/
def DelayLine.slotBack (d : DelayLine) (k : Nat) : Nat := (((d.wi.toNat : Int) - (k : Int)) % (2 ^ d.capLog2 : Int)).toNat

/-- Up to the capacity, going back from the write index wraps at most once. -/
theorem DelayLine.slotBack_eq {d : DelayLine} {k : Nat} (h : d.wf) (hk : k ≤ d.cap) :
    d.slotBack k = if k ≤ d.wi.toNat then d.wi.toNat - k else d.wi.toNat + d.cap - k := by
  obtain ⟨-, -, hwi, -, -⟩ := h
  have hcap : (2 ^ d.capLog2 : Int) = (d.cap : Int) := by simp [DelayLine.cap]
  rw [DelayLine.slotBack, hcap]
  split_ifs with hle
  · rw [Int.emod_eq_of_lt (by omega) (by omega)]
    omega
  · rw [← Int.add_emod_right, Int.emod_eq_of_lt (by omega) (by omega)]
    omega

/-- A write moves every slot one further back. -/
theorem DelayLine.slotBack_push {d : DelayLine} (h : d.wf) (x : F32) (k : Nat) :
    (d.push x).slotBack (k + 1) = d.slotBack k := by
  obtain ⟨-, h31, -, -, -⟩ := h
  have hwi : ((d.push x).wi.toNat : Int) = ((d.wi.toNat : Int) + 1) % 2 ^ d.capLog2 := by
    rw [d.push_wi_toNat h31]
    simp [DelayLine.cap]
  rw [DelayLine.slotBack, DelayLine.slotBack, DelayLine.push_capLog2, hwi, Int.emod_sub_emod]
  congr 2
  omega

/-- After a write the sample is in the latest slot, and every older slot of the ring holds what it held one further
forward. -/
theorem DelayLine.read_slotBack_push {d : DelayLine} {k : Nat} (h : d.wf) (x : F32) (hk : k < d.cap) :
    (d.push x).ring.read ((d.push x).slotBack (k + 1)) = if k = 0 then x else d.ring.read (d.slotBack k) := by
  have hback := d.slotBack_eq h hk.le
  have hwritten : d.slotBack k = d.slot d.wi ↔ k = 0 := by
    obtain ⟨-, h31, hwi, -, -⟩ := h
    rw [d.slot_eq_mod h31, Nat.mod_eq_of_lt hwi]
    split_ifs at hback <;> omega
  obtain ⟨-, -, -, hring, -⟩ := id h
  rw [d.slotBack_push h, d.push_ring, Memory.read_write hring]
  simp only [hwritten]

/-- The latest sample, and the samples before it. -/
theorem sampleBack_append_singleton (xs : List F32) (x : F32) (k : Nat) :
    sampleBack (xs ++ [x]) (k + 1) = if k = 0 then x else sampleBack xs k := by
  cases k <;> simp [sampleBack]

/-- The sample `k` writes back, counted from the front of the list. -/
theorem sampleBack_eq {xs : List F32} {k : Nat} (hk : 1 ≤ k) :
    sampleBack xs k = if k ≤ xs.length then xs.getD (xs.length - k) 0#32 else 0#32 := by
  rw [sampleBack, List.getD_eq_getElem?_getD]
  split_ifs with hle
  · have hindex : xs.length - 1 - (k - 1) = xs.length - k := by omega
    rw [List.getElem?_reverse (by omega), List.getD_eq_getElem?_getD, hindex]
  · rw [List.getElem?_eq_none (by simp; omega), Option.getD_none]

@[simp] theorem DelayLine.pushAll_capLog2 (d : DelayLine) (xs : List F32) : (d.pushAll xs).capLog2 = d.capLog2 := by
  induction xs generalizing d with
  | nil => rfl
  | cons x xs ih => exact ih (d.push x)

/-- Writes keep a delay line legal. -/
theorem DelayLine.wf_pushAll {d : DelayLine} (h : d.wf) (xs : List F32) : (d.pushAll xs).wf := by
  induction xs generalizing d with
  | nil => exact h
  | cons x xs ih => exact ih (d.wf_push h x)

/-- The write index counts the writes modulo the capacity. -/
theorem DelayLine.pushAll_wi_toNat {d : DelayLine} (h : d.wf) (xs : List F32) :
    (d.pushAll xs).wi.toNat = (d.wi.toNat + xs.length) % d.cap := by
  induction xs generalizing d with
  | nil =>
    obtain ⟨-, -, hwi, -, -⟩ := h
    exact (Nat.mod_eq_of_lt hwi).symm
  | cons x xs ih =>
    obtain ⟨-, h31, -, -, -⟩ := id h
    rw [DelayLine.pushAll_cons, ih (d.wf_push h x), d.push_wi_toNat h31, DelayLine.push_cap, Nat.mod_add_mod,
      List.length_cons, Nat.add_assoc, Nat.add_comm 1]

/-- The slot law of 10_state.md R35: after writes to a ring of +0.0, the slot `k` behind the write index holds the `k`-th
latest sample, up to the capacity. -/
theorem DelayLine.read_slotBack_pushAll {d : DelayLine} (h : d.wf) (hring : d.ring = []) (xs : List F32) {k : Nat}
    (h1 : 1 ≤ k) (hk : k ≤ d.cap) : (d.pushAll xs).ring.read ((d.pushAll xs).slotBack k) = sampleBack xs k := by
  induction xs using List.reverseRecOn generalizing k with
  | nil => simp [hring, sampleBack]
  | append_singleton xs x ih =>
    obtain ⟨k, rfl⟩ := Nat.exists_eq_add_of_le' h1
    have hcap : k < (d.pushAll xs).cap := by
      rw [DelayLine.cap, DelayLine.pushAll_capLog2]
      exact hk
    rw [DelayLine.pushAll_append_singleton, DelayLine.read_slotBack_push (d.wf_pushAll h xs) x hcap,
      sampleBack_append_singleton]
    split_ifs with h0
    · rfl
    · exact ih (by omega) (by omega)

/-- Settles O45: the run pushes the samples one after another (`run_dlWr`), and the slot law holds of the pushed line. -/
theorem delayLineHoldsItsHistory : Obligations.DelayLineHoldsItsHistory := by
  intro xs u s d rest hs hp hf ha hu hd hring hwi hi
  have hdwf : d.wf := by
    obtain ⟨-, -, -, -, hlines, -⟩ := hs
    exact hlines d (List.mem_of_getElem? hd)
  refine ⟨_, d.pushAll xs, run_dlWr xs hp hf ha hu hd hi, rfl, rfl, ?_, d.pushAll_capLog2 xs, ?_, fun k h1 hk => ?_⟩
  · simp [lt_length_of_getElem? hd]
  · simpa [hwi, DelayLine.cap] using d.pushAll_wi_toNat hdwf xs
  · rw [← sampleBack_eq h1, ← d.read_slotBack_pushAll hdwf hring xs h1 hk, DelayLine.slotBack, d.pushAll_capLog2]

end Sys2Proof.Machine

/-! The parameters of the unit (20_memory.md R61): what each update of the state leaves of the unit counts and capacities,
and that no command and no step changes them. -/

namespace Sys2Proof.Machine

/-! ## The parameters after each update of the state -/

@[simp] theorem State.setFilter_params (s : State) (u : Nat) (f : FilterRegs) :
    (s.setFilter u f).params = s.params := by
  simp [State.params]

@[simp] theorem State.setOsc_params (s : State) (u : Nat) (o : OscRegs) : (s.setOsc u o).params = s.params := by
  simp [State.params]

@[simp] theorem State.setSmoother_params (s : State) (u : Nat) (r : SmootherRegs) :
    (s.setSmoother u r).params = s.params := by
  simp [State.params]

/-- Writing delay line `u` keeps the parameters when the line written has the capacity of the line that stands there;
where there is no line `u`, nothing is written. -/
theorem State.setDelay_params {s : State} {u : Nat} {e : DelayLine}
    (h : ∀ d, s.delays[u]? = some d → e.capLog2 = d.capLog2) : (s.setDelay u e).params = s.params := by
  have hcaps : (s.delays.set u e).map DelayLine.capLog2 = s.delays.map DelayLine.capLog2 := by
    rcases Nat.lt_or_ge u s.delays.length with hu | hu
    · rw [List.map_set, h _ (List.getElem?_eq_getElem hu),
        ← List.getElem_map DelayLine.capLog2 (h := by rwa [List.length_map]), List.set_getElem_self]
    · rw [List.set_eq_of_length_le hu]
  simp [State.params, hcaps]

@[simp] theorem State.respond_params (s : State) (res : List Word) : (s.respond res).params = s.params := rfl
@[simp] theorem State.drawn_params (s : State) : s.drawn.params = s.params := rfl
@[simp] theorem raiseFault_params (c : Cause) (cmd : Word) (s : State) : (raiseFault c cmd s).params = s.params := rfl
@[simp] theorem State.tookCommand_params (s : State) (rest : List Word) : (s.tookCommand rest).params = s.params := rfl
@[simp] theorem State.tookOperands_params (s : State) (rest : List Word) (k : Nat) :
    (s.tookOperands rest k).params = s.params := rfl

/-- A unit after power-on reset reads back the parameters it was made with. -/
@[simp] theorem State.resetWith_params (p : Params) : (State.resetWith p).params = p := by
  have hcap : DelayLine.capLog2 ∘ DelayLine.reset = id := rfl
  simp [State.params, State.resetWith, hcap]

@[simp] theorem State.powerOn_params (s : State) : s.powerOn.params = s.params := State.resetWith_params s.params

/-! ## The parameters after a command and after a step -/

/-- No command's effect changes the parameters: ACT writes every line and DL.WR writes one, each at its own capacity. -/
@[simp] theorem effect_params (i : Instr) (s : State) : (effect i s).params = s.params := by
  cases i with
  | act =>
    have hcap : DelayLine.capLog2 ∘ DelayLine.activate = DelayLine.capLog2 := rfl
    simp [effect, State.params, hcap]
  | dlWr u x => exact State.setDelay_params fun d hd => by simp [hd]
  | _ => simp [effect]

theorem exec_params {i : Instr} {s t : State} (h : exec i s = .next t) : t.params = s.params := by
  rcases exec_cases h with ⟨-, -, rfl⟩ | ⟨c, -, -, rfl⟩ | ⟨-, -, rfl⟩
  · rfl
  · exact raiseFault_params c i.commandWord s
  · exact effect_params i s

theorem step_params {s t : State} (h : step s = .next t) : t.params = s.params := by
  rcases fetch_cases s with ⟨-, hfetch⟩ | ⟨-, hfetch⟩ | ⟨-, cmd, rest, -, -, hfetch⟩ |
    ⟨-, cmd, rest, c, -, -, -, hfetch⟩ | ⟨-, cmd, rest, row, u, -, -, -, -, -, hfetch⟩
  · cases (step_settle hfetch).symm.trans h
    exact s.powerOn_params
  · cases (step_settle hfetch).symm.trans h
    rfl
  · rcases fetchFaulted_cases cmd (s.tookCommand rest) with ⟨-, hword⟩ | ⟨-, hword⟩ | ⟨-, -, hword⟩
    · exact (exec_params ((step_run (hfetch.trans hword)).symm.trans h)).trans (s.tookCommand_params rest)
    · exact (exec_params ((step_run (hfetch.trans hword)).symm.trans h)).trans (s.tookCommand_params rest)
    · cases (step_settle (hfetch.trans hword)).symm.trans h
      exact s.tookCommand_params rest
  · cases (step_settle hfetch).symm.trans h
    exact raiseFault_params c cmd (s.tookCommand rest)
  · exact (exec_params ((step_run hfetch).symm.trans h)).trans (s.tookOperands_params rest row.operands)

/-- Settles O22: every case of a step keeps the parameters. -/
theorem capacitiesNeverChange : Obligations.CapacitiesNeverChange := by
  intro s t h
  exact step_params h

end Sys2Proof.Machine

/-! Words that the decoder rejects (30_encoding.md R86, R87): which words are ILLEGAL, and the step that meets one, or that
meets a legal word whose UNIT is not below its family's count. -/

namespace Sys2Proof.Machine

/-! ## The illegal words -/

/-- No row of the opcode map has a reserved opcode. -/
theorem not_reservedOpcode_of_mem : ∀ row ∈ opcodeTable, ¬ reservedOpcode row.opc := by
  unfold reservedOpcode
  decide

/-- The rows of ACT, STAT.RD, FCMD.RD and SAT have no family that UNIT could index (30_encoding.md R82). -/
theorem family_eq_none_of_mem :
    ∀ row ∈ opcodeTable, row.opc ∈ [0x01, 0x02, 0x03, 0x40] → row.family = none := by
  decide

/-- The decoder refuses the words that 30_encoding.md R82 and R87 call ILLEGAL: a word that decodes has a row of the opcode
map, RSV zero, and UNIT zero where its row has no family. -/
theorem decodeHead_illegal {w : Word}
    (h : reservedOpcode (opcField w) ∨ rsvField w ≠ 0 ∨ (opcField w ∈ [0x01, 0x02, 0x03, 0x40] ∧ unitField w ≠ 0)) :
    ∃ e, decodeHead w = .error e := by
  cases hd : decodeHead w with
  | error e => exact ⟨e, rfl⟩
  | ok p =>
    obtain ⟨row, u⟩ := p
    obtain ⟨hrow, hu, hrsv, hunit, -⟩ := decodeHead_ok hd
    obtain ⟨hmem, hopc⟩ := rowOf_some hrow
    rw [← hopc, ← hu] at h
    rcases h with hreserved | hne | ⟨hnone, hne⟩
    · exact absurd hreserved (not_reservedOpcode_of_mem row hmem)
    · exact absurd hrsv hne
    · exact absurd (hunit (family_eq_none_of_mem row hmem hnone)) hne

/-! ## The step that rejects a word -/

variable {s : State} {w : Word} {rest : List Word}

theorem step_illegal {e : Reject} (hp : s.por = false) (hf : s.faulted = false) (hi : s.inbox = w :: rest)
    (h : decodeHead w = .error e) : step s = .next (raiseFault .illegal w (s.tookCommand rest)) :=
  step_settle ((fetch_command hp hi hf).trans (fetchCommand_illegal h))

theorem step_badUnit {row : Row} {u : Nat} (hp : s.por = false) (hf : s.faulted = false) (hi : s.inbox = w :: rest)
    (h : decodeHead w = .ok (row, u)) (hu : unitMissing s row.family u = true) :
    step s = .next (raiseFault .badUnit w (s.tookCommand rest)) :=
  step_settle ((fetch_command hp hi hf).trans (fetchCommand_badUnit h hu))

theorem unitMissing_of_count_le {f : Family} {u : Nat} (h : s.count f ≤ u) : unitMissing s (some f) u = true :=
  decide_eq_true h

/-- Settles O5: the decoder refuses the illegal words (`decodeHead_illegal`), and the step that takes a rejected word is
fault entry on that word alone. -/
theorem rejectedWordsFault : Obligations.RejectedWordsFault := by
  intro s w rest hp hf hi
  refine ⟨fun hw => ?_, fun row f u hd hfam hu => ?_⟩
  · obtain ⟨e, he⟩ : ∃ e, decodeHead w = .error e := by
      apply decodeHead_illegal
      rw [opcField_eq, rsvField_eq, unitField_eq]
      exact hw
    exact step_illegal hp hf hi he
  · exact step_badUnit hp hf hi hd (hfam ▸ unitMissing_of_count_le hu)

end Sys2Proof.Machine

/-! The global commands (40_global.md): the command word of a command that takes no unit and no operand words, and what ACT,
STAT.RD and FCMD.RD do. -/

namespace Sys2Proof.Machine

/-! ## The one word of a command (30_encoding.md R82, R86) -/

/-- Where a word decodes to a row of no family, every other word with its opcode is ILLEGAL: a word that decodes has RSV zero,
and UNIT zero too on such a row, so its opcode fixes it. -/
theorem decodeHead_error_of_ne {w w' : Word} {row : Row} {u : Nat} (h : decodeHead w = .ok (row, u))
    (hfam : row.family = none) (hopc : opcField w' = opcField w) (hne : w' ≠ w) : ∃ e, decodeHead w' = .error e := by
  cases h' : decodeHead w' with
  | error e => exact ⟨e, rfl⟩
  | ok p =>
    obtain ⟨row', u'⟩ := p
    obtain ⟨hrow, -, -, hunit, hword⟩ := decodeHead_ok h
    obtain ⟨hrow', -, -, hunit', hword'⟩ := decodeHead_ok h'
    obtain rfl : row' = row := Option.some.inj (hrow'.symm.trans ((congrArg rowOf hopc).trans hrow))
    rw [hunit' hfam, hopc, ← hunit hfam, ← hword] at hword'
    exact absurd hword' hne

/-- A command of no family that is encoded in one word is that word alone. -/
theorem onlyWord_of_encodedHead {i : Instr} {w : Word} (h : Laws.EncodedHead.Statement i) (hwf : i.wellFormed = true)
    (hfam : family? i = none) (henc : encode i = [w]) : onlyWord w i := by
  obtain ⟨row, ops, hcons, hhead, hlen, hrow, hmake⟩ := h hwf
  obtain ⟨hw, rfl⟩ := List.cons.inj (henc.symm.trans hcons)
  rw [← hw] at hhead
  have hops : row.operands = 0 := hlen.symm
  refine ⟨?_, fun w' hopc hne => ?_⟩
  · have hdecode := decode_cons (rest := []) hhead hops.le
    rw [hops] at hdecode
    exact hdecode.trans (congrArg (fun j => Except.ok (j, [])) (hmake []))
  · exact decodeHead_error_of_ne hhead (hrow.trans hfam) (by rw [opcField_eq, opcField_eq]; exact hopc) hne

theorem onlyWord_act : onlyWord 0x01000000#32 .act :=
  onlyWord_of_encodedHead Laws.EncodedHead.act rfl rfl rfl

theorem onlyWord_statRd : onlyWord 0x02000000#32 .statRd :=
  onlyWord_of_encodedHead Laws.EncodedHead.statRd rfl rfl rfl

theorem onlyWord_fcmdRd : onlyWord 0x03000000#32 .fcmdRd :=
  onlyWord_of_encodedHead Laws.EncodedHead.fcmdRd rfl rfl rfl

/-! ## ACT (40_global.md R110) -/

@[simp] theorem FilterRegs.activate_activate (f : FilterRegs) : f.activate.activate = f.activate := rfl
@[simp] theorem OscRegs.activate_activate (o : OscRegs) : o.activate.activate = o.activate := rfl
@[simp] theorem DelayLine.activate_activate (d : DelayLine) : d.activate.activate = d.activate := rfl

/-- Every slot of a line that was just zero-filled reads as +0.0. -/
@[simp] theorem DelayLine.ringRead_activate (d : DelayLine) (i : Word) : d.activate.ringRead i = 0#32 := rfl

/-- ACT has no check that could fail: out of the Faulted state it always has its effect. -/
theorem exec_act {s : State} (hf : s.faulted = false) : exec .act s = .next (effect .act s) :=
  issue_ok (i := .act) hf

/-- The Faulted state drops ACT (60_exceptions.md R204). -/
theorem exec_act_faulted {s : State} (hf : s.faulted = true) : exec .act s = .next s :=
  issue_faulted (i := .act) (r := .ok (effect .act s)) hf

/-- Zero-filling what is zero-filled changes nothing. -/
theorem effect_act_effect_act (s : State) : effect .act (effect .act s) = effect .act s := by
  simp [effect, Function.comp_def]

/-- Settles O32: ACT leaves `effect .act s`, which lists the old units zero-filled and which a second ACT leaves as it is. -/
theorem activationZeroFills : Obligations.ActivationZeroFills := by
  refine ⟨onlyWord_act, fun s => exec_act_faulted, fun s hf => ⟨effect .act s, exec_act hf, rfl, ?filters, ?oscs, ?delays,
    ?count, rfl, rfl, rfl, rfl, rfl, rfl, rfl, ?again⟩⟩
  case filters => exact fun u => List.getElem?_map
  case oscs => exact fun u => List.getElem?_map
  case delays =>
    intro u d hd
    have hline : (effect .act s).delays[u]? = some d.activate := List.getElem?_map.trans (congrArg _ hd)
    exact ⟨d.activate, hline, rfl, rfl, d.ringRead_activate⟩
  case count => exact List.length_map _
  case again => exact (exec_act (s := effect .act s) hf).trans (congrArg Host.Outcome.next (effect_act_effect_act s))

/-! ## STAT.RD and FCMD.RD (40_global.md R111, R112) -/

/-- Words side by side as a number. -/
theorem toNat_append_eq_add {m n : Nat} (x : BitVec m) (y : BitVec n) :
    (x ++ y).toNat = x.toNat * 2 ^ n + y.toNat := by
  rw [BitVec.toNat_append, ← Nat.shiftLeft_add_eq_or_of_lt y.isLt, Nat.shiftLeft_eq]

/-- The STATUS word as a number (10_state.md R23): ACT in bit 0, FAULT in bit 1, CAUSE from bit 8. -/
theorem statusWord_toNat (s : State) :
    (statusWord s).toNat = (if s.act then 1 else 0) + (if s.faulted then 2 else 0) + 256 * s.cause.toNat := by
  have hword : (statusWord s).toNat = s.cause.toNat * 256 + s.faulted.toNat * 2 + s.act.toNat := by
    simp only [statusWord, toNat_append_eq_add, BitVec.toNat_ofBool, BitVec.toNat_ofNat]
    omega
  rw [hword]
  cases s.faulted <;> cases s.act <;> simp <;> omega

/-- Settles O31: the two reads have no check that could stop them, and STAT.RD returns `statusWord`. -/
theorem statusReadsReturnStatus : Obligations.StatusReadsReturnStatus :=
  ⟨onlyWord_statRd, onlyWord_fcmdRd, fun s => ⟨statusWord s, rfl, statusWord_toNat s⟩, fun _ => rfl⟩

end Sys2Proof.Machine

/-! The saturator (44_saturator.md): its denominator `0.75 + |z|`, rounded, is the next magnitude word up or higher below
2^24 and `|z|` itself from there on, and the bounds of R181 follow. -/

namespace Sys2Proof.Machine.F32

/-! ## Rounding against one midpoint -/

/-- A value above the midpoint after `m` rounds past `m`. -/
theorem lt_roundMag_of_midpoint_lt {n d m : Nat} (hd : 0 < d) (hm : m < 0x7F800000)
    (h : d * (magVal m + magVal (m + 1)) < 2 * n) : m < roundMag n d := by
  obtain ⟨-, hup, -⟩ := roundMag_spec n hd
  by_contra hle
  have hnext : 2 * n ≤ d * (magVal (roundMag n d) + magVal (roundMag n d + 1)) := (hup (by omega)).1
  have hmono : d * (magVal (roundMag n d) + magVal (roundMag n d + 1)) ≤ d * (magVal m + magVal (m + 1)) :=
    Nat.mul_le_mul_left d (Nat.add_le_add (magVal_le.mpr (by omega)) (magVal_le.mpr (by omega)))
  omega

/-- A value below the midpoint after `m` does not round past `m`. -/
theorem roundMag_le_of_lt_midpoint {n d m : Nat} (hd : 0 < d) (h : 2 * n < d * (magVal m + magVal (m + 1))) :
    roundMag n d ≤ m := by
  obtain ⟨-, -, hdown⟩ := roundMag_spec n hd
  by_contra hgt
  obtain ⟨q, hq⟩ : ∃ q, roundMag n d = q + 1 := ⟨roundMag n d - 1, by omega⟩
  have hprev : d * (magVal q + magVal (roundMag n d)) ≤ 2 * n := (hdown q hq).1
  have hmono : d * (magVal m + magVal (m + 1)) ≤ d * (magVal q + magVal (roundMag n d)) :=
    Nat.mul_le_mul_left d (Nat.add_le_add (magVal_le.mpr (by omega)) (magVal_le.mpr (by omega)))
  omega

/-! ## The spacing of the magnitudes, in units of 2^-149 -/

theorem magVal_one : magVal 0x3F800000 = 2 ^ 149 := magVal_scaled (k := 126) (r := 8388608) (by decide) (by decide)

theorem magVal_ksat : magVal 0x3F400000 = 3 * 2 ^ 147 :=
  (magVal_scaled (k := 125) (r := 12582912) (by decide) (by decide)).trans (by norm_num)

/-- Below 2^24 two neighbouring magnitudes are at most 1.0 apart. -/
theorem magVal_succ_le {m : Nat} (hm : m < 0x4B800000) : magVal (m + 1) ≤ magVal m + 2 ^ 149 := by
  obtain ⟨k, r, hform, hr, -, hval, hnext⟩ := magVal_form m
  have hk : 2 ^ k ≤ 2 ^ 149 := Nat.pow_le_pow_right (by decide) (by omega)
  rw [hval, hnext, Nat.succ_mul]
  omega

/-- From 2^24 on they are at least 2.0 apart. -/
theorem le_magVal_succ {m : Nat} (hm : 0x4B800000 ≤ m) : magVal m + 2 ^ 150 ≤ magVal (m + 1) := by
  obtain ⟨k, r, hform, -, hr, hval, hnext⟩ := magVal_form m
  have hk : 2 ^ 150 ≤ 2 ^ k := Nat.pow_le_pow_right (by decide) (by omega)
  rw [hval, hnext, Nat.succ_mul]
  omega

/-- The ratio of two neighbouring magnitudes is below `1 - 2^-25`, the midpoint between 1.0 and the binary32 below it. -/
theorem magVal_mul_lt_succ (m : Nat) : magVal m * 2 ^ 25 < magVal (m + 1) * (2 ^ 25 - 1) := by
  obtain ⟨k, r, -, -, hr, hval, hnext⟩ := magVal_form m
  calc magVal m * 2 ^ 25 = r * 2 ^ 25 * 2 ^ k := by rw [hval]; ring
    _ < (r + 1) * (2 ^ 25 - 1) * 2 ^ k := Nat.mul_lt_mul_of_pos_right (by omega) (Nat.two_pow_pos k)
    _ = magVal (m + 1) * (2 ^ 25 - 1) := by rw [hnext]; ring

/-- A magnitude divided by a greater one rounds below 1.0. -/
theorem roundMag_div_lt_one {m d : Nat} (h : m < d) : roundMag (magVal m * 2 ^ 149) (magVal d) < 0x3F800000 := by
  have hle : magVal (m + 1) ≤ magVal d := magVal_le.mpr h
  have hpos : 0 < magVal d := by have := magVal_lt_succ m; omega
  have hbelow : magVal 0x3F7FFFFF = (2 ^ 24 - 1) * 2 ^ 125 :=
    magVal_scaled (k := 125) (r := 16777215) (by decide) (by decide)
  have hratio : magVal m * 2 ^ 25 < magVal d * (2 ^ 25 - 1) :=
    Nat.lt_of_lt_of_le (magVal_mul_lt_succ m) (Nat.mul_le_mul_right _ hle)
  have hmid : roundMag (magVal m * 2 ^ 149) (magVal d) ≤ 0x3F7FFFFF := by
    refine roundMag_le_of_lt_midpoint hpos ?_
    rw [magVal_one, hbelow]
    omega
  omega

/-- A magnitude divided by itself is 1.0 exactly. -/
theorem roundMag_div_self {m : Nat} (h : 0 < magVal m) : roundMag (magVal m * 2 ^ 149) (magVal m) = 0x3F800000 := by
  rw [Nat.mul_comm, ← magVal_one]
  exact roundMag_exact h (by decide)

end Sys2Proof.Machine.F32

namespace Sys2Proof.Machine

/-! ## The denominator -/

/-- The magnitude word of `0.75 + |z|` for finite `z` with magnitude word `m`. -/
def satDenominator (m : Nat) : Nat := F32.roundMag (3 * 2 ^ 147 + F32.magVal m) 1

/-- The denominator is at least 0.75, so SAT never divides by zero. -/
theorem ksat_le_satDenominator (m : Nat) : 0x3F400000 ≤ satDenominator m := by
  refine F32.le_roundMag_of_le Nat.one_pos (by decide) ?_
  rw [F32.magVal_ksat]
  omega

/-- Adding 0.75 to a finite magnitude does not overflow. -/
theorem satDenominator_lt_inf {m : Nat} (hm : m < 0x7F800000) : satDenominator m < 0x7F800000 := by
  refine (F32.roundMag_lt_inf _ Nat.one_pos).mpr ?_
  have hle : F32.magVal m ≤ F32.magVal 0x7F7FFFFF := F32.magVal_le.mpr (by omega)
  have hgap : F32.magVal 0x7F7FFFFF + 2 ^ 150 ≤ F32.magVal 0x7F800000 := F32.le_magVal_succ (by decide)
  omega

/-- Below 2^24 the denominator is above `|z|`: 0.75 is more than half the spacing. -/
theorem lt_satDenominator {m : Nat} (hm : m < 0x4B800000) : m < satDenominator m := by
  have hgap := F32.magVal_succ_le hm
  exact F32.lt_roundMag_of_midpoint_lt Nat.one_pos (by omega) (by omega)

/-- From 2^24 on the denominator is `|z|`: 0.75 is less than half the spacing. -/
theorem satDenominator_eq {m : Nat} (hm : 0x4B800000 ≤ m) (hinf : m < 0x7F800000) : satDenominator m = m := by
  have hgap := F32.le_magVal_succ hm
  refine Nat.le_antisymm ?_ ?_
  · exact F32.roundMag_le_of_lt_midpoint Nat.one_pos (by omega)
  · exact F32.le_roundMag_of_le Nat.one_pos (by omega) (by omega)

/-- The sum that SAT computes is the binary32 with that magnitude. -/
theorem add_ksat_absf {z : F32} (nan : F32) (hz : F32.mag z < 0x7F800000) :
    F32.add nan Config.ksat (F32.absf z) = F32.pack false (satDenominator (F32.mag z)) := by
  have hksat : F32.val Config.ksat = ((3 * 2 ^ 147 : Nat) : Int) := by
    rw [← F32.magVal_ksat]
    rfl
  have habs : F32.val (F32.absf z) = (F32.magVal (F32.mag z) : Int) := by simp [F32.val]
  have hfin : F32.isFinite (F32.absf z) = true := by simpa [F32.isFinite_iff] using hz
  rw [F32.add_finite (by decide) hfin, hksat, habs, ← Nat.cast_add, if_neg (by omega), Int.natAbs_natCast,
    decide_eq_false (by omega)]
  rfl

/-! ## SAT in its three ranges (44_saturator.md R180, R181) -/

theorem saturate_binary32 (n : Nat → F32) (z : F32) :
    saturate (binary32 n) z = F32.div (n 1) z (F32.add (n 0) Config.ksat (F32.absf z)) := by
  rw [saturate, binary32]

/-- SAT of a finite operand keeps its sign and rounds the quotient of `|z|` and the denominator. -/
theorem saturate_finite (n : Nat → F32) {z : F32} (hz : F32.mag z < 0x7F800000) :
    saturate (binary32 n) z = F32.pack (F32.sign z)
      (F32.roundMag (F32.magVal (F32.mag z) * 2 ^ 149) (F32.magVal (satDenominator (F32.mag z)))) := by
  have hden := ksat_le_satDenominator (F32.mag z)
  have hinf := satDenominator_lt_inf hz
  rw [saturate_binary32, add_ksat_absf _ hz]
  generalize satDenominator (F32.mag z) = d at hden hinf ⊢
  have hsign : F32.sign (F32.pack false d) = false := F32.sign_pack _ (by omega)
  have hmag : F32.mag (F32.pack false d) = d := F32.mag_pack _ (by omega)
  have hfin : F32.isFinite (F32.pack false d) = true := by rwa [F32.isFinite_iff, hmag]
  have hzero : F32.isZero (F32.pack false d) = false := by
    rw [F32.isZero, hmag]
    exact decide_eq_false (by omega)
  rw [F32.div_finite (F32.isFinite_iff.mpr hz) hfin hzero, hsign, hmag, Bool.bne_false]

/-- The magnitude of SAT, in the terms that the rounding lemmas speak of. -/
theorem mag_saturate (n : Nat → F32) {z : F32} (hz : F32.mag z < 0x7F800000) :
    F32.mag (saturate (binary32 n) z) =
      F32.roundMag (F32.magVal (F32.mag z) * 2 ^ 149) (F32.magVal (satDenominator (F32.mag z))) := by
  have hden := ksat_le_satDenominator (F32.mag z)
  have hpos : F32.magVal 0 < F32.magVal (satDenominator (F32.mag z)) := F32.magVal_lt.mpr (by omega)
  rw [saturate_finite n hz, F32.mag_round _ _ (by omega)]

/-- Inf over Inf, and every NaN operand, give the NaN of the division. -/
theorem saturate_eq_nan (n : Nat → F32) {z : F32} (hz : 0x7F800000 ≤ F32.mag z) : saturate (binary32 n) z = n 1 := by
  rw [saturate_binary32]
  rcases Nat.lt_or_eq_of_le hz with hnan | hinf
  · exact F32.div_nan_left _ (F32.isNaN_iff.mpr hnan)
  · have hsum : F32.add (n 0) Config.ksat (F32.absf z) = F32.absf z := by
      simp [F32.add, F32.isNaN, F32.isInf, ← hinf, show F32.mag Config.ksat = 0x3F400000 from rfl]
    rw [hsum]
    simp [F32.div, F32.isNaN, F32.isInf, ← hinf]

/-- Over the reals the denominator exceeds the numerator in magnitude. -/
theorem abs_saturate_real_lt_one (z : ℝ) : |saturate realArith z| < 1 := by
  have hpos : 0 < 3 / 4 + |z| := by positivity
  calc |saturate realArith z| = |z / (3 / 4 + |z|)| := rfl
    _ = |z| / (3 / 4 + |z|) := by rw [abs_div, abs_of_pos hpos]
    _ < 1 := (div_lt_one hpos).mpr (by linarith)

/-- Settles O51: below 2^24 the denominator is a greater magnitude than `|z|`, from there on it is `|z|`, and past the
largest finite operand the division yields a NaN. -/
theorem saturatorIsBounded : Obligations.SaturatorIsBounded := by
  refine ⟨abs_saturate_real_lt_one, fun n z hn => ⟨fun hsmall => ?below, fun hlarge hfin => ?one, fun hinf => ?nan⟩⟩
  case below =>
    rw [mag_saturate n (by omega)]
    exact F32.roundMag_div_lt_one (lt_satDenominator hsmall)
  case one =>
    have hpos : F32.magVal 0 < F32.magVal (F32.mag z) := F32.magVal_lt.mpr (by omega)
    rw [mag_saturate n hfin, satDenominator_eq hlarge hfin]
    exact F32.roundMag_div_self (by omega)
  case nan =>
    rw [saturate_eq_nan n hinf]
    exact hn 1

end Sys2Proof.Machine

/-! Faults (60_exceptions.md): what each word does in the Faulted state, and what a step that enters it has written. -/

namespace Sys2Proof.Machine

/-! ## The Faulted state (60_exceptions.md R204) -/

/-- Settles O8: the two status words run their command in the state with the word taken, and any other word leaves that
state. -/
theorem faultedStateDropsWords : Obligations.FaultedStateDropsWords := by
  intro s w rest hp hf hi
  have hfetch : fetch s = fetchFaulted w (s.tookCommand rest) := fetch_faulted hp hi hf
  rcases fetchFaulted_cases w (s.tookCommand rest) with ⟨rfl, hword⟩ | ⟨rfl, hword⟩ | ⟨hstat, hfcmd, hword⟩
  · exact ⟨fun _ => step_run (hfetch.trans hword), fun h => absurd h (by decide), fun h _ => absurd rfl h⟩
  · exact ⟨fun h => absurd h (by decide), fun _ => step_run (hfetch.trans hword), fun _ h => absurd rfl h⟩
  · exact ⟨fun h => absurd h hstat, fun h => absurd h hfcmd, fun _ _ => step_settle (hfetch.trans hword)⟩

/-! ## Fault entry (60_exceptions.md R203) -/

/-- A command that enters the Faulted state has done nothing but fault entry, under its own command word: one that has
its effect does not write FAULT. -/
theorem exec_enters_fault {i : Instr} {s t : State} (hf : s.faulted = false) (h : exec i s = .next t)
    (ht : t.faulted = true) : ∃ c, t = raiseFault c i.commandWord s := by
  rcases exec_cases h with ⟨hf', -, -⟩ | ⟨c, -, -, hraise⟩ | ⟨-, -, heffect⟩
  · exact absurd (hf.symm.trans hf') Bool.false_ne_true
  · exact ⟨c, hraise⟩
  · rw [heffect, effect_faulted, hf] at ht
    exact absurd ht Bool.false_ne_true

/-- Settles O17: of the cases of a step, power-on reset and waiting leave FAULT clear, a decoding fault takes the command
word alone, and a command that fails a check has its operand words taken too. -/
theorem faultEntryWritesOnlyStatus : Obligations.FaultEntryWritesOnlyStatus := by
  intro s t hf h ht
  rcases fetch_cases s with ⟨-, hfetch⟩ | ⟨-, hfetch⟩ | ⟨-, -, -, -, hf', -⟩ |
    ⟨-, cmd, rest, c, hi, -, -, hfetch⟩ | ⟨-, cmd, rest, row, u, hi, -, hhead, -, -, hfetch⟩
  · cases (step_settle hfetch).symm.trans h
    exact absurd ht Bool.false_ne_true
  · cases (step_settle hfetch).symm.trans h
    exact absurd (hf.symm.trans ht) Bool.false_ne_true
  · exact absurd (hf.symm.trans hf') Bool.false_ne_true
  · cases (step_settle hfetch).symm.trans h
    exact ⟨c, cmd, [], rest, hi, rfl⟩
  · obtain ⟨c, hraise⟩ :=
      exec_enters_fault (s := s.tookOperands rest row.operands) hf ((step_run hfetch).symm.trans h) ht
    have hcmd : (commandOf row u rest).commandWord = cmd := commandWord_of_decodeHead hhead _ _ _
    refine ⟨c, cmd, rest.take row.operands, rest.drop row.operands, ?_, ?_⟩
    · rw [List.take_append_drop]
      exact hi
    · rw [hraise, hcmd]
      rfl

end Sys2Proof.Machine

/-! The encoding (30_encoding.md): the decoder and the encoder are inverse to each other, and which words decode. -/

namespace Sys2Proof.Machine

/-! ## The encoding of every command, and the command of every row (30_encoding.md R80, R85) -/

/-- `Laws.EncodedHead.Statement` holds of every command. -/
theorem encodedHead : ∀ i : Instr, Laws.EncodedHead.Statement i
  | .act => Laws.EncodedHead.act
  | .statRd => Laws.EncodedHead.statRd
  | .fcmdRd => Laws.EncodedHead.fcmdRd
  | .filtCfg u a b c => Laws.EncodedHead.filtCfg u a b c
  | .filtProc u a => Laws.EncodedHead.filtProc u a
  | .filtRdz1 u => Laws.EncodedHead.filtRdz1 u
  | .filtRdz2 u => Laws.EncodedHead.filtRdz2 u
  | .filtRdc1 u => Laws.EncodedHead.filtRdc1 u
  | .filtRdc2 u => Laws.EncodedHead.filtRdc2 u
  | .filtRdd0 u => Laws.EncodedHead.filtRdd0 u
  | .oscSetf u a => Laws.EncodedHead.oscSetf u a
  | .oscSets u a => Laws.EncodedHead.oscSets u a
  | .oscStep u => Laws.EncodedHead.oscStep u
  | .oscTap u a b c => Laws.EncodedHead.oscTap u a b c
  | .oscRdpf u => Laws.EncodedHead.oscRdpf u
  | .oscRdps u => Laws.EncodedHead.oscRdps u
  | .oscRdif u => Laws.EncodedHead.oscRdif u
  | .oscRdis u => Laws.EncodedHead.oscRdis u
  | .dlWr u a => Laws.EncodedHead.dlWr u a
  | .dlRd u a => Laws.EncodedHead.dlRd u a
  | .dlRdwi u => Laws.EncodedHead.dlRdwi u
  | .dlPeek u a => Laws.EncodedHead.dlPeek u a
  | .sat a => Laws.EncodedHead.sat a
  | .smLoad u a => Laws.EncodedHead.smLoad u a
  | .smStep u a => Laws.EncodedHead.smStep u a
  | .smRd u => Laws.EncodedHead.smRd u

/-- The rows of the opcode map one by one, for a fact that each row shows on its own. -/
theorem forall_mem_opcodeTable {P : Row → Prop} : (∀ row ∈ opcodeTable, P row) ↔
    (∀ row ∈ globalRows, P row) ∧ (∀ row ∈ filterRows, P row) ∧ (∀ row ∈ oscillatorRows, P row) ∧
    (∀ row ∈ delayRows, P row) ∧ ∀ row ∈ saturatorSmootherRows, P row := by
  simp only [opcodeTable, List.forall_mem_append, and_assoc]

/-- The command of a row is of the row's family and, where there is one, names the UNIT value. -/
theorem make_family {row : Row} (h : row ∈ opcodeTable) (u : Nat) (a b c : Word) :
    family? (row.make u a b c) = row.family ∧ (row.make u a b c).unit? = row.family.map fun _ => u := by
  revert row
  rw [forall_mem_opcodeTable]
  simp [globalRows, filterRows, oscillatorRows, delayRows, saturatorSmootherRows, family?, Instr.unit?]

theorem operands_le_three : ∀ row ∈ opcodeTable, row.operands ≤ 3 := by decide

/-- A row's command is well formed when the UNIT value fits the field. -/
theorem wellFormed_make {row : Row} (h : row ∈ opcodeTable) {u : Nat} (hu : u < 256) (a b c : Word) :
    (row.make u a b c).wellFormed = true := by
  rw [Instr.wellFormed, (make_family h u a b c).2]
  cases row.family <;> simp [unitFits, hu]

/-- The operand words a row takes are the first ones of the words that follow. -/
theorem take_operands {row : Row} (h : row ∈ opcodeTable) {ws : List Word} (hlen : row.operands ≤ ws.length) :
    [ws.getD 0 0, ws.getD 1 0, ws.getD 2 0].take row.operands = ws.take row.operands := by
  have hk := operands_le_three row h
  refine List.ext_getElem (by simp; omega) fun n h1 h2 => ?_
  have hn : n < row.operands := (List.length_take_le ..).trans_lt' h2
  have : n = 0 ∨ n = 1 ∨ n = 2 := by omega
  rcases this with rfl | rfl | rfl <;>
    simp [List.getD_eq_getElem?_getD, List.getElem?_eq_getElem (Nat.lt_of_lt_of_le hn hlen)]

/-- A row's command depends on no word past the operands the row takes. -/
theorem make_congr {row : Row} (h : row ∈ opcodeTable) (u : Nat) {a b c a' b' c' : Word}
    (hops : [a, b, c].take row.operands = [a', b', c'].take row.operands) :
    row.make u a b c = row.make u a' b' c' := by
  revert row
  rw [forall_mem_opcodeTable]
  simp +contextual [globalRows, filterRows, oscillatorRows, delayRows, saturatorSmootherRows]

/-- Settles O2: the encoding is a command word that decodes to the command's row, and the row's operand words. -/
theorem decodeInvertsEncode : Obligations.DecodeInvertsEncode := by
  intro i rest hwf
  obtain ⟨row, ops, hencode, hhead, hlen, -, hmake⟩ := encodedHead i hwf
  have hdecode := decode_cons (rest := ops ++ rest) hhead (by simp [hlen])
  rw [hencode, List.cons_append, hdecode, hmake rest, ← hlen, List.drop_left]

/-- Settles O3: a decoded command is its row's, whose encoding is the command word and the operand words taken. -/
theorem encodeInvertsDecode : Obligations.EncodeInvertsDecode := by
  intro ws i rest h
  obtain ⟨cmd, tail, row, u, rfl, hhead, hlen, rfl, rfl⟩ := decode_ok h
  obtain ⟨hrow, hu, -, hunit, hcmd⟩ := decodeHead_ok hhead
  obtain ⟨hmem, -⟩ := rowOf_some hrow
  refine ⟨wellFormed_make hmem (hu ▸ unitField_lt cmd) _ _ _, ?_⟩
  rw [encode_make hrow hunit, take_operands hmem hlen, ← hcmd, List.cons_append, List.take_append_drop]

/-! ## Which words decode (30_encoding.md R82, R85, R87) -/

/-- The listed opcodes are those of the rows. -/
theorem mem_listedOpcodes {n : Nat} : n ∈ listedOpcodes ↔ ∃ row, rowOf n = some row := by
  have hopcodes : listedOpcodes = opcodeTable.map Row.opc := rfl
  rw [hopcodes, ← Option.isSome_iff_exists, rowOf, List.find?_isSome]
  simp

/-- The rows of no family are those of ACT, STAT.RD, FCMD.RD and SAT (30_encoding.md R82). -/
theorem family_eq_none_iff : ∀ row ∈ opcodeTable, row.family = none ↔ row.opc ∈ [0x01, 0x02, 0x03, 0x40] := by
  decide

/-- Settles O4: `decodeHead` tests for a row, RSV and UNIT, and the word it accepts is the command word of what it gives. -/
theorem everyWordIsACommandOrIllegal : Obligations.EveryWordIsACommandOrIllegal := by
  refine fun w => ⟨⟨?legal, ?decodes⟩, ?word⟩
  case legal =>
    rintro ⟨row, u, h⟩
    obtain ⟨hrow, hu, hrsv, hunit, -⟩ := decodeHead_ok h
    obtain ⟨hmem, hopc⟩ := rowOf_some hrow
    refine ⟨mem_listedOpcodes.mpr ⟨row, hrow⟩, hrsv, fun hglobal => ?_⟩
    rw [← hu, hunit ((family_eq_none_iff row hmem).mpr (hopc ▸ hglobal))]
  case decodes =>
    rintro ⟨hlisted, hrsv, hunit⟩
    obtain ⟨row, hrow⟩ := mem_listedOpcodes.mp hlisted
    obtain ⟨hmem, hopc⟩ := rowOf_some hrow
    have hhead := decodeHead_cmdWord (opcField_lt w) (unitField_lt w) hrow fun hfam =>
      hunit (hopc ▸ (family_eq_none_iff row hmem).mp hfam)
    rw [cmdWord_fields hrsv] at hhead
    exact ⟨row, _, hhead⟩
  case word =>
    intro row u h
    obtain ⟨hrow, hu, -, -, hword⟩ := decodeHead_ok h
    obtain ⟨hmem, hopc⟩ := rowOf_some hrow
    have hlt : u < 256 := hu ▸ unitField_lt w
    refine ⟨hmem, hlt, ?_⟩
    conv_lhs => rw [hword]
    rw [cmdWord_toNat (opcField_lt w) hlt, hopc]
    norm_num

/-- Settles O1: the decoder is evaluated on each list of words. -/
theorem specWordsDecode : Obligations.SpecWordsDecode := by
  unfold Obligations.SpecWordsDecode
  decide

end Sys2Proof.Machine

/-! Steps (60_exceptions.md R202, 70_reset_and_hazards.md R230): all that one step can do, and what a run of steps does from
the Faulted state and from power-on reset. -/

namespace Sys2Proof.Machine

/-! ## All that one step can do -/

/-- A command that no check stops has its effect. -/
theorem exec_effect {i : Instr} {s : State} (hf : s.faulted = false) (h : firstFault i s = none) :
    exec i s = .next (effect i s) := by
  rw [exec_eq, hf, h]
  rfl

/-- A command that a check stops enters the fault of the first one that does. -/
theorem exec_fault {i : Instr} {s : State} {c : Cause} (hf : s.faulted = false) (h : firstFault i s = some c) :
    exec i s = .next (raiseFault c i.commandWord s) := by
  rw [exec_eq, hf, h]
  rfl

theorem exec_next (i : Instr) (s : State) : ∃ t, exec i s = .next t := by
  rw [exec_eq]
  split_ifs
  · exact ⟨s, rfl⟩
  · cases firstFault i s with
    | none => exact ⟨_, rfl⟩
    | some c => exact ⟨_, rfl⟩

@[simp] theorem State.respond_nil (s : State) : s.respond [] = s := by
  simp [State.respond]

/-- A step in the Faulted state takes at most one word and answers at most a result, nothing else. -/
theorem step_faulted {s : State} (hp : s.por = false) (hf : s.faulted = true) :
    ∃ rest res, step s = .next ((s.tookCommand rest).respond res) := by
  cases hi : s.inbox with
  | nil =>
    refine ⟨[], [], ?_⟩
    rw [step_settle (fetch_empty hp hi), State.tookCommand_self hi, State.respond_nil]
  | cons cmd rest =>
    have hfetch := fetch_faulted hp hi hf
    rcases fetchFaulted_cases cmd (s.tookCommand rest) with ⟨-, hword⟩ | ⟨-, hword⟩ | ⟨-, -, hword⟩
    · exact ⟨rest, _, step_run (hfetch.trans hword)⟩
    · exact ⟨rest, _, step_run (hfetch.trans hword)⟩
    · refine ⟨rest, [], ?_⟩
      rw [step_settle (hfetch.trans hword), State.respond_nil]

/-- All that one step can do: take the power-on reset, wait, take a word and perhaps answer in the Faulted state, enter the
fault of a word that is no command of the unit, or run a command with its words taken. -/
theorem step_cases {s t : State} (h : step s = .next t) :
    (s.por = true ∧ t = s.powerOn) ∨
    (s.por = false ∧ t = s) ∨
    (s.por = false ∧ s.faulted = true ∧ ∃ rest res, t = (s.tookCommand rest).respond res) ∨
    (s.por = false ∧ s.faulted = false ∧ ∃ c cmd rest, t = raiseFault c cmd (s.tookCommand rest)) ∨
    (s.por = false ∧ s.faulted = false ∧ ∃ i rest, exec i (s.tookCommand rest) = .next t) := by
  rcases fetch_cases s with ⟨hp, hfetch⟩ | ⟨hp, hfetch⟩ | ⟨hp, cmd, rest, -, hf, -⟩ |
    ⟨hp, cmd, rest, c, -, hf, -, hfetch⟩ | ⟨hp, cmd, rest, row, u, -, hf, -, -, -, hfetch⟩
  · cases (step_settle hfetch).symm.trans h
    exact .inl ⟨hp, rfl⟩
  · cases (step_settle hfetch).symm.trans h
    exact .inr (.inl ⟨hp, rfl⟩)
  · obtain ⟨rest, res, hstep⟩ := step_faulted hp hf
    cases hstep.symm.trans h
    exact .inr (.inr (.inl ⟨hp, hf, rest, res, rfl⟩))
  · cases (step_settle hfetch).symm.trans h
    exact .inr (.inr (.inr (.inl ⟨hp, hf, c, cmd, rest, rfl⟩)))
  · exact .inr (.inr (.inr (.inr ⟨hp, hf, _, rest.drop row.operands, (step_run hfetch).symm.trans h⟩)))

/-- Settles O12: where a command runs, `exec_next`. -/
theorem everyStepAnswersNext : Obligations.EveryStepAnswersNext := by
  intro s
  cases hfetch : fetch s with
  | settle t => exact ⟨t, step_settle hfetch⟩
  | run i t =>
    obtain ⟨t', h⟩ := exec_next i t
    exact ⟨t', (step_run hfetch).trans h⟩

/-! ## The command at the head of the port -/

/-- The unit that a row's command names is missing exactly when the command's unit does not exist. -/
theorem unitExists_make {row : Row} (h : row ∈ opcodeTable) (u : Nat) (a b c : Word) (s : State) :
    unitExists (row.make u a b c) s = !unitMissing s row.family u := by
  obtain ⟨hfam, hunit⟩ := make_family h u a b c
  rw [unitExists, hfam, hunit]
  cases row.family <;> simp [unitMissing, ← decide_not]

/-- Settles O6: the head of the queue decodes to the command's row and UNIT value, the unit is there and so are the operand
words. -/
theorem stepRunsDecodedCommand : Obligations.StepRunsDecodedCommand := by
  intro s i rest hp hf hdecode hexists
  obtain ⟨cmd, tail, row, u, hi, hhead, hlen, rfl, rfl⟩ := decode_ok hdecode
  obtain ⟨hmem, -⟩ := rowOf_some (decodeHead_ok hhead).1
  have hunit : unitMissing s row.family u = false := by
    simpa [unitExists_make hmem] using hexists
  exact step_run ((fetch_command hp hi hf).trans (fetchCommand_run hhead hunit hlen))

/-- Settles O7: without a word, or with operand words missing, fetching leaves the state as it is. -/
theorem stepWaitsForWords : Obligations.StepWaitsForWords := by
  refine ⟨fun s hp hi => step_settle (fetch_empty hp hi), ?_⟩
  intro s w rest row u hp hf hi hhead hcount hlen
  have hunit : unitMissing s row.family u = false := by
    cases hfam : row.family with
    | none => rfl
    | some f => exact decide_eq_false (Nat.not_le.mpr (hcount f hfam))
  exact step_settle ((fetch_command hp hi hf).trans (fetchCommand_wait hhead hunit hlen))

/-! ## Words sent later (70_reset_and_hazards.md R240) -/

@[simp] theorem firstFault_hostSend (i : Instr) (s : State) (ws : List Word) :
    firstFault i (s.hostSend ws) = firstFault i s := rfl

/-- No command's effect touches the words that the core has not taken. -/
theorem effect_hostSend (i : Instr) (s : State) (ws : List Word) :
    effect i (s.hostSend ws) = (effect i s).hostSend ws := by
  cases i <;> rfl

theorem exec_hostSend {i : Instr} {s t : State} (h : exec i s = .next t) (ws : List Word) :
    exec i (s.hostSend ws) = .next (t.hostSend ws) := by
  rw [exec_eq, firstFault_hostSend, State.hostSend_faulted]
  rcases exec_cases h with ⟨hf, hrun, rfl⟩ | ⟨c, hf, hc, rfl⟩ | ⟨hf, hc, rfl⟩
  · simp [hf, hrun]
  · simp only [hf, hc]
    rfl
  · have hnot : (s.faulted && !runsFaulted i) = false := by rcases hf with hf | hf <;> simp [hf]
    simp only [hc, hnot, effect_hostSend, Bool.false_eq_true, if_false]

/-- More words behind the operand words do not change the command. -/
theorem commandOf_append {row : Row} (h : row ∈ opcodeTable) {rest : List Word} (hlen : row.operands ≤ rest.length)
    (u : Nat) (ws : List Word) : commandOf row u (rest ++ ws) = commandOf row u rest := by
  refine make_congr h u ?_
  rw [take_operands h hlen, take_operands h (hlen.trans (by simp)), List.take_append_of_le_length hlen]

/-- What taking words leaves, with more words sent. -/
theorem hostSend_tookOperands {s : State} {rest : List Word} {k : Nat} (hk : k ≤ rest.length) (ws : List Word) :
    (s.hostSend ws).tookOperands (rest ++ ws) k = (s.tookOperands rest k).hostSend ws := by
  simp [State.tookOperands, State.hostSend, List.drop_append_of_le_length hk]

section
variable {s t : State} {cmd : Word} {rest : List Word}

theorem step_faulted_hostSend (hp : s.por = false) (hf : s.faulted = true) (hi : s.inbox = cmd :: rest)
    (h : step s = .next t) (ws : List Word) : step (s.hostSend ws) = .next (t.hostSend ws) := by
  have hfetch := fetch_faulted hp hi hf
  have hfetch' : fetch (s.hostSend ws) = fetchFaulted cmd ((s.tookCommand rest).hostSend ws) :=
    fetch_faulted hp (by simp [hi]) hf
  rcases fetchFaulted_cases cmd (s.tookCommand rest) with ⟨rfl, hword⟩ | ⟨rfl, hword⟩ | ⟨hstat, hfcmd, hword⟩
  · cases (step_run (hfetch.trans hword)).symm.trans h
    exact step_run hfetch'
  · cases (step_run (hfetch.trans hword)).symm.trans h
    exact step_run hfetch'
  · cases (step_settle (hfetch.trans hword)).symm.trans h
    rw [fetchFaulted, if_neg hstat, if_neg hfcmd] at hfetch'
    exact step_settle hfetch'

theorem step_command_hostSend (hp : s.por = false) (hf : s.faulted = false) (hi : s.inbox = cmd :: rest)
    (h : step s = .next t) (hne : t ≠ s) (ws : List Word) : step (s.hostSend ws) = .next (t.hostSend ws) := by
  have hi' : (s.hostSend ws).inbox = cmd :: (rest ++ ws) := by simp [hi]
  have hfetch := fetch_command hp hi hf
  cases hhead : decodeHead cmd with
  | error e =>
    cases (step_illegal hp hf hi hhead).symm.trans h
    exact step_illegal (s := s.hostSend ws) hp hf hi' hhead
  | ok p =>
    obtain ⟨row, u⟩ := p
    cases hunit : unitMissing s row.family u with
    | true =>
      cases (step_badUnit hp hf hi hhead hunit).symm.trans h
      exact step_badUnit (s := s.hostSend ws) hp hf hi' hhead hunit
    | false =>
      rcases Nat.lt_or_ge rest.length row.operands with hlen | hlen
      · cases (step_settle (hfetch.trans (fetchCommand_wait hhead hunit hlen))).symm.trans h
        exact absurd rfl hne
      · obtain ⟨hmem, -⟩ := rowOf_some (decodeHead_ok hhead).1
        have hrun := step_run (hfetch.trans (fetchCommand_run hhead hunit hlen))
        have hfetch' := (fetch_command (s := s.hostSend ws) hp hi' hf).trans
          (fetchCommand_run hhead hunit (hlen.trans (by simp)))
        rw [commandOf_append hmem hlen, hostSend_tookOperands hlen] at hfetch'
        exact (step_run hfetch').trans (exec_hostSend (hrun.symm.trans h) ws)

end

/-- Settles O11: each case of a step that does not wait is the same case with the later words behind. -/
theorem laterWordsDoNotChangeAStep : Obligations.LaterWordsDoNotChangeAStep := by
  intro s t ws h hne
  cases hp : s.por with
  | true =>
    cases (step_settle (fetch_por hp)).symm.trans h
    exact step_settle (fetch_por (s := s.hostSend ws) hp)
  | false =>
    cases hi : s.inbox with
    | nil =>
      cases (step_settle (fetch_empty hp hi)).symm.trans h
      exact absurd rfl hne
    | cons cmd rest =>
      cases hf : s.faulted with
      | true => exact step_faulted_hostSend hp hf hi h ws
      | false => exact step_command_hostSend hp hf hi h hne ws

/-! ## The Faulted state (60_exceptions.md R204, R205) -/

/-- Settles O9: by induction on the steps, each of which takes a word and perhaps answers (`step_faulted`). -/
theorem faultedRunsChangeNoState : Obligations.FaultedRunsChangeNoState := by
  intro n
  induction n with
  | zero => exact fun s hp hf => ⟨s, rfl, hf, rfl, rfl, rfl, rfl, rfl, rfl, rfl, hp⟩
  | succ n ih =>
    intro s hp hf
    obtain ⟨rest, res, hstep⟩ := step_faulted hp hf
    obtain ⟨t, hrun, hdata⟩ := ih ((s.tookCommand rest).respond res) hp hf
    exact ⟨t, (run_succ_of_step hstep n).trans hrun, hdata⟩

/-- Settles O10: without the reset a step from the Faulted state stays there (`step_faulted`). -/
theorem onlyPowerOnResetLeavesFaulted : Obligations.OnlyPowerOnResetLeavesFaulted := by
  intro s t h
  cases hp : s.por with
  | true =>
    cases (step_settle (fetch_por hp)).symm.trans h
    exact ⟨fun _ _ => ⟨rfl, rfl⟩, fun _ => rfl⟩
  | false =>
    refine ⟨fun hf ht => ?_, fun hp' => absurd hp' Bool.false_ne_true⟩
    obtain ⟨rest, res, hstep⟩ := step_faulted hp hf
    cases hstep.symm.trans h
    exact absurd (ht.symm.trans hf) Bool.false_ne_true

end Sys2Proof.Machine

/-! Power-on reset (10_state.md R43, 70_reset_and_hazards.md R230, R231): the state it leaves, and the boot sequence. -/

namespace Sys2Proof.Machine

/-! ## The state after power-on reset -/

/-- Nothing is configured after power-on reset. -/
theorem resetWith_unconfigured (p : Params) :
    (∀ f ∈ (State.resetWith p).filters, f.cv = false) ∧
    (∀ o ∈ (State.resetWith p).oscs, o.vf = false ∧ o.vs = false) ∧
    ∀ r ∈ (State.resetWith p).smoothers, r.vy = false := by
  refine ⟨fun f hf => ?_, fun o ho => ?_, fun r hr => ?_⟩
  · rw [List.eq_of_mem_replicate hf, FilterRegs.reset]
  · rw [List.eq_of_mem_replicate ho]
    exact ⟨rfl, rfl⟩
  · rw [List.eq_of_mem_replicate hr, SmootherRegs.reset]

theorem statusWord_inactive {s : State} (ha : s.act = false) (hf : s.faulted = false) (hc : s.cause = 0#8) :
    statusWord s = 0#32 := by
  rw [statusWord, ha, hf, hc]
  rfl

theorem statusWord_active {s : State} (ha : s.act = true) (hf : s.faulted = false) (hc : s.cause = 0#8) :
    statusWord s = 0x00000001#32 := by
  rw [statusWord, ha, hf, hc]
  rfl

/-- Settles O13: the fields of `State.resetWith`. -/
theorem resetLeavesUnitUnconfigured : Obligations.ResetLeavesUnitUnconfigured := by
  intro p
  obtain ⟨hfilters, hoscs, hsmoothers⟩ := resetWith_unconfigured p
  exact ⟨statusWord_inactive rfl rfl rfl, rfl, rfl, rfl, hfilters, hoscs, hsmoothers, State.resetWith_params p⟩

/-- Settles O14: the step takes `State.powerOn`, which is the reset state with the port's queues. -/
theorem powerOnResetIsTakenFirst : Obligations.PowerOnResetIsTakenFirst := by
  intro s hp
  obtain ⟨hfilters, hoscs, hsmoothers⟩ := resetWith_unconfigured s.params
  exact ⟨s.powerOn, step_settle (fetch_por hp), statusWord_inactive rfl rfl rfl, rfl, rfl, s.powerOn_params, hfilters, hoscs,
    hsmoothers, rfl, rfl⟩

/-- Settles O21: the counts are those of the parameters, and a delay line after reset is legal. -/
theorem resetIsLegal : Obligations.ResetIsLegal := by
  rintro p ⟨hnf, hno, hnd, hns, hcap⟩
  have hlines : ∀ d ∈ (State.resetWith p).delays, d.wf := by
    intro d hd
    obtain ⟨k, hk, rfl⟩ := List.mem_map.mp hd
    obtain ⟨h1, h31⟩ := hcap k hk
    exact DelayLine.wf_reset h1 h31
  refine ⟨?_, ?_, ?_, ?_, hlines, rfl, rfl⟩ <;> simpa [State.resetWith]

/-! ## The boot sequence (70_reset_and_hazards.md R231) -/

theorem encodeAll_cons (i : Instr) (is : List Instr) : encodeAll (i :: is) = encode i ++ encodeAll is := rfl

/-- A step that finds a well-formed command of a unit that exists at the head of the port runs it. -/
theorem step_encode {s : State} {i : Instr} {rest : List Word} (hp : s.por = false) (hf : s.faulted = false)
    (hwf : i.wellFormed = true) (hu : unitExists i s = true) (hi : s.inbox = encode i ++ rest) :
    step s = exec i (s.tookCommand rest) :=
  stepRunsDecodedCommand s i rest hp hf (hi ▸ decodeInvertsEncode i rest hwf) hu

/-- Which units exist is a matter of the parameters. -/
theorem unitExists_congr {s t : State} (h : t.params = s.params) (i : Instr) : unitExists i t = unitExists i s := by
  have hcount : t.count = s.count := by
    have hdelays : t.delays.length = s.delays.length := by
      simpa [State.params] using congrArg (fun p => p.capLog2.length) h
    funext f
    cases f with
    | filt => exact congrArg Params.nf h
    | osc => exact congrArg Params.no h
    | dl => exact hdelays
    | sm => exact congrArg Params.ns h
  rw [unitExists, unitExists, hcount]

/-- No check but that of its unit stops a command that loads registers, and it answers nothing. -/
theorem exec_loads {i : Instr} {s : State} (hload : loads i = true) (hf : s.faulted = false)
    (hu : unitExists i s = true) : exec i s = .next (effect i s) ∧ (effect i s).outbox = s.outbox := by
  have hchecks : firstFault i s = none ∧ (effect i s).outbox = s.outbox := by
    cases i with
    | filtCfg | oscSetf | oscSets | smLoad =>
      exact ⟨by simp [firstFault, hu, needsAct, configuredOk, delayOk], rfl⟩
    | _ => exact absurd hload Bool.false_ne_true
  exact ⟨exec_effect hf hchecks.1, hchecks.2⟩

theorem core_run_succ {s t : State} (h : step s = .next t) (k : Nat) : core.run (k + 1) s = core.run k t :=
  run_succ_of_step h k

/-- STAT.RD alone at the port of an Active unit that is not Faulted. -/
theorem run_statRd {s : State} (hp : s.por = false) (hf : s.faulted = false) (hc : s.cause = 0#8) (ha : s.act = true)
    (hi : s.inbox = encode .statRd) :
    ∃ t, core.run 1 s = .next t ∧ t.outbox = s.outbox ++ [0x00000001#32] ∧ t.inbox = [] := by
  have hstep : step s = .next ((s.tookCommand []).respond [statusWord (s.tookCommand [])]) :=
    step_encode (i := .statRd) hp hf rfl rfl (hi.trans (List.append_nil _).symm)
  rw [statusWord_active (s := s.tookCommand []) ha hf hc] at hstep
  exact ⟨_, core_run_succ hstep 0, rfl, rfl⟩

/-- Commands that load registers, then ACT and STAT.RD, sent to a unit that is not Faulted: they all run, and the one
result is the STATUS word with ACT set. -/
theorem run_boot (cmds : List Instr) {s : State} (hp : s.por = false) (hf : s.faulted = false) (hc : s.cause = 0#8)
    (hcmds : ∀ c ∈ cmds, loads c = true ∧ c.wellFormed = true ∧ unitExists c s = true)
    (hi : s.inbox = encodeAll (cmds ++ [.act, .statRd])) :
    ∃ t, core.run (cmds.length + 2) s = .next t ∧ t.outbox = s.outbox ++ [0x00000001#32] ∧ t.inbox = [] := by
  induction cmds generalizing s with
  | nil =>
    have hact := (step_encode (i := .act) (rest := encode .statRd) hp hf rfl rfl hi).trans (exec_act hf)
    obtain ⟨t, hrun, htout, htin⟩ := run_statRd (s := effect .act (s.tookCommand (encode .statRd))) (by simpa using hp)
      (by simpa using hf) (by simpa using hc) ((effect_act _ _).mpr (.inl rfl)) (by simp)
    exact ⟨t, (core_run_succ hact 1).trans hrun, htout, htin⟩
  | cons c cmds ih =>
    obtain ⟨⟨hload, hwf, hu⟩, hrest⟩ := List.forall_mem_cons.mp hcmds
    rw [List.cons_append, encodeAll_cons] at hi
    generalize hwords : encodeAll (cmds ++ [.act, .statRd]) = words at hi
    obtain ⟨hexec, hout⟩ := exec_loads (s := s.tookCommand words) hload hf hu
    have hstep : step s = .next (effect c (s.tookCommand words)) := (step_encode hp hf hwf hu hi).trans hexec
    have hcmds' : ∀ c' ∈ cmds, loads c' = true ∧ c'.wellFormed = true ∧
        unitExists c' (effect c (s.tookCommand words)) = true := fun c' hc' => by
      rw [unitExists_congr (step_params hstep)]
      exact hrest c' hc'
    obtain ⟨t, hrun, htout, htin⟩ := ih (s := effect c (s.tookCommand words)) (by simpa using hp) (by simpa using hf)
      (by simpa using hc) hcmds' (by simp [hwords])
    refine ⟨t, ?_, htout.trans (congrArg (· ++ [0x00000001#32]) hout), htin⟩
    rw [List.length_cons, Nat.add_right_comm]
    exact (core_run_succ hstep _).trans hrun

/-- Settles O15: the boot sequence (`run_boot`) from the reset state, which exists with nothing in its queues. -/
theorem bootSequenceReadsStatusOne : Obligations.BootSequenceReadsStatusOne := by
  intro p cmds hcmds
  have hcmds' : ∀ c ∈ cmds, loads c = true ∧ c.wellFormed = true ∧
      unitExists c ((State.resetWith p).hostSend (encodeAll (cmds ++ [.act, .statRd]))) = true := hcmds
  obtain ⟨t, hrun, hout, hin⟩ := run_boot cmds (by rfl) (by rfl) (by rfl) hcmds' (by rfl)
  exact ⟨t, hrun, hout, hin⟩

end Sys2Proof.Machine

/-! Faults and results (60_exceptions.md R202, R208, 30_encoding.md R85): the order of the checks, what they depend on, and how
many result words a command returns. -/

namespace Sys2Proof.Machine

/-! ## The checks in order (60_exceptions.md R202) -/

/-- No check fails: each of the four passes. -/
theorem firstFault_eq_none {i : Instr} {s : State} : firstFault i s = none ↔
    unitExists i s = true ∧ (needsAct i = true → s.act = true) ∧ configuredOk i s = true ∧ delayOk i = true := by
  rw [firstFault]
  split_ifs <;> simp_all

/-- STAT.RD and FCMD.RD have no check that could fail. -/
theorem firstFault_of_runsFaulted {i : Instr} (h : runsFaulted i = true) (s : State) : firstFault i s = none := by
  cases i with
  | statRd | fcmdRd => rfl
  | _ => exact absurd h Bool.false_ne_true

/-- Settles O16: `exec_fault` where a check fails, `exec_effect` where none does. -/
theorem checksComeInOrder : Obligations.ChecksComeInOrder := by
  refine fun i s hf => ⟨fun c hc => ⟨?_, exec_fault hf hc⟩, fun hnone => ?_⟩
  · by_contra hrun
    rw [firstFault_of_runsFaulted (Bool.not_eq_false _ ▸ hrun) s] at hc
    cases hc
  · exact ⟨effect i s, exec_effect hf hnone, by simp [hf], by simp, by simp⟩

/-! ## What decides whether a command faults (60_exceptions.md R208) -/

/-- A well-formed command is made by the row that its command word decodes to. -/
theorem eq_make_of_wellFormed {i : Instr} (h : i.wellFormed = true) :
    ∃ row u a b c, decodeHead i.commandWord = .ok (row, u) ∧ i = row.make u a b c := by
  obtain ⟨row, ops, -, hhead, -, -, hmake⟩ := encodedHead i h
  exact ⟨row, _, _, _, _, hhead, (hmake []).symm⟩

/-- The checks on a row's command, DL.RD apart, do not look at its operand words, nor does it depend on them whether the
command is ACT or runs in the Faulted state. -/
theorem checks_make_congr {row : Row} (h : row ∈ opcodeTable) (u : Nat) (a b c a' b' c' : Word)
    (hne : ∀ v d, row.make u a b c ≠ .dlRd v d) :
    (∀ s, firstFault (row.make u a b c) s = firstFault (row.make u a' b' c') s) ∧
    runsFaulted (row.make u a b c) = runsFaulted (row.make u a' b' c') ∧
    (row.make u a b c = .act ↔ row.make u a' b' c' = .act) := by
  revert row
  rw [forall_mem_opcodeTable]
  simp [globalRows, filterRows, oscillatorRows, delayRows, saturatorSmootherRows, firstFault, unitExists, family?,
    Instr.unit?, needsAct, configuredOk, delayOk, runsFaulted]

/-- Settles O18: commands with one command word are made by one row, whose checks do not look at operands. -/
theorem operandValuesNeverFault : Obligations.OperandValuesNeverFault := by
  intro i j s t t' hi hj hword hne h h'
  obtain ⟨row, u, a, b, c, hhead, rfl⟩ := eq_make_of_wellFormed hi
  obtain ⟨row', u', a', b', c', hhead', rfl⟩ := eq_make_of_wellFormed hj
  rw [← hword, hhead] at hhead'
  cases hhead'
  obtain ⟨hmem, -⟩ := rowOf_some (decodeHead_ok hhead).1
  obtain ⟨hfault, hruns, hact⟩ := checks_make_congr hmem u a b c a' b' c' hne
  rw [exec_eq] at h h'
  rw [← hruns, ← hfault, ← hword] at h'
  split_ifs at h h' with hdropped
  · cases h
    cases h'
    exact ⟨rfl, rfl, rfl, rfl⟩
  · cases hc : firstFault (row.make u a b c) s with
    | some c =>
      rw [hc] at h h'
      cases h
      cases h'
      exact ⟨rfl, rfl, rfl, rfl⟩
    | none =>
      rw [hc] at h h'
      cases h
      cases h'
      refine ⟨?_, by simp, by simp, by simp⟩
      rw [Bool.eq_iff_iff, effect_act, effect_act, hact]

/-! ## Result words (30_encoding.md R80, R85) -/

/-- The result words a command returns when it runs. -/
def results (i : Instr) (s : State) : List Word := (effect i s).outbox.drop s.outbox.length

/-- A command that runs delivers its results behind those delivered before. -/
theorem effect_outbox (i : Instr) (s : State) : (effect i s).outbox = s.outbox ++ results i s := by
  cases i <;> simp [results, effect]

theorem length_results_make {row : Row} (h : row ∈ opcodeTable) (u : Nat) (a b c : Word) (s : State) :
    (results (row.make u a b c) s).length = row.results := by
  revert row
  rw [forall_mem_opcodeTable]
  simp [globalRows, filterRows, oscillatorRows, delayRows, saturatorSmootherRows, results, effect]

/-- Settles O19: a fault delivers nothing, and a command that runs delivers its `results`. -/
theorem resultWordsMatchTheOpcodeMap : Obligations.ResultWordsMatchTheOpcodeMap := by
  intro i s t hwf hf h
  rcases exec_cases h with ⟨hf', -, -⟩ | ⟨c, -, -, rfl⟩ | ⟨-, -, rfl⟩
  · exact absurd (hf.symm.trans hf') Bool.false_ne_true
  · exact ⟨fun _ => rfl, fun ht => absurd ht.symm Bool.false_ne_true⟩
  · refine ⟨fun ht => absurd (hf.symm.trans ((effect_faulted i s).symm.trans ht)) Bool.false_ne_true, fun _ => ?_⟩
    obtain ⟨row, u, a, b, c, hhead, hmake⟩ := eq_make_of_wellFormed hwf
    obtain ⟨hmem, hopc⟩ := rowOf_some (decodeHead_ok hhead).1
    exact ⟨row, results i s, hmem, hopc.trans (opcField_eq _), effect_outbox i s, hmake ▸ length_results_make hmem u a b c s⟩

end Sys2Proof.Machine

/-! What a command does to each unit, said once: the registers of unit `u` after the command are a function of those before,
and every other part of the state is written by fault entry and ACT alone. -/

namespace Sys2Proof.Machine

/-! ## The registers of one unit after a command -/

/-- The registers of filter `u` after a command that runs. -/
def FilterRegs.after (i : Instr) (A : Arith F32) (u : Nat) (f : FilterRegs) : FilterRegs :=
  match i with
  | .act => f.activate
  | .filtCfg v a b c => if v = u then f.configure (filterCoefficients A a b c) else f
  | .filtProc v x => if v = u then f.process A x else f
  | _ => f

/-- The registers of oscillator pair `u` after a command that runs. -/
def OscRegs.after (i : Instr) (nan : Nat → F32) (u : Nat) (o : OscRegs) : OscRegs :=
  match i with
  | .act => o.activate
  | .oscSetf v x => if v = u then { o with incf := x, vf := true } else o
  | .oscSets v x => if v = u then { o with incs := x, vs := true } else o
  | .oscStep v => if v = u then o.advance nan else o
  | _ => o

/-- Delay line `u` after a command that runs. -/
def DelayLine.after (i : Instr) (u : Nat) (d : DelayLine) : DelayLine :=
  match i with
  | .act => d.activate
  | .dlWr v x => if v = u then d.push x else d
  | _ => d

/-- The registers of smoother `u` after a command that runs. -/
def SmootherRegs.after (i : Instr) (A : Arith F32) (u : Nat) (r : SmootherRegs) : SmootherRegs :=
  match i with
  | .smLoad v x => if v = u then { y := x, vy := true } else r
  | .smStep v x => if v = u then { r with y := smoothed A r.y x } else r
  | _ => r

/-- Writing one place of a list with a function of what stands there, whatever stands for it past the end. -/
theorem getElem?_set_getD {α : Type} (l : List α) (v u : Nat) (d : α) (g : α → α) :
    (l.set v (g (l[v]?.getD d)))[u]? = l[u]?.map fun a => if v = u then g a else a := by
  rw [List.getElem?_set]
  split_ifs with huv hlt
  · subst huv
    simp [List.getElem?_eq_getElem hlt]
  · subst huv
    simp [List.getElem?_eq_none (Nat.not_lt.mp hlt)]
  · simp

theorem effect_filters (i : Instr) (s : State) (u : Nat) :
    (effect i s).filters[u]? = s.filters[u]?.map (FilterRegs.after i s.arith u) := by
  cases i with
  | act => exact List.getElem?_map
  | filtCfg v a b c => exact getElem?_set_getD s.filters v u _ fun f => f.configure (filterCoefficients s.arith a b c)
  | filtProc v x => exact getElem?_set_getD s.filters v u _ fun f => f.process s.arith x
  | _ => exact Option.map_id'.symm

theorem effect_oscs (i : Instr) (s : State) (u : Nat) :
    (effect i s).oscs[u]? = s.oscs[u]?.map (OscRegs.after i s.nan u) := by
  cases i with
  | act => exact List.getElem?_map
  | oscSetf v x => exact getElem?_set_getD s.oscs v u _ fun o => { o with incf := x, vf := true }
  | oscSets v x => exact getElem?_set_getD s.oscs v u _ fun o => { o with incs := x, vs := true }
  | oscStep v => exact getElem?_set_getD s.oscs v u _ fun o => o.advance s.nan
  | _ => exact Option.map_id'.symm

theorem effect_delays (i : Instr) (s : State) (u : Nat) :
    (effect i s).delays[u]? = s.delays[u]?.map (DelayLine.after i u) := by
  cases i with
  | act => exact List.getElem?_map
  | dlWr v x => exact getElem?_set_getD s.delays v u _ fun d => d.push x
  | _ => exact Option.map_id'.symm

theorem effect_smoothers (i : Instr) (s : State) (u : Nat) :
    (effect i s).smoothers[u]? = s.smoothers[u]?.map (SmootherRegs.after i s.arith u) := by
  cases i with
  | smLoad v x => exact getElem?_set_getD s.smoothers v u SmootherRegs.reset fun _ => { y := x, vy := true }
  | smStep v x => exact getElem?_set_getD s.smoothers v u _ fun r => { r with y := smoothed s.arith r.y x }
  | _ => exact Option.map_id'.symm

end Sys2Proof.Machine

/-! Frames and invariants: what each command leaves as it was (20_memory.md, 41_filter.md to 45_smoother.md), the legal state
that every step keeps, and what no step clears. -/

namespace Sys2Proof.Machine

/-! ## What a command leaves besides its effect -/

/-- STATUS.ACT and the registers of every unit are as they were. -/
def sameUnits (s t : State) : Prop :=
  t.act = s.act ∧ t.filters = s.filters ∧ t.oscs = s.oscs ∧ t.delays = s.delays ∧ t.smoothers = s.smoothers

/-- A command has its effect or writes no unit. -/
theorem exec_units {i : Instr} {s t : State} (h : exec i s = .next t) : sameUnits s t ∨ t = effect i s := by
  rcases exec_cases h with ⟨-, -, rfl⟩ | ⟨c, -, -, rfl⟩ | ⟨-, -, rfl⟩
  · exact .inl ⟨rfl, rfl, rfl, rfl, rfl⟩
  · exact .inl ⟨rfl, rfl, rfl, rfl, rfl⟩
  · exact .inr rfl

/-- A step without a power-on reset runs a command's effect or writes no unit. -/
theorem step_units {s t : State} (hp : s.por = false) (h : step s = .next t) :
    sameUnits s t ∨ ∃ i rest, t = effect i (s.tookCommand rest) := by
  rcases step_cases h with ⟨hp', -⟩ | ⟨-, rfl⟩ | ⟨-, -, rest, res, rfl⟩ | ⟨-, -, c, cmd, rest, rfl⟩ | ⟨-, -, i, rest, hexec⟩
  · exact absurd (hp.symm.trans hp') Bool.false_ne_true
  · exact .inl ⟨rfl, rfl, rfl, rfl, rfl⟩
  · exact .inl ⟨rfl, rfl, rfl, rfl, rfl⟩
  · exact .inl ⟨rfl, rfl, rfl, rfl, rfl⟩
  · exact (exec_units hexec).imp_right fun ht => ⟨i, rest, ht⟩

/-- Only ACT writes STATUS.ACT, and fault entry the other status registers. -/
theorem exec_statusFrame {i : Instr} {s t : State} (hne : i ≠ .act) (h : exec i s = .next t) : statusFrame i s t := by
  rcases exec_cases h with ⟨-, -, rfl⟩ | ⟨c, -, -, rfl⟩ | ⟨-, -, rfl⟩
  · exact ⟨rfl, rfl, rfl, .inl ⟨rfl, rfl, rfl⟩⟩
  · exact ⟨rfl, rfl, rfl, .inr ⟨rfl, ⟨c, rfl⟩, rfl, rfl⟩⟩
  · have hact : (effect i s).act = s.act := by rw [Bool.eq_iff_iff, effect_act, or_iff_right hne]
    exact ⟨hact, by simp, by simp, .inl ⟨by simp, by simp, by simp⟩⟩

/-! ## Every other unit (00_scope.md R4) -/

theorem unitRegs_filt {s t : State} {u v : Nat} :
    unitRegs t .filt u = unitRegs s .filt v ↔ t.filters[u]? = s.filters[v]? :=
  (Option.map_injective fun _ _ => UnitRegs.filt.inj).eq_iff

theorem unitRegs_osc {s t : State} {u v : Nat} : unitRegs t .osc u = unitRegs s .osc v ↔ t.oscs[u]? = s.oscs[v]? :=
  (Option.map_injective fun _ _ => UnitRegs.osc.inj).eq_iff

theorem unitRegs_dl {s t : State} {u v : Nat} : unitRegs t .dl u = unitRegs s .dl v ↔ t.delays[u]? = s.delays[v]? :=
  (Option.map_injective fun _ _ => UnitRegs.dl.inj).eq_iff

theorem unitRegs_sm {s t : State} {u v : Nat} :
    unitRegs t .sm u = unitRegs s .sm v ↔ t.smoothers[u]? = s.smoothers[v]? :=
  (Option.map_injective fun _ _ => UnitRegs.sm.inj).eq_iff

section
variable {i : Instr} {f : Family} {u v : Nat} (hfam : family? i = some f) (hunit : i.unit? = some u)
include hfam hunit

theorem FilterRegs.after_of_ne (hne : (Family.filt, v) ≠ (f, u)) (A : Arith F32) :
    FilterRegs.after i A v = id := by
  cases i with
  | act => cases hfam
  | filtCfg w | filtProc w =>
    cases hfam
    cases hunit
    exact funext fun _ => if_neg fun huv : u = v => hne (huv ▸ rfl)
  | _ => rfl

theorem OscRegs.after_of_ne (hne : (Family.osc, v) ≠ (f, u)) (nan : Nat → F32) : OscRegs.after i nan v = id := by
  cases i with
  | act => cases hfam
  | oscSetf w | oscSets w | oscStep w =>
    cases hfam
    cases hunit
    exact funext fun _ => if_neg fun huv : u = v => hne (huv ▸ rfl)
  | _ => rfl

theorem DelayLine.after_of_ne (hne : (Family.dl, v) ≠ (f, u)) : DelayLine.after i v = id := by
  cases i with
  | act => cases hfam
  | dlWr w =>
    cases hfam
    cases hunit
    exact funext fun _ => if_neg fun huv : u = v => hne (huv ▸ rfl)
  | _ => rfl

theorem SmootherRegs.after_of_ne (hne : (Family.sm, v) ≠ (f, u)) (A : Arith F32) :
    SmootherRegs.after i A v = id := by
  cases i with
  | smLoad w | smStep w =>
    cases hfam
    cases hunit
    exact funext fun _ => if_neg fun huv : u = v => hne (huv ▸ rfl)
  | _ => rfl

/-- A command that names a unit leaves every other unit as it was. -/
theorem exec_frame {s t : State} (h : exec i s = .next t) {g : Family} (hne : (g, v) ≠ (f, u)) :
    unitRegs t g v = unitRegs s g v := by
  rcases exec_units h with ⟨-, hfilters, hoscs, hdelays, hsmoothers⟩ | rfl
  · simp only [unitRegs, hfilters, hoscs, hdelays, hsmoothers]
  · cases g with
    | filt => rw [unitRegs_filt, effect_filters, FilterRegs.after_of_ne hfam hunit hne, Option.map_id_apply]
    | osc => rw [unitRegs_osc, effect_oscs, OscRegs.after_of_ne hfam hunit hne, Option.map_id_apply]
    | dl => rw [unitRegs_dl, effect_delays, DelayLine.after_of_ne hfam hunit hne, Option.map_id_apply]
    | sm => rw [unitRegs_sm, effect_smoothers, SmootherRegs.after_of_ne hfam hunit hne, Option.map_id_apply]

/-- A command of another family than the filters leaves all filters as they were. -/
theorem exec_filters_of_ne {s t : State} (h : exec i s = .next t) (hf : f ≠ .filt) : t.filters = s.filters :=
  List.ext_getElem? fun v => unitRegs_filt.mp (exec_frame (v := v) hfam hunit h fun he => hf (congrArg Prod.fst he).symm)

theorem exec_oscs_of_ne {s t : State} (h : exec i s = .next t) (hf : f ≠ .osc) : t.oscs = s.oscs :=
  List.ext_getElem? fun v => unitRegs_osc.mp (exec_frame (v := v) hfam hunit h fun he => hf (congrArg Prod.fst he).symm)

theorem exec_delays_of_ne {s t : State} (h : exec i s = .next t) (hf : f ≠ .dl) : t.delays = s.delays :=
  List.ext_getElem? fun v => unitRegs_dl.mp (exec_frame (v := v) hfam hunit h fun he => hf (congrArg Prod.fst he).symm)

theorem exec_smoothers_of_ne {s t : State} (h : exec i s = .next t) (hf : f ≠ .sm) : t.smoothers = s.smoothers :=
  List.ext_getElem? fun v => unitRegs_sm.mp (exec_frame (v := v) hfam hunit h fun he => hf (congrArg Prod.fst he).symm)

end

/-! ## The unit that a command names -/

section
variable {i : Instr} {s t : State} {u : Nat} (h : exec i s = .next t)
include h

/-- A command leaves a filter as it was or has its effect on it. -/
theorem exec_filter {f f' : FilterRegs} (hf : s.filters[u]? = some f) (hf' : t.filters[u]? = some f') :
    f' = f ∨ f' = f.after i s.arith u := by
  rcases exec_units h with ⟨-, hfilters, -, -, -⟩ | rfl
  · exact .inl (Option.some.inj (hf'.symm.trans (hfilters ▸ hf)))
  · rw [effect_filters, hf] at hf'
    exact .inr (Option.some.inj hf').symm

theorem exec_osc {o o' : OscRegs} (ho : s.oscs[u]? = some o) (ho' : t.oscs[u]? = some o') :
    o' = o ∨ o' = o.after i s.nan u := by
  rcases exec_units h with ⟨-, -, hoscs, -, -⟩ | rfl
  · exact .inl (Option.some.inj (ho'.symm.trans (hoscs ▸ ho)))
  · rw [effect_oscs, ho] at ho'
    exact .inr (Option.some.inj ho').symm

theorem exec_delay {d d' : DelayLine} (hd : s.delays[u]? = some d) (hd' : t.delays[u]? = some d') :
    d' = d ∨ d' = d.after i u := by
  rcases exec_units h with ⟨-, -, -, hdelays, -⟩ | rfl
  · exact .inl (Option.some.inj (hd'.symm.trans (hdelays ▸ hd)))
  · rw [effect_delays, hd] at hd'
    exact .inr (Option.some.inj hd').symm

theorem exec_smoother {r r' : SmootherRegs} (hr : s.smoothers[u]? = some r) (hr' : t.smoothers[u]? = some r') :
    r' = r ∨ r' = r.after i s.arith u := by
  rcases exec_units h with ⟨-, -, -, -, hsmoothers⟩ | rfl
  · exact .inl (Option.some.inj (hr'.symm.trans (hsmoothers ▸ hr)))
  · rw [effect_smoothers, hr] at hr'
    exact .inr (Option.some.inj hr').symm

end

theorem slotAt_congr {s t : State} {u : Nat} (h : t.delays[u]? = s.delays[u]?) (j : Nat) :
    slotAt t u j = slotAt s u j := by
  rw [slotAt, slotAt, h]

/-! ## Frames -/

theorem effect_sameUnits {i : Instr} (h : writesNothing i = true) (s : State) : sameUnits s (effect i s) := by
  cases i with
  | act | filtCfg | filtProc | oscSetf | oscSets | oscStep | dlWr | smLoad | smStep =>
    exact absurd h Bool.false_ne_true
  | _ => exact ⟨rfl, rfl, rfl, rfl, rfl⟩

/-- Settles O26: the effect of such a command is to answer. -/
theorem readsWriteNothing : Obligations.ReadsWriteNothing := by
  intro i s t hi h
  have hne : i ≠ .act := by
    rintro rfl
    exact absurd hi Bool.false_ne_true
  have hsame : sameUnits s t := by
    rcases exec_units h with hsame | rfl
    · exact hsame
    · exact effect_sameUnits hi s
  obtain ⟨-, hfilters, hoscs, hdelays, hsmoothers⟩ := hsame
  exact ⟨hfilters, hoscs, hdelays, hsmoothers, fun u j => slotAt_congr (by rw [hdelays]) j, exec_statusFrame hne h⟩

/-- Settles O27: the command names the one filter, which it writes by `FilterRegs.configure` or `FilterRegs.process`. -/
theorem filterCommandsFrame : Obligations.FilterCommandsFrame := by
  intro i u s t hi h
  obtain ⟨hne, hfam, hunit⟩ : i ≠ .act ∧ family? i = some .filt ∧ i.unit? = some u := by
    rcases hi with ⟨a, b, c, rfl⟩ | ⟨x, rfl⟩ <;> exact ⟨nofun, rfl, rfl⟩
  have hdelays : t.delays = s.delays := exec_delays_of_ne hfam hunit h nofun
  refine ⟨fun v hv => unitRegs_filt.mp (exec_frame hfam hunit h (by simp [hv])), fun f f' hf hf' => ?_,
    congrArg Params.nf (exec_params h), exec_oscs_of_ne hfam hunit h nofun, hdelays,
    exec_smoothers_of_ne hfam hunit h nofun, fun v j => slotAt_congr (by rw [hdelays]) j, exec_statusFrame hne h⟩
  rcases exec_filter h hf hf' with rfl | rfl
  · simp
  · rcases hi with ⟨a, b, c, rfl⟩ | ⟨x, rfl⟩ <;> simp [FilterRegs.after]

/-- Settles O28: the command names the one pair, of which it writes an increment or both phases. -/
theorem oscillatorCommandsFrame : Obligations.OscillatorCommandsFrame := by
  intro i u s t hi h
  obtain ⟨hne, hfam, hunit⟩ : i ≠ .act ∧ family? i = some .osc ∧ i.unit? = some u := by
    rcases hi with ⟨x, rfl⟩ | ⟨x, rfl⟩ | rfl <;> exact ⟨nofun, rfl, rfl⟩
  have hdelays : t.delays = s.delays := exec_delays_of_ne hfam hunit h nofun
  refine ⟨fun v hv => unitRegs_osc.mp (exec_frame hfam hunit h (by simp [hv])), fun o o' ho ho' => ?_,
    congrArg Params.no (exec_params h), exec_filters_of_ne hfam hunit h nofun, hdelays,
    exec_smoothers_of_ne hfam hunit h nofun, fun v j => slotAt_congr (by rw [hdelays]) j, exec_statusFrame hne h⟩
  rcases exec_osc h ho ho' with rfl | rfl
  · simp
  · rcases hi with ⟨x, rfl⟩ | ⟨x, rfl⟩ | rfl <;> simp [OscRegs.after]

/-- Settles O29: the command names the one line, which it writes by `DelayLine.push`. -/
theorem delayWriteChangesOneSlot : Obligations.DelayWriteChangesOneSlot := by
  intro u x s t hs h
  have hfam : family? (.dlWr u x) = some .dl := rfl
  have hother : ∀ v, v ≠ u → t.delays[v]? = s.delays[v]? := fun v hv =>
    unitRegs_dl.mp (exec_frame hfam rfl h (by simp [hv]))
  have hlength : t.delays.length = s.delays.length := by
    simpa [State.params] using congrArg (fun p => p.capLog2.length) (exec_params h)
  refine ⟨fun d hd v j hvj => ?slot, hother, fun d d' hd hd' => ?capacity, hlength, exec_filters_of_ne hfam rfl h nofun,
    exec_oscs_of_ne hfam rfl h nofun, exec_smoothers_of_ne hfam rfl h nofun, exec_statusFrame nofun h⟩
  case slot =>
    rcases eq_or_ne v u with rfl | hv
    · obtain ⟨d', hd'⟩ : ∃ d', t.delays[v]? = some d' :=
        ⟨_, List.getElem?_eq_getElem (hlength ▸ lt_length_of_getElem? hd)⟩
      obtain ⟨-, -, -, -, hlines, -⟩ := hs
      obtain ⟨-, -, -, hring, -⟩ := hlines d (List.mem_of_getElem? hd)
      rw [slotAt, slotAt, hd, hd', Option.map_some, Option.map_some]
      rcases exec_delay h hd hd' with rfl | rfl
      · rfl
      · simp [DelayLine.after, Memory.read_write hring, hvj.resolve_left (not_not_intro rfl)]
    · exact slotAt_congr (hother v hv) j
  case capacity =>
    rcases exec_delay h hd hd' with rfl | rfl
    · rfl
    · simp [DelayLine.after]

/-- Settles O30: the command names the one smoother. -/
theorem smootherCommandsFrame : Obligations.SmootherCommandsFrame := by
  intro i u s t hi h
  obtain ⟨hne, hfam, hunit⟩ : i ≠ .act ∧ family? i = some .sm ∧ i.unit? = some u := by
    rcases hi with ⟨x, rfl⟩ | ⟨x, rfl⟩ <;> exact ⟨nofun, rfl, rfl⟩
  have hdelays : t.delays = s.delays := exec_delays_of_ne hfam hunit h nofun
  refine ⟨fun v hv => unitRegs_sm.mp (exec_frame hfam hunit h (by simp [hv])), ?_,
    congrArg Params.ns (exec_params h), exec_filters_of_ne hfam hunit h nofun, exec_oscs_of_ne hfam hunit h nofun, hdelays,
    fun v j => slotAt_congr (by rw [hdelays]) j, exec_statusFrame hne h⟩
  rintro r r' hr hr' ⟨x, rfl⟩
  rcases exec_smoother h hr hr' with rfl | rfl
  · rfl
  · simp [SmootherRegs.after]

end Sys2Proof.Machine

/-! Invariants: the legal state that every step keeps (10_state.md), the bits that no step clears, and the NaNs that stay in a
unit's registers (70_reset_and_hazards.md R247). -/

namespace Sys2Proof.Machine

/-! ## The legal state -/

/-- A command leaves a legal delay line legal. -/
theorem DelayLine.wf_after {d : DelayLine} (h : d.wf) (i : Instr) (u : Nat) : (d.after i u).wf := by
  cases i with
  | act => exact d.wf_activate h
  | dlWr v x =>
    rw [DelayLine.after]
    split_ifs
    · exact d.wf_push h x
    · exact h
  | _ => exact h

theorem effect_delays_wf {s : State} (h : ∀ d ∈ s.delays, d.wf) (i : Instr) : ∀ d ∈ (effect i s).delays, d.wf := by
  intro d' hd'
  obtain ⟨u, hu⟩ := List.mem_iff_getElem?.mp hd'
  rw [effect_delays] at hu
  obtain ⟨d, hd, rfl⟩ := Option.map_eq_some_iff.mp hu
  exact d.wf_after (h d (List.mem_of_getElem? hd)) i u

theorem powerOn_delays_wf {s : State} (h : ∀ d ∈ s.delays, d.wf) : ∀ d ∈ s.powerOn.delays, d.wf := by
  intro d' hd'
  rw [State.powerOn_delays] at hd'
  obtain ⟨d, hd, rfl⟩ := List.mem_map.mp hd'
  obtain ⟨h1, h31, -⟩ := h d hd
  exact DelayLine.wf_reset h1 h31

theorem statusWf_congr {s t : State} (hf : t.faulted = s.faulted) (hc : t.cause = s.cause) (hm : t.fcmd = s.fcmd) :
    t.statusWf ↔ s.statusWf := by
  rw [State.statusWf, State.statusWf, hf, hc, hm]

theorem statusWf_raiseFault (c : Cause) (cmd : Word) (s : State) : (raiseFault c cmd s).statusWf :=
  c.code_range

theorem exec_wf {i : Instr} {s t : State} (hlines : ∀ d ∈ s.delays, d.wf) (hstatus : s.statusWf)
    (h : exec i s = .next t) : (∀ d ∈ t.delays, d.wf) ∧ t.statusWf := by
  rcases exec_cases h with ⟨-, -, rfl⟩ | ⟨c, -, -, rfl⟩ | ⟨-, -, rfl⟩
  · exact ⟨hlines, hstatus⟩
  · exact ⟨hlines, statusWf_raiseFault c _ s⟩
  · exact ⟨effect_delays_wf hlines i, (statusWf_congr (by simp) (by simp) (by simp)).mpr hstatus⟩

theorem step_wf {s t : State} (hlines : ∀ d ∈ s.delays, d.wf) (hstatus : s.statusWf) (h : step s = .next t) :
    (∀ d ∈ t.delays, d.wf) ∧ t.statusWf := by
  rcases step_cases h with ⟨-, rfl⟩ | ⟨-, rfl⟩ | ⟨-, -, rest, res, rfl⟩ | ⟨-, -, c, cmd, rest, rfl⟩ | ⟨-, -, i, rest, hexec⟩
  · exact ⟨powerOn_delays_wf hlines, rfl, rfl⟩
  · exact ⟨hlines, hstatus⟩
  · exact ⟨hlines, hstatus⟩
  · exact ⟨hlines, statusWf_raiseFault c cmd _⟩
  · exact exec_wf (s := s.tookCommand rest) hlines hstatus hexec

/-- Settles O20: the counts are parameters, which no step changes; lines and status by `step_wf`. -/
theorem stepKeepsTheStateLegal : Obligations.StepKeepsTheStateLegal := by
  rintro s t ⟨hnf, hno, hnd, hns, hlines, hstatus⟩ h
  obtain ⟨hlines', hstatus'⟩ := step_wf hlines hstatus h
  have hparams := step_params h
  have hdelays : t.delays.length = s.delays.length := by
    simpa [State.params] using congrArg (fun p => p.capLog2.length) hparams
  exact ⟨(congrArg Params.nf hparams).trans_le hnf, (congrArg Params.no hparams).trans_le hno, hdelays.trans_le hnd,
    (congrArg Params.ns hparams).trans_le hns, hlines', hstatus'⟩

/-! ## Bits that stay set (10_state.md R23, R27, R31, R38) -/

/-- The bits of `t` that are set in `s`. -/
theorem FilterRegs.after_cv {f : FilterRegs} (h : f.cv = true) (i : Instr) (A : Arith F32) (u : Nat) :
    (f.after i A u).cv = true := by
  cases i with
  | filtCfg | filtProc =>
    rw [FilterRegs.after]
    split_ifs <;> simp [h]
  | _ => exact h

theorem OscRegs.after_vf {o : OscRegs} (h : o.vf = true) (i : Instr) (nan : Nat → F32) (u : Nat) :
    (o.after i nan u).vf = true := by
  cases i with
  | oscSetf | oscSets | oscStep =>
    rw [OscRegs.after]
    split_ifs <;> simp [h]
  | _ => exact h

theorem OscRegs.after_vs {o : OscRegs} (h : o.vs = true) (i : Instr) (nan : Nat → F32) (u : Nat) :
    (o.after i nan u).vs = true := by
  cases i with
  | oscSetf | oscSets | oscStep =>
    rw [OscRegs.after]
    split_ifs <;> simp [h]
  | _ => exact h

theorem SmootherRegs.after_vy {r : SmootherRegs} (h : r.vy = true) (i : Instr) (A : Arith F32) (u : Nat) :
    (r.after i A u).vy = true := by
  cases i with
  | smLoad | smStep =>
    rw [SmootherRegs.after]
    split_ifs <;> simp [h]
  | _ => exact h

/-- Settles O23: a step that is no reset leaves the units or runs a command's effect, which keeps each bit. -/
theorem configuredBitsAreNeverCleared : Obligations.ConfiguredBitsAreNeverCleared := by
  intro s t hp h
  rcases step_units hp h with ⟨hact, hfilters, hoscs, -, hsmoothers⟩ | ⟨i, rest, rfl⟩
  · rw [hact, hfilters, hoscs, hsmoothers]
    exact ⟨id, fun u f hf => ⟨f, hf, id⟩, fun u o ho => ⟨o, ho, id, id⟩, fun u r hr => ⟨r, hr, id⟩⟩
  · refine ⟨fun hact => (effect_act _ _).mpr (.inr hact), fun u f hf => ?_, fun u o ho => ?_, fun u r hr => ?_⟩
    · rw [effect_filters, State.tookCommand_filters, hf]
      exact ⟨_, rfl, fun hcv => FilterRegs.after_cv hcv i _ u⟩
    · rw [effect_oscs, State.tookCommand_oscs, ho]
      exact ⟨_, rfl, fun hvf => OscRegs.after_vf hvf i _ u, fun hvs => OscRegs.after_vs hvs i _ u⟩
    · rw [effect_smoothers, State.tookCommand_smoothers, hr]
      exact ⟨_, rfl, fun hvy => SmootherRegs.after_vy hvy i _ u⟩

/-! ## NaNs that stay (70_reset_and_hazards.md R247) -/

/-- A NaN drawn for a result is a NaN. -/
@[simp] theorem isNaN_nan (s : State) (k : Nat) : F32.isNaN (s.nan k) = true := F32.isNaN_nanOf _

section
variable {nan : Nat → F32} (hnan : ∀ k, F32.isNaN (nan k) = true)
include hnan

/-- A NaN in the memory of a filter comes out of every sample. -/
theorem FilterRegs.process_nan (f : FilterRegs) (x : F32) :
    (F32.isNaN f.z1 = true → F32.isNaN (f.process (binary32 nan) x).z1 = true) ∧
    (F32.isNaN f.z2 = true → F32.isNaN (f.process (binary32 nan) x).z2 = true) := by
  refine ⟨fun h => ?_, fun h => ?_⟩
  · have hz1 : (f.process (binary32 nan) x).z1 = nan 5 := F32.add_nan_left _ h
    rw [hz1, hnan]
  · have hz2 : (f.process (binary32 nan) x).z2 = nan 3 := F32.add_nan_left _ h
    rw [hz2, hnan]

/-- A NaN phase is advanced to a NaN: the comparison with a full turn is false. -/
theorem advancePhase_nan {phase : F32} (h : F32.isNaN phase = true) (j k : Nat) (increment : F32) :
    F32.isNaN (advancePhase (nan j) (nan k) phase increment) = true := by
  simp [advancePhase, F32.add_nan_left _ h, F32.gt_nan_left _ (hnan j), hnan]

theorem smoothed_nan {y : F32} (h : F32.isNaN y = true) (target : F32) :
    F32.isNaN (smoothed (binary32 nan) y target) = true := by
  have hy : smoothed (binary32 nan) y target = nan 2 := F32.add_nan_left _ h
  rw [hy, hnan]

theorem FilterRegs.after_nan {i : Instr} (hi : i ≠ .act) (f : FilterRegs) (u : Nat) :
    (F32.isNaN f.z1 = true → F32.isNaN (f.after i (binary32 nan) u).z1 = true) ∧
    (F32.isNaN f.z2 = true → F32.isNaN (f.after i (binary32 nan) u).z2 = true) := by
  cases i with
  | act => exact absurd rfl hi
  | filtCfg =>
    rw [FilterRegs.after]
    split_ifs <;> exact ⟨id, id⟩
  | filtProc v x =>
    rw [FilterRegs.after]
    split_ifs
    · exact FilterRegs.process_nan hnan f x
    · exact ⟨id, id⟩
  | _ => exact ⟨id, id⟩

theorem OscRegs.after_nan {i : Instr} (hi : i ≠ .act) (o : OscRegs) (u : Nat) :
    (F32.isNaN o.pf = true → F32.isNaN (o.after i nan u).pf = true) ∧
    (F32.isNaN o.ps = true → F32.isNaN (o.after i nan u).ps = true) := by
  cases i with
  | act => exact absurd rfl hi
  | oscSetf | oscSets =>
    rw [OscRegs.after]
    split_ifs <;> exact ⟨id, id⟩
  | oscStep v =>
    rw [OscRegs.after]
    split_ifs
    · exact ⟨fun h => advancePhase_nan hnan h 0 1 o.incf, fun h => advancePhase_nan hnan h 2 3 o.incs⟩
    · exact ⟨id, id⟩
  | _ => exact ⟨id, id⟩

theorem SmootherRegs.after_nan {i : Instr} {u : Nat} (hi : ∀ x, i ≠ .smLoad u x) (r : SmootherRegs)
    (h : F32.isNaN r.y = true) : F32.isNaN (r.after i (binary32 nan) u).y = true := by
  cases i with
  | smLoad v x =>
    rw [SmootherRegs.after, if_neg fun huv : v = u => hi x (huv ▸ rfl)]
    exact h
  | smStep v x =>
    rw [SmootherRegs.after]
    split_ifs
    · exact smoothed_nan hnan h x
    · exact h
  | _ => exact h

end

/-- Settles O57: a command leaves the units or has its effect, which adds to a NaN. -/
theorem nanStaysInState : Obligations.NaNStaysInState := by
  intro i s t h hi
  rcases exec_units h with ⟨-, hfilters, hoscs, -, hsmoothers⟩ | rfl
  · rw [hfilters, hoscs, hsmoothers]
    exact ⟨fun u f hf => ⟨f, hf, id, id⟩, fun u o ho => ⟨o, ho, id, id⟩, fun u r hr _ => ⟨r, hr, id⟩⟩
  · refine ⟨fun u f hf => ?_, fun u o ho => ?_, fun u r hr hload => ?_⟩
    · rw [effect_filters, hf]
      exact ⟨_, rfl, FilterRegs.after_nan (isNaN_nan s) hi f u⟩
    · rw [effect_oscs, ho]
      exact ⟨_, rfl, OscRegs.after_nan (isNaN_nan s) hi o u⟩
    · rw [effect_smoothers, hr]
      exact ⟨_, rfl, SmootherRegs.after_nan (isNaN_nan s) hload r⟩

/-- Settles O56: each operation tests for a NaN before anything else, and `oneNaN` makes all NaNs one. -/
theorem nanOperandsAreAlike : Obligations.NaNOperandsAreAlike := by
  refine ⟨isNaN_nan, fun nan a b ha => ⟨F32.add_nan_left b ha, F32.add_nan_right b ha, F32.sub_nan_left b ha,
    F32.sub_nan_right b ha, F32.mul_nan_left b ha, F32.mul_nan_right b ha, F32.div_nan_left b ha, F32.div_nan_right b ha,
    F32.gt_nan_left b ha, F32.gt_nan_right b ha, by simpa using ha, fun a' ha' => ?_⟩⟩
  have hone : F32.oneNaN a = F32.oneNaN a' := by rw [F32.oneNaN, F32.oneNaN, if_pos ha, if_pos ha']
  exact ⟨congrArg Config.tan32 hone, congrArg Config.sin32 hone⟩

end Sys2Proof.Machine

/-! What a command depends on (20_memory.md, 10_state.md R36, R42): of the units only the one it names, and of that one
nothing that power-on reset leaves unspecified. -/

namespace Sys2Proof.Machine

/-! ## The unit that a command names -/

/-- The unit a command names exists when there are registers of it. -/
theorem unitExists_eq {i : Instr} {f : Family} {u : Nat} (hfam : family? i = some f) (hunit : i.unit? = some u)
    (s : State) : unitExists i s = (unitRegs s f u).isSome := by
  rw [unitExists, hfam, hunit, Bool.eq_iff_iff]
  cases f <;> simp [State.count, unitRegs] <;> exact decide_eq_true_iff

section
variable {i : Instr} {f : Family} {u : Nat} (hfam : family? i = some f) (hunit : i.unit? = some u)
include hfam hunit

/-- The configured bits that a command needs are bits of its unit. -/
theorem configuredOk_congr {s t : State} (hregs : unitRegs s f u = unitRegs t f u) :
    configuredOk i s = configuredOk i t := by
  cases i with
  | filtProc | filtRdc1 | filtRdc2 | filtRdd0 =>
    cases hfam
    cases hunit
    exact congrArg (Option.any _) (unitRegs_filt.mp hregs)
  | oscStep | oscRdif | oscRdis =>
    cases hfam
    cases hunit
    exact congrArg (Option.any _) (unitRegs_osc.mp hregs)
  | smStep | smRd =>
    cases hfam
    cases hunit
    exact congrArg (Option.any _) (unitRegs_sm.mp hregs)
  | _ => rfl

/-- The checks on a command look at its unit and STATUS.ACT. -/
theorem firstFault_congr {s t : State} (hact : s.act = t.act) (hregs : unitRegs s f u = unitRegs t f u) :
    firstFault i s = firstFault i t := by
  rw [firstFault, firstFault, unitExists_eq hfam hunit, unitExists_eq hfam hunit, configuredOk_congr hfam hunit hregs,
    hact, hregs]

/-- What a command answers, and what it leaves in its unit, depends on that unit and the draws. -/
theorem effect_congr {s t : State} (hdraws : s.draws = t.draws) (hregs : unitRegs s f u = unitRegs t f u) :
    unitRegs (effect i s) f u = unitRegs (effect i t) f u ∧ results i s = results i t := by
  have hnan : s.nan = t.nan := by
    funext k
    rw [State.nan, State.nan, hdraws]
  have harith : s.arith = t.arith := by rw [State.arith, State.arith, hnan]
  cases f with
  | filt =>
    have hu := unitRegs_filt.mp hregs
    refine ⟨unitRegs_filt.mpr (by rw [effect_filters, effect_filters, hu, harith]), ?_⟩
    cases i with
    | filtCfg => simp [results, effect]
    | filtProc | filtRdz1 | filtRdz2 | filtRdc1 | filtRdc2 | filtRdd0 =>
      cases hunit
      simp [results, effect, hu, harith]
    | _ => cases hfam
  | osc =>
    have hu := unitRegs_osc.mp hregs
    refine ⟨unitRegs_osc.mpr (by rw [effect_oscs, effect_oscs, hu, hnan]), ?_⟩
    cases i with
    | oscSetf | oscSets => simp [results, effect]
    | oscStep | oscTap | oscRdpf | oscRdps | oscRdif | oscRdis =>
      cases hunit
      simp [results, effect, hu, harith, hnan]
    | _ => cases hfam
  | dl =>
    have hu := unitRegs_dl.mp hregs
    refine ⟨unitRegs_dl.mpr (by rw [effect_delays, effect_delays, hu]), ?_⟩
    cases i with
    | dlWr => simp [results, effect]
    | dlRd | dlRdwi | dlPeek =>
      cases hunit
      simp [results, effect, hu, hnan]
    | _ => cases hfam
  | sm =>
    have hu := unitRegs_sm.mp hregs
    refine ⟨unitRegs_sm.mpr (by rw [effect_smoothers, effect_smoothers, hu, harith]), ?_⟩
    cases i with
    | smLoad => simp [results, effect]
    | smStep | smRd =>
      cases hunit
      simp [results, effect, hu, harith]
    | _ => cases hfam

end

/-- Settles O25: the checks (`firstFault_congr`) and the effect (`effect_congr`) depend on the one unit, and every other unit
is left as it was (`exec_frame`). -/
theorem unitsAreIndependent : Obligations.UnitsAreIndependent := by
  intro i f u s s' t t' hfam hunit hact hfaulted hdraws hregs h h'
  refine and_assoc.mp (and_assoc.mp ⟨?_, fun g v => exec_frame hfam hunit h⟩)
  rw [exec_eq] at h h'
  rw [← firstFault_congr hfam hunit hact hregs, ← hfaulted] at h'
  split_ifs at h h' with hdropped
  · cases h
    cases h'
    exact ⟨⟨hregs, hfaulted⟩, [], by simp, by simp⟩
  · cases hc : firstFault i s with
    | some c =>
      rw [hc] at h h'
      cases h
      cases h'
      exact ⟨⟨hregs, rfl⟩, [], by simp, by simp⟩
    | none =>
      rw [hc] at h h'
      cases h
      cases h'
      obtain ⟨hunit', hresults⟩ := effect_congr hfam hunit hdraws hregs
      exact ⟨⟨hunit', by simp [hfaulted]⟩, results i s, effect_outbox i s, hresults ▸ effect_outbox i s'⟩

/-! ## What power-on reset leaves unspecified (10_state.md R36, R42) -/

/-- Lists are related element by element when what stands at each place of them is. -/
theorem forall₂_iff_getElem? {α β : Type} {R : α → β → Prop} {l : List α} {l' : List β} :
    List.Forall₂ R l l' ↔ ∀ u : Nat, Option.Rel R l[u]? l'[u]? := by
  refine ⟨fun h => ?_, fun h => ?_⟩
  · induction h with
    | nil => exact fun _ => .none
    | cons hab _ ih =>
      rintro (_ | u)
      · exact .some hab
      · exact ih u
  · induction l generalizing l' with
    | nil =>
      cases l' with
      | nil => exact .nil
      | cons b l' => cases h 0
    | cons a l ih =>
      cases l' with
      | nil => cases h 0
      | cons b l' =>
        have hab : Option.Rel R (some a) (some b) := h 0
        cases hab with
        | some hab => exact .cons hab (ih fun u => h (u + 1))

/-- Related lists have related elements at a place where there is one. -/
theorem exists_of_forall₂ {α β : Type} {R : α → β → Prop} {l : List α} {l' : List β} (h : List.Forall₂ R l l') {u : Nat}
    (hu : u < l.length) : ∃ a b, l[u]? = some a ∧ l'[u]? = some b ∧ R a b := by
  have hrel := forall₂_iff_getElem?.mp h u
  rw [List.getElem?_eq_getElem hu, List.getElem?_eq_getElem (h.length_eq ▸ hu)] at hrel
  cases hrel with
  | some hab => exact ⟨_, _, List.getElem?_eq_getElem hu, List.getElem?_eq_getElem (h.length_eq ▸ hu), hab⟩

/-! Units whose every field has been written are equal. -/

theorem FilterRegs.eq_of_sameDefined {f g : FilterRegs} (h : f.sameDefined true g) (hcv : f.cv = true) : f = g := by
  obtain ⟨hcv', hc, hz⟩ := h
  obtain ⟨hc1, hc2, hd0⟩ := hc hcv
  obtain ⟨hz1, hz2⟩ := hz rfl
  cases f
  cases g
  simp_all

theorem OscRegs.eq_of_sameDefined {o p : OscRegs} (h : o.sameDefined true p) (hvf : o.vf = true) (hvs : o.vs = true) :
    o = p := by
  obtain ⟨hvf', hvs', hincf, hincs, hphases⟩ := h
  obtain ⟨hpf, hps⟩ := hphases rfl
  have hf := hincf hvf
  have hs := hincs hvs
  cases o
  cases p
  simp_all

theorem DelayLine.eq_of_sameDefined {d e : DelayLine} (h : d.sameDefined true e) : d = e := by
  obtain ⟨hcap, hdata⟩ := h
  obtain ⟨hring, hwi⟩ := hdata rfl
  cases d
  cases e
  simp_all

theorem SmootherRegs.eq_of_sameDefined {r q : SmootherRegs} (h : r.sameDefined q) (hvy : r.vy = true) : r = q := by
  obtain ⟨hvy', hdata⟩ := h
  have hy := hdata hvy
  cases r
  cases q
  simp_all

/-! One unit after a command that its checks let run: what a command writes from what it read is written alike. -/

section
variable {i : Instr} {act : Bool} {u : Nat}

theorem FilterRegs.sameDefined_after {f g : FilterRegs} (h : f.sameDefined act g) (hi : i ≠ .act)
    (hact : needsAct i = true → act = true) (hcv : ∀ x, i = .filtProc u x → f.cv = true) (A : Arith F32) :
    (f.after i A u).sameDefined act (g.after i A u) := by
  cases i with
  | act => exact absurd rfl hi
  | filtCfg v a b c =>
    rw [FilterRegs.after, FilterRegs.after]
    split_ifs
    · obtain ⟨-, -, hz⟩ := h
      exact ⟨rfl, fun _ => ⟨rfl, rfl, rfl⟩, hz⟩
    · exact h
  | filtProc v x =>
    rw [FilterRegs.after, FilterRegs.after]
    split_ifs with hv
    · subst hv
      obtain rfl : act = true := hact rfl
      obtain rfl := FilterRegs.eq_of_sameDefined h (hcv x rfl)
      exact ⟨rfl, fun _ => ⟨rfl, rfl, rfl⟩, fun _ => ⟨rfl, rfl⟩⟩
    · exact h
  | _ => exact h

theorem OscRegs.sameDefined_after {o p : OscRegs} (h : o.sameDefined act p) (hi : i ≠ .act)
    (hact : needsAct i = true → act = true) (hv : i = .oscStep u → o.vf = true ∧ o.vs = true) (nan : Nat → F32) :
    (o.after i nan u).sameDefined act (p.after i nan u) := by
  cases i with
  | act => exact absurd rfl hi
  | oscSetf v x =>
    rw [OscRegs.after, OscRegs.after]
    split_ifs
    · obtain ⟨-, hvs, -, hincs, hphases⟩ := h
      exact ⟨rfl, hvs, fun _ => rfl, hincs, hphases⟩
    · exact h
  | oscSets v x =>
    rw [OscRegs.after, OscRegs.after]
    split_ifs
    · obtain ⟨hvf, -, hincf, -, hphases⟩ := h
      exact ⟨hvf, rfl, hincf, fun _ => rfl, hphases⟩
    · exact h
  | oscStep v =>
    rw [OscRegs.after, OscRegs.after]
    split_ifs with huv
    · subst huv
      obtain rfl : act = true := hact rfl
      obtain ⟨hvf, hvs⟩ := hv rfl
      obtain rfl := OscRegs.eq_of_sameDefined h hvf hvs
      exact ⟨rfl, rfl, fun _ => rfl, fun _ => rfl, fun _ => ⟨rfl, rfl⟩⟩
    · exact h
  | _ => exact h

theorem DelayLine.sameDefined_after {d e : DelayLine} (h : d.sameDefined act e) (hi : i ≠ .act)
    (hact : needsAct i = true → act = true) : (d.after i u).sameDefined act (e.after i u) := by
  cases i with
  | act => exact absurd rfl hi
  | dlWr v x =>
    obtain rfl : act = true := hact rfl
    obtain rfl := DelayLine.eq_of_sameDefined h
    exact ⟨rfl, fun _ => ⟨rfl, rfl⟩⟩
  | _ => exact h

theorem SmootherRegs.sameDefined_after {r q : SmootherRegs} (h : r.sameDefined q)
    (hvy : ∀ x, i = .smStep u x → r.vy = true) (A : Arith F32) : (r.after i A u).sameDefined (q.after i A u) := by
  cases i with
  | smLoad v x =>
    rw [SmootherRegs.after, SmootherRegs.after]
    split_ifs
    · exact ⟨rfl, fun _ => rfl⟩
    · exact h
  | smStep v x =>
    rw [SmootherRegs.after, SmootherRegs.after]
    split_ifs with hv
    · subst hv
      obtain rfl := SmootherRegs.eq_of_sameDefined h (hvy x rfl)
      exact ⟨rfl, fun _ => rfl⟩
    · exact h
  | _ => exact h

end

end Sys2Proof.Machine

/-! What is unspecified after power-on reset is never seen (10_state.md R36, R42): states that agree on the rest step to states
that agree on the rest. -/

namespace Sys2Proof.Machine

/-! ## States that agree on all that is not unspecified -/

theorem any_congr_of_rel {α : Type} {R : α → α → Prop} {a b : Option α} {p : α → Bool} (h : Option.Rel R a b)
    (hp : ∀ x y, R x y → p x = p y) : a.any p = b.any p := by
  cases h with
  | none => rfl
  | some hxy => exact hp _ _ hxy

/-- Looking up related places of two lists and going on in a related way. -/
theorem rel_map {α β : Type} {R : α → α → Prop} {S : β → β → Prop} {a b : Option α} {f g : α → β}
    (h : Option.Rel R a b) (hfg : ∀ x y, a = some x → R x y → S (f x) (g y)) : Option.Rel S (a.map f) (b.map g) := by
  cases h with
  | none => exact .none
  | some hxy => exact .some (hfg _ _ rfl hxy)

section
variable {s t : State} (h : sameDefined s t)
include h

theorem sameDefined_nan : s.nan = t.nan := by
  obtain ⟨-, -, -, -, -, -, -, hdraws, -⟩ := h
  funext k
  rw [State.nan, State.nan, hdraws]

theorem sameDefined_arith : s.arith = t.arith := by
  rw [State.arith, State.arith, sameDefined_nan h]

theorem sameDefined_count : s.count = t.count := by
  obtain ⟨-, -, -, -, -, -, -, -, hfilters, hoscs, hdelays, hsmoothers⟩ := h
  funext f
  cases f with
  | filt => exact hfilters.length_eq
  | osc => exact hoscs.length_eq
  | dl => exact hdelays.length_eq
  | sm => exact hsmoothers.length_eq

theorem sameDefined_raiseFault (c : Cause) (cmd : Word) : sameDefined (raiseFault c cmd s) (raiseFault c cmd t) := by
  obtain ⟨hact, -, -, -, hpor, hinbox, houtbox, hdraws, hunits⟩ := h
  exact ⟨hact, rfl, rfl, rfl, hpor, hinbox, houtbox, hdraws, hunits⟩

theorem sameDefined_tookCommand (rest : List Word) : sameDefined (s.tookCommand rest) (t.tookCommand rest) := by
  obtain ⟨hact, hfaulted, hcause, hfcmd, hpor, -, houtbox, hdraws, hunits⟩ := h
  exact ⟨hact, hfaulted, hcause, hfcmd, hpor, rfl, houtbox, hdraws, hunits⟩

/-- Power-on reset leaves the parameters and the port's queues of the two states, which agree, and nothing else. -/
theorem sameDefined_powerOn : sameDefined s.powerOn t.powerOn := by
  obtain ⟨-, -, -, -, -, hinbox, houtbox, hdraws, hfilters, hoscs, hdelays, hsmoothers⟩ := h
  refine ⟨rfl, rfl, rfl, rfl, rfl, hinbox, houtbox, hdraws, ?_, ?_, ?_, ?_⟩
  · rw [State.powerOn_filters, State.powerOn_filters, hfilters.length_eq]
    exact List.forall₂_same.mpr fun f _ => ⟨rfl, fun _ => ⟨rfl, rfl, rfl⟩, fun _ => ⟨rfl, rfl⟩⟩
  · rw [State.powerOn_oscs, State.powerOn_oscs, hoscs.length_eq]
    exact List.forall₂_same.mpr fun o _ => ⟨rfl, rfl, fun _ => rfl, fun _ => rfl, fun _ => ⟨rfl, rfl⟩⟩
  · rw [State.powerOn_delays, State.powerOn_delays, List.forall₂_map_left_iff, List.forall₂_map_right_iff]
    exact hdelays.imp fun d e hde => ⟨hde.1, fun hact => absurd hact Bool.false_ne_true⟩
  · rw [State.powerOn_smoothers, State.powerOn_smoothers, hsmoothers.length_eq]
    exact List.forall₂_same.mpr fun r _ => ⟨rfl, fun _ => rfl⟩

/-- A configured bit of a unit reads alike. -/
theorem sameDefined_configuredOk (i : Instr) : configuredOk i s = configuredOk i t := by
  obtain ⟨-, -, -, -, -, -, -, -, hfilters, hoscs, -, hsmoothers⟩ := h
  cases i with
  | filtProc u | filtRdc1 u | filtRdc2 u | filtRdd0 u =>
    exact any_congr_of_rel (forall₂_iff_getElem?.mp hfilters u) fun f g ⟨hcv, _⟩ => hcv
  | oscStep u =>
    exact any_congr_of_rel (forall₂_iff_getElem?.mp hoscs u) fun o p ⟨hvf, hvs, _⟩ => congrArg₂ and hvf hvs
  | oscRdif u => exact any_congr_of_rel (forall₂_iff_getElem?.mp hoscs u) fun o p ⟨hvf, _⟩ => hvf
  | oscRdis u => exact any_congr_of_rel (forall₂_iff_getElem?.mp hoscs u) fun o p ⟨_, hvs, _⟩ => hvs
  | smStep u | smRd u => exact any_congr_of_rel (forall₂_iff_getElem?.mp hsmoothers u) fun r q ⟨hvy, _⟩ => hvy
  | _ => rfl

theorem sameDefined_firstFault (i : Instr) : firstFault i s = firstFault i t := by
  have hact : s.act = t.act := h.1
  rw [firstFault, firstFault, unitExists, unitExists, sameDefined_count h, sameDefined_configuredOk h, hact]

/-- What the checks let a command answer is written. -/
theorem sameDefined_results {i : Instr} (hnone : firstFault i s = none) : results i s = results i t := by
  have hnan := sameDefined_nan h
  have harith := sameDefined_arith h
  obtain ⟨hact, hfaulted, hcause, hfcmd, -, -, -, -, hfilters, hoscs, hdelays, hsmoothers⟩ := h
  obtain ⟨hu, hneed, hok, -⟩ := firstFault_eq_none.mp hnone
  cases i with
  | act | filtCfg | oscSetf | oscSets | dlWr | smLoad => simp [results, effect]
  | statRd => simp [results, effect, statusWord, hact, hfaulted, hcause]
  | fcmdRd => simp [results, effect, hfcmd]
  | sat => simp [results, effect, harith]
  | filtProc u x =>
    obtain ⟨f, g, hf, hg, hfg⟩ := exists_of_forall₂ hfilters (of_decide_eq_true hu)
    rw [hneed rfl] at hfg
    obtain rfl := FilterRegs.eq_of_sameDefined hfg (by simpa [configuredOk, hf] using hok)
    simp [results, effect, hf, hg, harith]
  | filtRdz1 u | filtRdz2 u =>
    obtain ⟨f, g, hf, hg, -, -, hz⟩ := exists_of_forall₂ hfilters (of_decide_eq_true hu)
    simp [results, effect, hf, hg, hz (hneed rfl)]
  | filtRdc1 u | filtRdc2 u | filtRdd0 u =>
    obtain ⟨f, g, hf, hg, -, hc, -⟩ := exists_of_forall₂ hfilters (of_decide_eq_true hu)
    simp [results, effect, hf, hg, hc (by simpa [configuredOk, hf] using hok)]
  | oscStep u =>
    obtain ⟨o, p, ho, hp, hop⟩ := exists_of_forall₂ hoscs (of_decide_eq_true hu)
    obtain ⟨hvf, hvs⟩ : o.vf = true ∧ o.vs = true := by simpa [configuredOk, ho] using hok
    rw [hneed rfl] at hop
    obtain rfl := OscRegs.eq_of_sameDefined hop hvf hvs
    simp [results, effect, ho, hp, hnan]
  | oscTap u | oscRdpf u | oscRdps u =>
    obtain ⟨o, p, ho, hp, -, -, -, -, hphases⟩ := exists_of_forall₂ hoscs (of_decide_eq_true hu)
    simp [results, effect, ho, hp, hphases (hneed rfl), harith]
  | oscRdif u =>
    obtain ⟨o, p, ho, hp, -, -, hincf, -⟩ := exists_of_forall₂ hoscs (of_decide_eq_true hu)
    simp [results, effect, ho, hp, hincf (by simpa [configuredOk, ho] using hok)]
  | oscRdis u =>
    obtain ⟨o, p, ho, hp, -, -, -, hincs, -⟩ := exists_of_forall₂ hoscs (of_decide_eq_true hu)
    simp [results, effect, ho, hp, hincs (by simpa [configuredOk, ho] using hok)]
  | dlRd u | dlRdwi u | dlPeek u =>
    obtain ⟨d, e, hd, he, hde⟩ := exists_of_forall₂ hdelays (of_decide_eq_true hu)
    rw [hneed rfl] at hde
    obtain rfl := DelayLine.eq_of_sameDefined hde
    simp [results, effect, hd, he, hnan]
  | smStep u | smRd u =>
    obtain ⟨r, q, hr, hq, hrq⟩ := exists_of_forall₂ hsmoothers (of_decide_eq_true hu)
    obtain rfl := SmootherRegs.eq_of_sameDefined hrq (by simpa [configuredOk, hr] using hok)
    simp [results, effect, hr, hq, harith]

/-- ACT writes the memory of every unit, whatever it was. -/
theorem sameDefined_effect_act : sameDefined (effect .act s) (effect .act t) := by
  obtain ⟨-, hfaulted, hcause, hfcmd, hpor, hinbox, houtbox, hdraws, hfilters, hoscs, hdelays, hsmoothers⟩ := h
  refine ⟨rfl, hfaulted, hcause, hfcmd, hpor, hinbox, houtbox, hdraws, ?_, ?_, ?_, hsmoothers⟩
  · refine List.forall₂_map_left_iff.mpr (List.forall₂_map_right_iff.mpr (hfilters.imp ?_))
    exact fun f g ⟨hcv, hc, _⟩ => ⟨hcv, hc, fun _ => ⟨rfl, rfl⟩⟩
  · refine List.forall₂_map_left_iff.mpr (List.forall₂_map_right_iff.mpr (hoscs.imp ?_))
    exact fun o p ⟨hvf, hvs, hincf, hincs, _⟩ => ⟨hvf, hvs, hincf, hincs, fun _ => ⟨rfl, rfl⟩⟩
  · refine List.forall₂_map_left_iff.mpr (List.forall₂_map_right_iff.mpr (hdelays.imp ?_))
    exact fun d e ⟨hcap, _⟩ => ⟨hcap, fun _ => ⟨rfl, rfl⟩⟩

/-- A command that its checks let run leaves states that agree: it writes and answers only what it reads written. -/
theorem sameDefined_effect {i : Instr} (hnone : firstFault i s = none) : sameDefined (effect i s) (effect i t) := by
  rcases eq_or_ne i .act with rfl | hi
  · exact sameDefined_effect_act h
  have hactOf (s : State) : (effect i s).act = s.act := by rw [Bool.eq_iff_iff, effect_act, or_iff_right hi]
  have hresults := sameDefined_results h hnone
  have hnan := sameDefined_nan h
  have harith := sameDefined_arith h
  obtain ⟨hact, hfaulted, hcause, hfcmd, hpor, hinbox, houtbox, hdraws, hfilters, hoscs, hdelays, hsmoothers⟩ := h
  obtain ⟨-, hneed, hok, -⟩ := firstFault_eq_none.mp hnone
  rw [sameDefined]
  simp only [hactOf, effect_faulted, effect_cause, effect_fcmd, effect_por, effect_inbox, effect_outbox, ← hresults]
  refine ⟨hact, hfaulted, hcause, hfcmd, hpor, hinbox, by rw [houtbox], ?draws, ?filters, ?oscs, ?delays, ?smoothers⟩
  case draws => cases i <;> simp [effect, hdraws]
  case filters =>
    refine forall₂_iff_getElem?.mpr fun u => ?_
    rw [effect_filters, effect_filters, ← harith]
    refine rel_map (forall₂_iff_getElem?.mp hfilters u) fun f g hf hfg => ?_
    refine FilterRegs.sameDefined_after hfg hi hneed ?_ s.arith
    rintro x rfl
    simpa [configuredOk, hf] using hok
  case oscs =>
    refine forall₂_iff_getElem?.mpr fun u => ?_
    rw [effect_oscs, effect_oscs, ← hnan]
    refine rel_map (forall₂_iff_getElem?.mp hoscs u) fun o p ho hop => ?_
    refine OscRegs.sameDefined_after hop hi hneed ?_ s.nan
    rintro rfl
    simpa [configuredOk, ho] using hok
  case delays =>
    refine forall₂_iff_getElem?.mpr fun u => ?_
    rw [effect_delays, effect_delays]
    exact rel_map (forall₂_iff_getElem?.mp hdelays u) fun d e _ hde => DelayLine.sameDefined_after hde hi hneed
  case smoothers =>
    refine forall₂_iff_getElem?.mpr fun u => ?_
    rw [effect_smoothers, effect_smoothers, ← harith]
    refine rel_map (forall₂_iff_getElem?.mp hsmoothers u) fun r q hr hrq => ?_
    refine SmootherRegs.sameDefined_after hrq ?_ s.arith
    rintro x rfl
    simpa [configuredOk, hr] using hok

/-! ## Commands and steps from states that agree -/

theorem sameDefined_exec {i : Instr} {s' : State} (hexec : exec i s = .next s') :
    ∃ t', exec i t = .next t' ∧ sameDefined s' t' := by
  obtain ⟨-, hfaulted, -⟩ := id h
  rw [exec_eq, ← hfaulted, ← sameDefined_firstFault h]
  rcases exec_cases hexec with ⟨hf, hrun, rfl⟩ | ⟨c, hf, hc, rfl⟩ | ⟨hf, hc, rfl⟩
  · exact ⟨t, by simp [hf, hrun], h⟩
  · exact ⟨_, by simp only [hf, hc]; rfl, sameDefined_raiseFault h c i.commandWord⟩
  · have hnot : (s.faulted && !runsFaulted i) = false := by rcases hf with hf | hf <;> simp [hf]
    exact ⟨_, by simp only [hc, hnot]; rfl, sameDefined_effect h hc⟩

/-- Two fetches run one command, or none, in states that agree. -/
def sameFetched : Fetched → Fetched → Prop
  | .run i s, .run j t => i = j ∧ sameDefined s t
  | .settle s, .settle t => sameDefined s t
  | _, _ => False

theorem sameFetched_fetchFaulted (cmd : Word) : sameFetched (fetchFaulted cmd s) (fetchFaulted cmd t) := by
  rw [fetchFaulted, fetchFaulted]
  split_ifs
  · exact ⟨rfl, h⟩
  · exact ⟨rfl, h⟩
  · exact h

theorem sameFetched_fetchCommand (cmd : Word) (rest : List Word) :
    sameFetched (fetchCommand s cmd rest) (fetchCommand t cmd rest) := by
  have htook := sameDefined_tookCommand h rest
  rcases hhead : decodeHead cmd with e | ⟨row, u⟩
  · rw [fetchCommand_illegal hhead, fetchCommand_illegal hhead]
    exact sameDefined_raiseFault htook .illegal cmd
  · have hunit' : unitMissing t row.family u = unitMissing s row.family u := by
      unfold unitMissing
      rw [sameDefined_count h]
    cases hunit : unitMissing s row.family u with
    | true =>
      rw [fetchCommand_badUnit hhead hunit, fetchCommand_badUnit hhead (hunit'.trans hunit)]
      exact sameDefined_raiseFault htook .badUnit cmd
    | false =>
      rcases Nat.lt_or_ge rest.length row.operands with hlen | hlen
      · rw [fetchCommand_wait hhead hunit hlen, fetchCommand_wait hhead (hunit'.trans hunit) hlen]
        exact h
      · rw [fetchCommand_run hhead hunit hlen, fetchCommand_run hhead (hunit'.trans hunit) hlen]
        exact ⟨rfl, sameDefined_tookCommand h (rest.drop row.operands)⟩

theorem sameFetched_fetch : sameFetched (fetch s) (fetch t) := by
  obtain ⟨-, hfaulted, -, -, hpor, hinbox, -⟩ := id h
  cases hp : s.por with
  | true =>
    rw [fetch_por hp, fetch_por (hpor.symm.trans hp)]
    exact sameDefined_powerOn h
  | false =>
    cases hi : s.inbox with
    | nil =>
      rw [fetch_empty hp hi, fetch_empty (hpor.symm.trans hp) (hinbox.symm.trans hi)]
      exact h
    | cons cmd rest =>
      cases hf : s.faulted with
      | true =>
        rw [fetch_faulted hp hi hf, fetch_faulted (hpor.symm.trans hp) (hinbox.symm.trans hi) (hfaulted.symm.trans hf)]
        exact sameFetched_fetchFaulted (sameDefined_tookCommand h rest) cmd
      | false =>
        rw [fetch_command hp hi hf, fetch_command (hpor.symm.trans hp) (hinbox.symm.trans hi) (hfaulted.symm.trans hf)]
        exact sameFetched_fetchCommand h cmd rest

end

/-- Settles O24: the two fetches go the same way (`sameFetched_fetch`), and so does the command that runs
(`sameDefined_exec`). -/
theorem unspecifiedDataIsNeverSeen : Obligations.UnspecifiedDataIsNeverSeen := by
  intro s t s' h hstep
  have hfetched := sameFetched_fetch h
  cases hs : fetch s with
  | settle s₁ =>
    cases ht : fetch t with
    | settle t₁ =>
      rw [hs, ht] at hfetched
      cases (step_settle hs).symm.trans hstep
      exact ⟨t₁, step_settle ht, hfetched⟩
    | run j t₁ =>
      rw [hs, ht] at hfetched
      exact hfetched.elim
  | run i s₁ =>
    cases ht : fetch t with
    | settle t₁ =>
      rw [hs, ht] at hfetched
      exact hfetched.elim
    | run j t₁ =>
      rw [hs, ht] at hfetched
      obtain ⟨rfl, hsame⟩ := hfetched
      rw [step_run ht]
      exact sameDefined_exec hsame ((step_run hs).symm.trans hstep)

end Sys2Proof.Machine

/-! The meaning of each command where its checks pass (41_filter.md to 45_smoother.md): the pseudocode of its rule, a NaN result
being a NaN drawn for it. -/

namespace Sys2Proof.Machine

/-! ## Resonant Filter (41_filter.md) -/

section
variable {s : State} {u : Nat} {f : FilterRegs} (hf : s.faulted = false) (h : s.filters[u]? = some f)
include hf h

theorem exec_filtCfg (a b c : F32) :
    exec (.filtCfg u a b c) s = .next (s.setFilter u (f.configure (filterCoefficients s.arith a b c))).drawn := by
  rw [exec, execFiltCfg, onFilter_some h, issue_ok hf]

theorem exec_filtProc (ha : s.act = true) (hcv : f.cv = true) (x : F32) : exec (.filtProc u x) s =
    .next ((s.setFilter u (f.process s.arith x)).respond [f.output s.arith x]).drawn := by
  rw [exec, execFiltProc, onFilter_some h, needActive_on ha, hcv, needConfigured_true, issue_ok hf]

theorem exec_filtRdz1 (ha : s.act = true) : exec (.filtRdz1 u) s = .next (s.respond [f.z1]) := by
  rw [exec, execFiltRdz1, onFilter_some h, needActive_on ha, issue_ok hf]

theorem exec_filtRdz2 (ha : s.act = true) : exec (.filtRdz2 u) s = .next (s.respond [f.z2]) := by
  rw [exec, execFiltRdz2, onFilter_some h, needActive_on ha, issue_ok hf]

theorem exec_filtRdc1 (hcv : f.cv = true) : exec (.filtRdc1 u) s = .next (s.respond [f.c1]) := by
  rw [exec, execFiltRdc1, onFilter_some h, hcv, needConfigured_true, issue_ok hf]

theorem exec_filtRdc2 (hcv : f.cv = true) : exec (.filtRdc2 u) s = .next (s.respond [f.c2]) := by
  rw [exec, execFiltRdc2, onFilter_some h, hcv, needConfigured_true, issue_ok hf]

theorem exec_filtRdd0 (hcv : f.cv = true) : exec (.filtRdd0 u) s = .next (s.respond [f.d0]) := by
  rw [exec, execFiltRdd0, onFilter_some h, hcv, needConfigured_true, issue_ok hf]

end

/-- Settles O33: the coefficients are those of `filterCoefficients` in the unit's arithmetic. -/
theorem filterConfigureStoresCoefficients : Obligations.FilterConfigureStoresCoefficients := by
  intro u a b c s f hf h
  refine ⟨_, s.nan, isNaN_nan s, exec_filtCfg hf h a b c, ?_, rfl, hf, rfl, rfl⟩
  dsimp only [State.drawn_filters, State.setFilter_filters, FilterRegs.configure, filterCoefficients, State.arith,
    binary32, Config.pi32, Config.one32, Config.two32, Config.four32]

/-- Settles O34: the new memory is `FilterRegs.process` and the answer `FilterRegs.output`, in the unit's arithmetic. -/
theorem filterProcessRecursion : Obligations.FilterProcessRecursion := by
  intro u x s f hf ha h hcv
  exact ⟨_, s.nan, isNaN_nan s, exec_filtProc hf h ha hcv x, ⟨rfl, rfl⟩, ha, hf, rfl⟩

/-- Settles O35: each read-back answers its field. -/
theorem filterReadBacks : Obligations.FilterReadBacks := by
  intro u s f hf h
  exact ⟨fun ha => ⟨exec_filtRdz1 hf h ha, exec_filtRdz2 hf h ha⟩,
    fun hcv => ⟨exec_filtRdc1 hf h hcv, exec_filtRdc2 hf h hcv, exec_filtRdd0 hf h hcv⟩⟩

/-! ## Oscillator Pair (42_oscillator.md) -/

section
variable {s : State} {u : Nat} {o : OscRegs} (hf : s.faulted = false) (h : s.oscs[u]? = some o)
include hf h

theorem exec_oscSetf (x : F32) : exec (.oscSetf u x) s = .next (s.setOsc u { o with incf := x, vf := true }) := by
  rw [exec, execOscSetf, onOsc_some h, issue_ok hf]

theorem exec_oscSets (x : F32) : exec (.oscSets u x) s = .next (s.setOsc u { o with incs := x, vs := true }) := by
  rw [exec, execOscSets, onOsc_some h, issue_ok hf]

theorem exec_oscStep (ha : s.act = true) (hvf : o.vf = true) (hvs : o.vs = true) : exec (.oscStep u) s =
    .next ((s.setOsc u (o.advance s.nan)).respond [(o.advance s.nan).pf, (o.advance s.nan).ps]).drawn := by
  rw [exec, execOscStep, onOsc_some h, needActive_on ha, hvf, hvs, Bool.and_self, needConfigured_true, issue_ok hf]

theorem exec_oscTap (ha : s.act = true) (x a b : F32) :
    exec (.oscTap u x a b) s = .next (s.respond [modulation s.arith o.pf o.ps x a b]).drawn := by
  rw [exec, execOscTap, onOsc_some h, needActive_on ha, issue_ok hf]

theorem exec_oscRdpf (ha : s.act = true) : exec (.oscRdpf u) s = .next (s.respond [o.pf]) := by
  rw [exec, execOscRdpf, onOsc_some h, needActive_on ha, issue_ok hf]

theorem exec_oscRdps (ha : s.act = true) : exec (.oscRdps u) s = .next (s.respond [o.ps]) := by
  rw [exec, execOscRdps, onOsc_some h, needActive_on ha, issue_ok hf]

theorem exec_oscRdif (hvf : o.vf = true) : exec (.oscRdif u) s = .next (s.respond [o.incf]) := by
  rw [exec, execOscRdif, onOsc_some h, hvf, needConfigured_true, issue_ok hf]

theorem exec_oscRdis (hvs : o.vs = true) : exec (.oscRdis u) s = .next (s.respond [o.incs]) := by
  rw [exec, execOscRdis, onOsc_some h, hvs, needConfigured_true, issue_ok hf]

end

/-- Settles O36: each load writes its increment and its bit. -/
theorem oscillatorIncrementsLoad : Obligations.OscillatorIncrementsLoad := by
  intro u x s o hf h
  exact ⟨exec_oscSetf hf h x, exec_oscSets hf h x⟩

/-- Settles O37: the pair is advanced by `OscRegs.advance`, which is `advancePhase` on each phase. -/
theorem oscillatorStepAdvances : Obligations.OscillatorStepAdvances := by
  intro u s o hf ha h hvf hvs
  exact ⟨_, s.nan, isNaN_nan s, exec_oscStep hf h ha hvf hvs, ⟨rfl, rfl⟩, ha, hf, rfl⟩

/-- Settles O38: the answer is `modulation` in the unit's arithmetic. -/
theorem oscillatorTapModulates : Obligations.OscillatorTapModulates := by
  intro u x a b s o hf ha h
  exact ⟨_, s.nan, isNaN_nan s, exec_oscTap hf h ha x a b, rfl, rfl, rfl, rfl, rfl, ha, hf⟩

/-- Settles O39: each read-back answers its field. -/
theorem oscillatorReadBacks : Obligations.OscillatorReadBacks := by
  intro u s o hf h
  exact ⟨fun ha => ⟨exec_oscRdpf hf h ha, exec_oscRdps hf h ha⟩, exec_oscRdif hf h, exec_oscRdis hf h⟩

/-! ## Saturator and Smoother (44_saturator.md, 45_smoother.md) -/

/-- Settles O50: SAT has no check, and answers `saturate` in the unit's arithmetic. -/
theorem saturatorComputes : Obligations.SaturatorComputes := by
  intro z s hf
  have hexec : exec (.sat z) s = .next (s.respond [saturate s.arith z]).drawn := by
    rw [exec, execSat, issue_ok hf]
  exact ⟨_, s.nan, isNaN_nan s, hexec, rfl, rfl, rfl, rfl, rfl, rfl, hf⟩

section
variable {s : State} {u : Nat} {r : SmootherRegs} (hf : s.faulted = false) (h : s.smoothers[u]? = some r)
include hf h

theorem exec_smLoad (x : F32) : exec (.smLoad u x) s = .next (s.setSmoother u { y := x, vy := true }) := by
  rw [exec, execSmLoad, onSmoother_some h, issue_ok hf]

theorem exec_smStep (ha : s.act = true) (hvy : r.vy = true) (x : F32) : exec (.smStep u x) s =
    .next ((s.setSmoother u { r with y := smoothed s.arith r.y x }).respond [smoothed s.arith r.y x]).drawn := by
  rw [exec, execSmStep, onSmoother_some h, needActive_on ha, hvy, needConfigured_true, issue_ok hf]

theorem exec_smRd (hvy : r.vy = true) : exec (.smRd u) s = .next (s.respond [r.y]) := by
  rw [exec, execSmRd, onSmoother_some h, hvy, needConfigured_true, issue_ok hf]

end

/-- Settles O53: the new value of a smoother is `smoothed` in the unit's arithmetic. -/
theorem smootherCommandsCompute : Obligations.SmootherCommandsCompute := by
  intro u x s r hf h
  exact ⟨exec_smLoad hf h x, exec_smRd hf h, fun hvy ha =>
    ⟨_, s.nan, isNaN_nan s, exec_smStep hf h ha hvy x, ⟨rfl, rfl⟩, ha, hf, rfl⟩⟩

/-! ## Delay Line (43_delay.md) -/

/-- Settles O49: the slot of an index is the index modulo the capacity. -/
theorem ringIndicesAlias : Obligations.RingIndicesAlias := by
  intro d i j h31
  refine ⟨d.slot_lt h31 i, fun hij => ?_, fun hi => (d.slot_eq_mod h31 i).trans (Nat.mod_eq_of_lt hi)⟩
  rw [DelayLine.ringRead, DelayLine.ringRead, d.slot_eq_mod h31, d.slot_eq_mod h31]
  exact congrArg d.ring.read hij

/-- Settles O41: the line is written by `DelayLine.push`. -/
theorem delayWriteStoresSample : Obligations.DelayWriteStoresSample := by
  intro u x s d hs hf ha hd
  obtain ⟨-, -, -, -, hlines, -⟩ := hs
  obtain ⟨-, h31, hwi, hring, -⟩ := hlines d (List.mem_of_getElem? hd)
  refine ⟨_, d.push x, exec_dlWr x hf ha hd, rfl, rfl, ?_, fun j => ?_, ha, hf, rfl⟩
  · rw [d.push_wi_toNat h31]
    change _ % d.cap = if _ = d.cap then _ else _
    split_ifs with hlast
    · rw [hlast, Nat.mod_self]
    · exact Nat.mod_eq_of_lt (by omega)
  · rw [DelayLine.push_ring, Memory.read_write hring, d.slot_eq_mod h31, Nat.mod_eq_of_lt hwi]

section
variable {s : State} {u : Nat} {d : DelayLine} (hf : s.faulted = false) (ha : s.act = true) (h : s.delays[u]? = some d)
include hf ha h

theorem exec_dlRd {x : F32} (hx : F32.isFinite x = true) :
    exec (.dlRd u x) s = .next (s.respond [d.readFractional s.nan x]).drawn := by
  rw [exec, execDlRd, onDelay_some h, needActive_on ha, needFinite, if_pos hx, issue_ok hf]

theorem exec_dlRd_badDelay {x : F32} (hx : F32.isFinite x = false) :
    exec (.dlRd u x) s = .next (raiseFault .badDelay (cmdWord 0x31 u) s) := by
  rw [exec, execDlRd, onDelay_some h, needActive_on ha, needFinite, hx, if_neg Bool.false_ne_true, issue_error hf]
  rfl

theorem exec_dlRdwi : exec (.dlRdwi u) s = .next (s.respond [d.wi]) := by
  rw [exec, execDlRdwi, onDelay_some h, needActive_on ha, issue_ok hf]

theorem exec_dlPeek (index : Word) : exec (.dlPeek u index) s = .next (s.respond [d.ringRead index]) := by
  rw [exec, execDlPeek, onDelay_some h, needActive_on ha, issue_ok hf]

end

/-- Settles O43: STATUS.ACT is tested before the delay. -/
theorem delayReadFaults : Obligations.DelayReadFaults := by
  intro u x s d hf hd
  refine ⟨fun ha hx => exec_dlRd_badDelay hf ha hd hx, fun ha => ?_⟩
  rw [exec, execDlRd, onDelay_some hd, needActive_off ha, issue_error hf]
  rfl

/-- Settles O44: the slot that DL.PEEK reads is its index modulo the capacity. -/
theorem delayReadBacks : Obligations.DelayReadBacks := by
  intro u s d hf ha hd h31
  refine ⟨exec_dlRdwi hf ha hd, fun index => ?_⟩
  rw [exec_dlPeek hf ha hd index, DelayLine.ringRead, d.slot_eq_mod h31]
  rfl

/-- Counting back from a word by a whole number, in the unsigned domain (00_scope.md R14). -/
theorem sub_ofInt (w : Word) (n : Int) : w - BitVec.ofInt 32 n = BitVec.ofInt 32 (w.toNat - n) := by
  rw [sub_eq_iff_eq_add, ← BitVec.ofInt_add, Int.sub_add_cancel, BitVec.ofInt_natCast, BitVec.ofNat_toNat,
    BitVec.setWidth_eq]

/-- The slot of a whole number taken as an index: the number modulo the capacity. -/
theorem DelayLine.slot_ofInt {d : DelayLine} (h31 : d.capLog2 ≤ 31) (n : Int) :
    d.slot (BitVec.ofInt 32 n) = (n % (2 ^ d.capLog2 : Int)).toNat := by
  have hdvd : (2 ^ d.capLog2 : Int) ∣ ((2 ^ 32 : Nat) : Int) := by
    exact_mod_cast Nat.pow_dvd_pow 2 (by omega : d.capLog2 ≤ 32)
  have hmod := Int.toNat_emod (Int.emod_nonneg n (by simp : ((2 ^ 32 : Nat) : Int) ≠ 0)) (Int.natCast_nonneg d.cap)
  rw [d.slot_eq_mod h31, BitVec.toNat_ofInt, ← Int.emod_emod_of_dvd n hdvd]
  exact hmod.symm.trans (by simp [DelayLine.cap])

/-- What DL.RD computes: the slot at the floor of the delay behind the write index, the slot before that, and the fraction. -/
theorem DelayLine.readFractional_eq {d : DelayLine} (h31 : d.capLog2 ≤ 31) (nan : Nat → F32) (x : F32) :
    d.readFractional nan x =
      (let s0 := d.ring.read (((d.wi.toNat : Int) - F32.floorInt x) % (2 ^ d.capLog2 : Int)).toNat
       let s1 := d.ring.read (((d.wi.toNat : Int) - F32.floorInt x - 1) % (2 ^ d.capLog2 : Int)).toNat
       F32.add (nan 3) s0 (F32.mul (nan 2) (F32.sub (nan 1) s1 s0)
         (F32.sub (nan 0) x (F32.ofInteger (F32.floorInt x))))) := by
  have htap : d.tap x = BitVec.ofInt 32 (d.wi.toNat - F32.floorInt x) := sub_ofInt _ _
  have htap' : d.tap x - 1 = BitVec.ofInt 32 (d.wi.toNat - F32.floorInt x - 1) := by
    rw [htap, sub_eq_iff_eq_add]
    exact (congrArg (BitVec.ofInt 32) (Int.sub_add_cancel _ 1).symm).trans (BitVec.ofInt_add _ 1)
  rw [DelayLine.readFractional, DelayLine.ringRead, DelayLine.ringRead, htap', htap, d.slot_ofInt h31, d.slot_ofInt h31]
  rfl

/-- Settles O42: `DelayLine.readFractional_eq` gives the two slots and the interpolation. -/
theorem delayReadInterpolates : Obligations.DelayReadInterpolates := by
  intro u x s d hf ha hd h31 hx
  refine ⟨_, s.nan, _, _, isNaN_nan s, exec_dlRd hf ha hd hx, rfl, rfl, ?_, rfl, ha, hf⟩
  exact congrArg (fun w => s.outbox ++ [w]) (d.readFractional_eq h31 s.nan x)

/-- Going back by the whole ring is going back by nothing. -/
theorem DelayLine.slotBack_cap (d : DelayLine) : d.slotBack (2 ^ d.capLog2) = d.slotBack 0 := by
  simp [DelayLine.slotBack]

/-- What DL.RD reads at a delay with floor `D` from a line with a written history (10_state.md R35). -/
theorem DelayLine.readFractional_pushAll {line : DelayLine} (hwf : line.wf) (xs : List F32) (nan : Nat → F32) {x : F32}
    {D : Nat} (hfloor : F32.floorInt x = D) (hD : D < 2 ^ line.capLog2) :
    (line.activate.pushAll xs).readFractional nan x =
      (let s0 := sampleBack xs (if D = 0 then 2 ^ line.capLog2 else D)
       let s1 := sampleBack xs (D + 1)
       F32.add (nan 3) s0 (F32.mul (nan 2) (F32.sub (nan 1) s1 s0) (F32.sub (nan 0) x (F32.ofInteger D)))) := by
  have hread : ∀ k, 1 ≤ k → k ≤ 2 ^ line.capLog2 →
      (line.activate.pushAll xs).ring.read ((line.activate.pushAll xs).slotBack k) = sampleBack xs k :=
    fun k => (line.activate).read_slotBack_pushAll (line.wf_activate hwf) rfl xs
  have hcap : (line.activate.pushAll xs).capLog2 = line.capLog2 := DelayLine.pushAll_capLog2 _ xs
  have hpos : 0 < 2 ^ line.capLog2 := Nat.two_pow_pos _
  obtain ⟨-, h31, -⟩ := hwf
  have hs0 : (line.activate.pushAll xs).ring.read ((line.activate.pushAll xs).slotBack D) =
      sampleBack xs (if D = 0 then 2 ^ line.capLog2 else D) := by
    split_ifs with h0
    · rw [h0, ← DelayLine.slotBack_cap, hcap]
      exact hread _ hpos le_rfl
    · exact hread D (by omega) hD.le
  have hs1 := hread (D + 1) (by omega) hD
  rw [DelayLine.readFractional_eq (hcap ▸ h31), hfloor, ← hs0, ← hs1, DelayLine.slotBack, DelayLine.slotBack, Nat.cast_succ,
    ← Int.sub_sub]

/-- Settles O46: DL.RD answers `DelayLine.readFractional`, which the slot law makes samples of the history. -/
theorem fractionalReadMeaning : Obligations.FractionalReadMeaning := by
  intro xs u line x D s hwf hf ha hd hx hfloor hD
  refine ⟨_, s.nan, isNaN_nan s, exec_dlRd hf ha hd hx, ?_⟩
  exact congrArg (fun w => s.outbox ++ [w]) (line.readFractional_pushAll hwf xs s.nan hfloor hD)

end Sys2Proof.Machine

/-! Binary32 arithmetic (00_scope.md R7 to R13): each operation rounds the exact result once, and the results that rounding does
not give. -/

namespace Sys2Proof.Machine.F32

/-! ## Special results (00_scope.md R11, R13; log entry 12) -/

@[simp] theorem isInf_neg (a : F32) : isInf (neg a) = isInf a := by rw [isInf, isInf, mag_neg]

theorem not_isZero_of_isInf {a : F32} (h : isInf a = true) : isZero a = false := by
  rw [isInf_iff] at h
  rw [isZero, h]
  rfl

theorem isFinite_of_isZero {a : F32} (h : isZero a = true) : isFinite a = true := by
  rw [isZero, decide_eq_true_iff] at h
  rw [isFinite_iff, h]
  decide

/-- A sum of an infinite operand, the other one infinite too. -/
theorem add_inf_inf {nan a b : F32} (ha : isNaN a = false) (hb : isNaN b = false) (hia : isInf a = true)
    (hib : isInf b = true) : add nan a b = if sign a = sign b then a else nan := by
  simp [add, ha, hb, hia, hib]

theorem add_inf_finite {nan a b : F32} (ha : isNaN a = false) (hia : isInf a = true) (hb : isFinite b = true) :
    add nan a b = a := by
  simp [add, ha, hia, not_isNaN_of_isFinite hb, not_isInf_of_isFinite hb]

theorem add_finite_inf {nan a b : F32} (ha : isNaN a = false) (hia : isInf a = true) (hb : isFinite b = true) :
    add nan b a = a := by
  simp [add, ha, hia, not_isNaN_of_isFinite hb, not_isInf_of_isFinite hb]

theorem mul_inf {nan a b : F32} (ha : isNaN a = false) (hb : isNaN b = false) (hia : isInf a = true) :
    mul nan a b = (if isZero b then nan else inf (sign a != sign b)) ∧
    mul nan b a = (if isZero b then nan else inf (sign a != sign b)) := by
  refine ⟨by simp [mul, ha, hb, hia, not_isZero_of_isInf hia], ?_⟩
  rw [bne_comm]
  simp [mul, ha, hb, hia, not_isZero_of_isInf hia]

theorem div_inf_inf {nan a b : F32} (ha : isNaN a = false) (hb : isNaN b = false) (hia : isInf a = true)
    (hib : isInf b = true) : div nan a b = nan := by
  simp [div, ha, hb, hia, hib]

theorem div_inf_finite {nan a b : F32} (ha : isNaN a = false) (hia : isInf a = true) (hb : isFinite b = true) :
    div nan a b = inf (sign a != sign b) := by
  simp [div, ha, hia, not_isNaN_of_isFinite hb, not_isInf_of_isFinite hb]

theorem div_finite_inf {nan a b : F32} (ha : isNaN a = false) (hia : isInf a = true) (hb : isFinite b = true) :
    div nan b a = zero (sign b != sign a) := by
  simp [div, ha, hia, not_isNaN_of_isFinite hb, not_isInf_of_isFinite hb]

theorem div_zero {nan a b : F32} (ha : isFinite a = true) (hb : isZero b = true) :
    div nan a b = (if isZero a then nan else inf (sign a != sign b)) := by
  have hfb := isFinite_of_isZero hb
  simp [div, hb, not_isNaN_of_isFinite ha, not_isInf_of_isFinite ha, not_isNaN_of_isFinite hfb,
    not_isInf_of_isFinite hfb]

theorem add_zero_sum {nan a b : F32} (ha : isFinite a = true) (hb : isFinite b = true) (h : val a + val b = 0) :
    add nan a b = zero (sign a && sign b) := by
  rw [add_finite ha hb, if_pos h]

theorem sub_zero_difference {nan a b : F32} (ha : isFinite a = true) (hb : isFinite b = true) (h : val a = val b) :
    sub nan a b = zero (sign a && !sign b) := by
  rw [sub, add_zero_sum ha (isFinite_neg.trans hb) (by simp [h]), sign_neg]

theorem magVal_mag_pos {a : F32} (h : isZero a = false) : 0 < magVal (mag a) := by
  rw [isZero, decide_eq_false_iff_not] at h
  exact Nat.pos_of_ne_zero (mt magVal_eq_zero.mp h)

/-! ## Rounding to nearest, ties to even (00_scope.md R13) -/

theorem two_mul_overflowAt : 2 * overflowAt = ((magVal 0x7F7FFFFF + magVal 0x7F800000 : Nat) : Int) := by
  have hmax : magVal 0x7F7FFFFF = 16777215 * 2 ^ 253 := magVal_scaled (k := 253) (r := 16777215) (by decide) (by decide)
  have hinf : magVal 0x7F800000 = 16777216 * 2 ^ 253 := magVal_scaled (k := 253) (r := 16777216) (by decide) (by decide)
  rw [overflowAt, hmax, hinf]
  norm_num

/-- Below the midpoint of two numbers the lower one is nearer, and both are as near only on the midpoint. -/
theorem abs_sub_le_of_le_midpoint {n x y : Int} (hxy : x < y) (h : 2 * n ≤ x + y) :
    |n - x| ≤ |n - y| ∧ (|n - x| = |n - y| → 2 * n = x + y) := by
  have hy : |n - y| = y - n := by
    rw [abs_sub_comm, abs_of_nonneg]
    omega
  rw [hy]
  refine ⟨abs_le.mpr (by omega), fun htie => ?_⟩
  rcases abs_choice (n - x) with hx | hx <;> omega

/-- Above the midpoint of two numbers the upper one is nearer. -/
theorem abs_sub_le_of_midpoint_le {n x y : Int} (hxy : y < x) (h : x + y ≤ 2 * n) :
    |n - x| ≤ |n - y| ∧ (|n - x| = |n - y| → 2 * n = x + y) := by
  have hy : |n - y| = n - y := abs_of_nonneg (by omega)
  rw [hy]
  refine ⟨abs_le.mpr (by omega), fun htie => ?_⟩
  rcases abs_choice (n - x) with hx | hx <;> omega

/-- A finite rounded magnitude is nearest among all magnitudes, and even when another one is as near. -/
theorem roundMag_nearest {n d m : Nat} (hd : 0 < d) (hfin : roundMag n d < 0x7F800000) (hm : m ≠ roundMag n d) :
    |(n : Int) - (d * magVal (roundMag n d) : Nat)| ≤ |(n : Int) - (d * magVal m : Nat)| ∧
    (|(n : Int) - (d * magVal (roundMag n d) : Nat)| = |(n : Int) - (d * magVal m : Nat)| → roundMag n d % 2 = 0) := by
  obtain ⟨-, hup, hdown⟩ := roundMag_spec n hd
  rcases Nat.lt_or_gt_of_ne hm with hlt | hgt
  · obtain ⟨q, hq⟩ : ∃ q, roundMag n d = q + 1 := ⟨roundMag n d - 1, by omega⟩
    obtain ⟨hmid, heven⟩ := hdown q hq
    have hle : d * magVal m ≤ d * magVal q := Nat.mul_le_mul_left d (magVal_le.mpr (by omega))
    have hlt' : d * magVal m < d * magVal (roundMag n d) := Nat.mul_lt_mul_of_pos_left (magVal_lt.mpr hlt) hd
    rw [Nat.mul_add] at hmid heven
    obtain ⟨hnear, htie⟩ := abs_sub_le_of_midpoint_le (n := n) (x := (d * magVal (roundMag n d) : Nat))
      (y := (d * magVal m : Nat)) (by omega) (by omega)
    exact ⟨hnear, fun heq => heven (by have := htie heq; omega)⟩
  · obtain ⟨hmid, heven⟩ := hup hfin
    have hle : d * magVal (roundMag n d + 1) ≤ d * magVal m := Nat.mul_le_mul_left d (magVal_le.mpr (by omega))
    have hlt' : d * magVal (roundMag n d) < d * magVal m := Nat.mul_lt_mul_of_pos_left (magVal_lt.mpr hgt) hd
    rw [Nat.mul_add] at hmid heven
    obtain ⟨hnear, htie⟩ := abs_sub_le_of_le_midpoint (n := n) (x := (d * magVal (roundMag n d) : Nat))
      (y := (d * magVal m : Nat)) (by omega) (by omega)
    exact ⟨hnear, fun heq => heven (by have := htie heq; omega)⟩

/-- A number with a sign. -/
def signed (s : Bool) (n : Nat) : Int := if s then -(n : Int) else n

theorem val_eq_signed (a : F32) : val a = signed (sign a) (magVal (mag a)) := rfl

@[simp] theorem abs_signed (s : Bool) (n : Nat) : |signed s n| = n := by
  cases s <;> simp [signed]

theorem neg_signed (s : Bool) (n : Nat) : -signed s n = signed (!s) n := by
  cases s <;> simp [signed]

theorem mul_signed (d : Nat) (s : Bool) (n : Nat) : (d : Int) * signed s n = signed s (d * n) := by
  cases s <;> simp [signed]

theorem signed_mul_signed (s t : Bool) (m n : Nat) : signed s m * signed t n = signed (s != t) (m * n) := by
  cases s <;> cases t <;> simp [signed]

theorem signed_natAbs (x : Int) : signed (decide (x < 0)) x.natAbs = x := by
  rw [signed]
  split_ifs with h <;> simp at h <;> omega

/-- Two numbers with signs are at least as far apart as without, and exactly so with one sign. -/
theorem abs_sub_le_abs_signed_sub (s t : Bool) (m n : Nat) : |(m : Int) - n| ≤ |signed s m - signed t n| := by
  simpa using abs_abs_sub_abs_le (signed s m) (signed t n)

theorem abs_signed_sub_signed (s : Bool) (m n : Nat) : |signed s m - signed s n| = |(m : Int) - n| := by
  cases s
  · rfl
  · rw [signed, signed, if_pos rfl, if_pos rfl, neg_sub_neg, abs_sub_comm]

theorem abs_signed_sub_of_ne {s t : Bool} (h : s ≠ t) (m n : Nat) : |signed s m - signed t n| = m + n := by
  have hn : 0 ≤ (m : Int) + n := by omega
  cases s <;> cases t
  · exact absurd rfl h
  · simp [signed, abs_of_nonneg hn]
  · simpa [signed, abs_sub_comm, add_comm] using abs_of_nonneg hn
  · exact absurd rfl h

theorem abs_sub_eq_add {m n : Nat} (h : |(m : Int) - n| = m + n) : m = 0 ∨ n = 0 := by
  rcases abs_choice ((m : Int) - n) with hmn | hmn <;> omega

theorem lt_overflowAt_iff (n : Nat) {d : Nat} (hd : 0 < d) : (n : Int) < d * overflowAt ↔ roundMag n d < 0x7F800000 := by
  have hover := two_mul_overflowAt
  rw [roundMag_lt_inf n hd]
  zify
  push_cast at hover
  rw [← hover]
  constructor <;> intro h <;> linarith

/-- A finite rounded magnitude with the sign of the exact number is nearest among all numbers, and even when another one is as
near. -/
theorem signed_roundMag_nearest (s t : Bool) {n d : Nat} (m : Nat) (hd : 0 < d) (hfin : roundMag n d < 0x7F800000) :
    |(n : Int) - (d * magVal (roundMag n d) : Nat)| ≤ |signed s n - signed t (d * magVal m)| ∧
    (|(n : Int) - (d * magVal (roundMag n d) : Nat)| = |signed s n - signed t (d * magVal m)| →
      signed t (magVal m) ≠ signed s (magVal (roundMag n d)) → roundMag n d % 2 = 0) := by
  have hsigns := abs_sub_le_abs_signed_sub s t n (d * magVal m)
  rcases eq_or_ne m (roundMag n d) with rfl | hm
  · refine ⟨hsigns, fun htie hne => ?_⟩
    rw [abs_signed_sub_of_ne fun hs => hne (by rw [hs])] at htie
    rcases abs_sub_eq_add htie with rfl | hzero
    · rw [roundMag_zero hd]
    · rw [magVal_eq_zero.mp ((Nat.mul_eq_zero.mp hzero).resolve_left hd.ne')]
  · obtain ⟨hnear, heven⟩ := roundMag_nearest hd hfin hm
    exact ⟨hnear.trans hsigns, fun htie _ => heven (le_antisymm hnear (htie ▸ hsigns))⟩

/-- The sign of a number that is not zero. -/
theorem signed_mul_neg_iff (s : Bool) {n d : Nat} (hn : 0 < n) (hd : 0 < d) : decide (signed s n * d < 0) = s := by
  rw [mul_comm, mul_signed]
  have hprod : 0 < d * n := Nat.mul_pos hd hn
  generalize d * n = k at hprod
  cases s
  · simp [signed]
  · simpa [signed] using hprod

/-- A sign and a rounded magnitude are the exact number rounded to nearest, ties to even. -/
theorem roundsTo_pack (s : Bool) (n : Nat) {d : Nat} (hd : 0 < d) : roundsTo (signed s n) d (pack s (roundMag n d)) := by
  have hthreshold := lt_overflowAt_iff n hd
  have hr : (pack s (roundMag n d)).toNat % 2 = roundMag n d % 2 := by
    rw [toNat_eq, sign_round s n hd, mag_round s n hd]
    cases s
    · simp
    · simp
      omega
  rw [roundsTo, abs_signed, Nat.abs_cast, hr, val_eq_signed (pack s _), sign_round s n hd, mag_round s n hd, mul_signed,
    abs_signed_sub_signed]
  refine ⟨fun h => ?finite, fun h => ?overflow⟩
  case finite =>
    have hlt := hthreshold.mp h
    refine ⟨isFinite_iff.mpr (by rwa [mag_round s n hd]), fun c _ => ?_⟩
    obtain ⟨hnear, heven⟩ := signed_roundMag_nearest s (sign c) (mag c) hd hlt
    rw [val_eq_signed c, mul_signed]
    exact ⟨hnear, heven⟩
  case overflow =>
    have hinf : roundMag n d = 0x7F800000 := by
      have := roundMag_le n hd
      have := mt hthreshold.mpr (not_lt.mpr h)
      omega
    have hpos : 0 < n := by
      rcases Nat.eq_zero_or_pos n with rfl | hpos
      · rw [roundMag_zero hd] at hinf
        cases hinf
      · exact hpos
    rw [hinf, signed_mul_neg_iff s hpos hd]
    rfl

end Sys2Proof.Machine.F32

namespace Sys2Proof.Machine

/-- Settles O60: one lemma for each clause. -/
theorem specialResultsFollowIeee754 : Obligations.SpecialResultsFollowIeee754 := by
  refine fun nan a b ha hb => ⟨fun hia hib => ⟨F32.add_inf_inf ha hb hia hib, ?infSub, F32.div_inf_inf ha hb hia hib⟩,
    fun hia hfb => ⟨F32.add_inf_finite ha hia hfb, F32.add_finite_inf ha hia hfb,
      F32.add_inf_finite ha hia (F32.isFinite_neg.trans hfb), ?finiteSub, F32.div_inf_finite ha hia hfb, ?finiteDiv⟩,
    F32.mul_inf ha hb, F32.div_zero,
    fun hfa hfb => ⟨F32.add_zero_sum hfa hfb, F32.sub_zero_difference hfa hfb, ?signMul, fun h0 => ?signDiv⟩⟩
  case infSub =>
    rw [F32.sub, F32.add_inf_inf ha (by simpa using hb) hia (by simpa using hib), F32.sign_neg]
    cases F32.sign a <;> cases F32.sign b <;> rfl
  case finiteSub => exact F32.add_finite_inf (by simpa using ha) (by simpa using hia) hfb
  case finiteDiv => rw [F32.div_finite_inf ha hia hfb, bne_comm]
  case signMul => rw [F32.mul_finite hfa hfb, F32.sign_round _ _ (Nat.two_pow_pos 149)]
  case signDiv => rw [F32.div_finite hfa hfb h0, F32.sign_round _ _ (F32.magVal_mag_pos h0)]

/-- Of a fraction and of the same one with both signs changed the nearest binary32 is the same. -/
theorem roundsTo_neg {n d : Int} {r : F32} (h : roundsTo n d r) : roundsTo (-n) (-d) r := by
  have hsub : ∀ v : Int, |(-n) - (-d) * v| = |n - d * v| := fun v => by rw [← abs_neg]; ring_nf
  rw [roundsTo] at h ⊢
  simpa only [abs_neg, hsub, neg_mul_neg] using h

section
variable {a b : F32} (ha : F32.isFinite a = true) (hb : F32.isFinite b = true)
include ha hb

theorem roundsTo_add (nan : F32) : roundsTo (F32.val a + F32.val b) 1 (F32.add nan a b) := by
  rw [F32.add_finite ha hb]
  split_ifs with h0
  · have hround := F32.roundsTo_pack (F32.sign a && F32.sign b) 0 Nat.one_pos
    rw [F32.roundMag_zero Nat.one_pos] at hround
    rw [h0]
    simpa [F32.signed, F32.zero] using hround
  · have hround := F32.roundsTo_pack (decide (F32.val a + F32.val b < 0)) (F32.val a + F32.val b).natAbs Nat.one_pos
    rwa [F32.signed_natAbs] at hround

theorem roundsTo_sub (nan : F32) : roundsTo (F32.val a - F32.val b) 1 (F32.sub nan a b) := by
  rw [sub_eq_add_neg, ← F32.val_neg]
  exact roundsTo_add ha (F32.isFinite_neg.trans hb) nan

theorem roundsTo_mul (nan : F32) : roundsTo (F32.val a * F32.val b) (2 ^ 149) (F32.mul nan a b) := by
  rw [F32.mul_finite ha hb, F32.val_eq_signed, F32.val_eq_signed, F32.signed_mul_signed]
  exact F32.roundsTo_pack _ _ (Nat.two_pow_pos 149)

theorem roundsTo_div (h0 : F32.isZero b = false) (nan : F32) :
    roundsTo (2 ^ 149 * F32.val a) (F32.val b) (F32.div nan a b) := by
  have hround := F32.roundsTo_pack (F32.sign a != F32.sign b) (F32.magVal (F32.mag a) * 2 ^ 149) (F32.magVal_mag_pos h0)
  have hnum : 2 ^ 149 * F32.val a = F32.signed (F32.sign a) (F32.magVal (F32.mag a) * 2 ^ 149) := by
    rw [Nat.mul_comm, ← F32.mul_signed]
    rfl
  rw [F32.div_finite ha hb h0, hnum, F32.val_eq_signed b]
  generalize F32.sign b = t at hround ⊢
  cases t with
  | false =>
    rw [Bool.bne_false] at hround ⊢
    exact hround
  | true =>
    rw [Bool.bne_true] at hround ⊢
    have hneg := roundsTo_neg hround
    rwa [F32.neg_signed, Bool.not_not] at hneg

end

/-- Settles O55: each operation gives a sign and a rounded magnitude (`F32.roundsTo_pack`). -/
theorem arithmeticRoundsToNearestEven : Obligations.ArithmeticRoundsToNearestEven := by
  intro nan a b ha hb
  exact ⟨roundsTo_add ha hb nan, roundsTo_sub ha hb nan, roundsTo_mul ha hb nan, fun h0 => roundsTo_div ha hb h0 nan⟩

end Sys2Proof.Machine

/-! Formulas in binary32 (42_oscillator.md to 44_saturator.md): SAT is odd, phases stay within one turn, and the fraction of a
delay is exact. -/

namespace Sys2Proof.Machine

/-! ## SAT is odd (44_saturator.md R180) -/

theorem F32.neg_pack (s : Bool) {m : Nat} (hm : m < 2147483648) : F32.neg (F32.pack s m) = F32.pack (!s) m :=
  F32.ext_sign_mag (by rw [F32.sign_neg, F32.sign_pack s hm, F32.sign_pack _ hm])
    (by rw [F32.mag_neg, F32.mag_pack s hm, F32.mag_pack _ hm])

/-- Settles O52: of a finite operand SAT keeps the sign, and its magnitude depends on the operand's magnitude alone. -/
theorem saturatorIsOdd : Obligations.SaturatorIsOdd := by
  intro n z hz
  have hmag := F32.isFinite_iff.mp hz
  have hden := ksat_le_satDenominator (F32.mag z)
  have hpos : F32.magVal 0 < F32.magVal (satDenominator (F32.mag z)) := F32.magVal_lt.mpr (by omega)
  have hround := F32.roundMag_le (F32.magVal (F32.mag z) * 2 ^ 149) (d := F32.magVal (satDenominator (F32.mag z))) (by omega)
  rw [saturate_finite n hmag, saturate_finite n (by rwa [F32.mag_neg]), F32.sign_neg, F32.mag_neg,
    F32.neg_pack _ (by omega)]

/-! ## Phases within one turn (10_state.md R32, 42_oscillator.md R142) -/

/-- A word of a number below 2^31 is that number with the sign clear. -/
theorem F32.val_of_toNat_lt {a : F32} (h : a.toNat < 2147483648) :
    F32.sign a = false ∧ F32.mag a = a.toNat ∧ F32.val a = (F32.magVal a.toNat : Int) := by
  have hs : F32.sign a = false := by
    rw [F32.sign_eq]
    exact decide_eq_false (Nat.not_le.mpr h)
  have hm : F32.mag a = a.toNat := (F32.mag_eq a).trans (Nat.mod_eq_of_lt h)
  exact ⟨hs, hm, by rw [F32.val_eq_signed, hs, hm]; rfl⟩

/-- The sum of two finite values with the signs clear. -/
theorem F32.add_nonneg (nan : F32) {a b : F32} (ha : a.toNat < 0x7F800000) (hb : b.toNat < 0x7F800000) :
    F32.add nan a b = F32.pack false (F32.roundMag (F32.magVal a.toNat + F32.magVal b.toNat) 1) := by
  obtain ⟨hsa, hma, hva⟩ := F32.val_of_toNat_lt (a := a) (by omega)
  obtain ⟨hsb, hmb, hvb⟩ := F32.val_of_toNat_lt (a := b) (by omega)
  rw [F32.add_finite (F32.isFinite_iff.mpr (by omega)) (F32.isFinite_iff.mpr (by omega)), hva, hvb, hsa, hsb,
    ← Nat.cast_add, Int.natAbs_natCast, decide_eq_false (by omega)]
  split_ifs with h0
  · rw [Int.natCast_eq_zero.mp h0, F32.roundMag_zero Nat.one_pos]
    rfl
  · rfl

/-- The difference of two finite values with the signs clear, the first not the lesser one. -/
theorem F32.sub_nonneg (nan : F32) {a b : F32} (ha : a.toNat < 0x7F800000) (hb : b.toNat ≤ a.toNat) :
    F32.sub nan a b = F32.pack false (F32.roundMag (F32.magVal a.toNat - F32.magVal b.toNat) 1) := by
  obtain ⟨hsa, hma, hva⟩ := F32.val_of_toNat_lt (a := a) (by omega)
  obtain ⟨-, hmb, hvb⟩ := F32.val_of_toNat_lt (a := b) (by omega)
  have hle : F32.magVal b.toNat ≤ F32.magVal a.toNat := F32.magVal_le.mpr hb
  have hdiff : F32.val a + F32.val (F32.neg b) = ((F32.magVal a.toNat - F32.magVal b.toNat : Nat) : Int) := by
    rw [F32.val_neg, hva, hvb]
    omega
  rw [F32.sub, F32.add_finite (F32.isFinite_iff.mpr (by omega))
    (F32.isFinite_neg.trans (F32.isFinite_iff.mpr (by omega))), hdiff, hsa, Int.natAbs_natCast, decide_eq_false (by omega)]
  split_ifs with h0
  · rw [Int.natCast_eq_zero.mp h0, F32.roundMag_zero Nat.one_pos]
    rfl
  · rfl

/-- Finite values with the signs clear are ordered as their words. -/
theorem F32.gt_nonneg {a b : F32} (ha : a.toNat < 0x7F800000) (hb : b.toNat < 0x7F800000) :
    F32.gt a b = decide (b.toNat < a.toNat) := by
  obtain ⟨-, hma, hva⟩ := F32.val_of_toNat_lt (a := a) (by omega)
  obtain ⟨-, hmb, hvb⟩ := F32.val_of_toNat_lt (a := b) (by omega)
  rw [F32.gt, F32.not_isNaN_of_isFinite (F32.isFinite_iff.mpr (by omega)),
    F32.not_isNaN_of_isFinite (F32.isFinite_iff.mpr (by omega)), hva, hvb]
  simp [F32.magVal_lt]

/-- A phase and an increment within one turn are advanced to a phase within one turn: their sum is within two turns, and one
turn is subtracted when the sum is above one. -/
theorem advancePhase_le (nanAdd nanSub : F32) {phase increment : F32} (hp : phase.toNat ≤ 0x40C90FDB)
    (hi : increment.toNat ≤ 0x40C90FDB) : (advancePhase nanAdd nanSub phase increment).toNat ≤ 0x40C90FDB := by
  have hturns : F32.magVal 0x41490FDB = 2 * F32.magVal 0x40C90FDB := by
    rw [F32.magVal_scaled (k := 129) (r := 13176795) (by decide) (by decide),
      F32.magVal_scaled (k := 128) (r := 13176795) (by decide) (by decide)]
    ring
  have hphase : F32.magVal phase.toNat ≤ F32.magVal 0x40C90FDB := F32.magVal_le.mpr hp
  have hincrement : F32.magVal increment.toNat ≤ F32.magVal 0x40C90FDB := F32.magVal_le.mpr hi
  have hsum : F32.roundMag (F32.magVal phase.toNat + F32.magVal increment.toNat) 1 ≤ 0x41490FDB :=
    F32.roundMag_le_of_le Nat.one_pos (by decide) (by omega)
  have hturn : Config.twoPi32.toNat = 0x40C90FDB := rfl
  rw [advancePhase, F32.add_nonneg nanAdd (by omega) (by omega)]
  generalize F32.roundMag (F32.magVal phase.toNat + F32.magVal increment.toNat) 1 = r at hsum
  have hr : (F32.pack false r).toNat = r := (F32.pack_toNat false (by omega)).trans (Nat.zero_add r)
  rw [F32.gt_nonneg (by omega) (by omega), hr, hturn]
  split_ifs with hover
  · have hlt : 0x40C90FDB < r := of_decide_eq_true hover
    have hle : F32.magVal r ≤ F32.magVal 0x41490FDB := F32.magVal_le.mpr hsum
    have hwrapped : F32.roundMag (F32.magVal r - F32.magVal 0x40C90FDB) 1 ≤ 0x40C90FDB :=
      F32.roundMag_le_of_le Nat.one_pos (by decide) (by omega)
    rw [F32.sub_nonneg nanSub (by omega) (by omega), hr, hturn, F32.pack_toNat false (by omega)]
    exact (Nat.zero_add _).trans_le hwrapped
  · rw [hr]
    exact Nat.not_lt.mp fun hlt => hover (decide_eq_true hlt)

/-- Settles O40: each phase is advanced on its own (`advancePhase_le`). -/
theorem phasesStayWithinOneTurn : Obligations.PhasesStayWithinOneTurn := by
  intro u s t o hf ha h hvf hvs hincf hincs hpf hps hexec
  rw [exec_oscStep hf h ha hvf hvs] at hexec
  cases hexec
  refine ⟨o.advance s.nan, ?_, advancePhase_le _ _ hpf hincf, advancePhase_le _ _ hps hincs⟩
  simp [lt_length_of_getElem? h]

/-! ## The fraction of a delay (43_delay.md R161, R166) -/

/-- Every significand at every spacing is the value of a magnitude word. -/
theorem F32.exists_magVal {r : Nat} (hr : r ≤ 16777216) (k : Nat) : ∃ m, F32.magVal m = r * 2 ^ k := by
  induction k generalizing r with
  | zero => exact ⟨r, (F32.magVal_small hr).trans (Nat.mul_one r).symm⟩
  | succ k ih =>
    rcases Nat.lt_or_ge r 8388608 with hlow | hhigh
    · obtain ⟨m, hm⟩ := ih (r := 2 * r) (by omega)
      exact ⟨m, hm.trans (by ring)⟩
    · exact ⟨(k + 1) * 8388608 + r, F32.magVal_scaled hhigh hr⟩

/-- The whole part of a magnitude and the rest, in units of 2^-149, are magnitudes. -/
theorem F32.exists_magVal_floor (m : Nat) :
    (∃ w, F32.magVal w = F32.magVal m / 2 ^ 149 * 2 ^ 149) ∧ ∃ p, F32.magVal p = F32.magVal m % 2 ^ 149 := by
  obtain ⟨k, r, -, -, hr, hval, -⟩ := F32.magVal_form m
  rcases Nat.lt_or_ge k 149 with hk | hk
  · obtain ⟨j, hj⟩ : ∃ j, 149 = j + k := ⟨149 - k, by omega⟩
    have hdiv := Nat.div_mul_le_self r (2 ^ j)
    have hmod := Nat.mod_le r (2 ^ j)
    rw [hval, hj, pow_add, Nat.mul_div_mul_right _ _ (Nat.two_pow_pos k), Nat.mul_mod_mul_right, ← Nat.mul_assoc]
    exact ⟨F32.exists_magVal (by omega) k, F32.exists_magVal (by omega) k⟩
  · have hdvd : 2 ^ 149 ∣ F32.magVal m := hval ▸ Dvd.dvd.mul_left (Nat.pow_dvd_pow 2 hk) r
    exact ⟨⟨m, (Nat.div_mul_cancel hdvd).symm⟩, 0, by rw [Nat.mod_eq_zero_of_dvd hdvd, F32.magVal_zero]⟩

section
variable {delay : F32} (hfin : F32.isFinite delay = true) (hsign : F32.sign delay = false)
include hfin hsign

/-- A finite delay with the sign clear, as a number. -/
theorem delay_toNat : delay.toNat < 0x7F800000 ∧ F32.val delay = F32.magVal delay.toNat := by
  have hmag := F32.isFinite_iff.mp hfin
  have htoNat : delay.toNat = F32.mag delay := by
    rw [F32.toNat_eq, hsign]
    exact Nat.zero_add _
  have hlt : delay.toNat < 0x7F800000 := htoNat ▸ hmag
  exact ⟨hlt, (F32.val_of_toNat_lt (by omega)).2.2⟩

theorem floorInt_delay : F32.floorInt delay = ((F32.magVal delay.toNat / 2 ^ 149 : Nat) : Int) := by
  rw [F32.floorInt, (delay_toNat hfin hsign).2]
  rfl

/-- The whole part of the delay is a binary32, not above the delay. -/
theorem ofInteger_floorInt : ∃ w, F32.ofInteger (F32.floorInt delay) = F32.pack false w ∧ w ≤ delay.toNat ∧
    F32.magVal w = F32.magVal delay.toNat / 2 ^ 149 * 2 ^ 149 := by
  obtain ⟨hlt, -⟩ := delay_toNat hfin hsign
  obtain ⟨⟨w, hw⟩, -⟩ := F32.exists_magVal_floor delay.toNat
  have hle : w ≤ delay.toNat := F32.magVal_le.mp (hw.trans_le (Nat.div_mul_le_self _ _))
  have hexact := F32.roundMag_exact (m := w) Nat.one_pos (by omega)
  refine ⟨w, ?_, hle, hw⟩
  rw [Nat.mul_one, hw] at hexact
  rw [floorInt_delay hfin hsign, F32.ofInteger, Int.natAbs_natCast, hexact, decide_eq_false (by omega)]

/-- The fraction of the delay is the binary32 of the rest. -/
theorem delayFrac_eq (nan : F32) : ∃ p, delayFrac nan delay = F32.pack false p ∧ p < 0x7F800000 ∧
    F32.magVal p = F32.magVal delay.toNat % 2 ^ 149 := by
  obtain ⟨hlt, -⟩ := delay_toNat hfin hsign
  obtain ⟨w, hofInteger, hle, hw⟩ := ofInteger_floorInt hfin hsign
  obtain ⟨-, p, hp⟩ := F32.exists_magVal_floor delay.toNat
  have hple : p ≤ delay.toNat := F32.magVal_le.mp (hp.trans_le (Nat.mod_le _ _))
  have hrest : F32.magVal delay.toNat - F32.magVal w = F32.magVal p * 1 := by
    have := Nat.div_add_mod' (F32.magVal delay.toNat) (2 ^ 149)
    omega
  have hpack : (F32.pack false w).toNat = w := (F32.pack_toNat false (by omega)).trans (Nat.zero_add w)
  refine ⟨p, ?_, by omega, hp⟩
  rw [delayFrac, hofInteger, F32.sub_nonneg nan hlt (by omega), hpack, hrest, F32.roundMag_exact Nat.one_pos (by omega)]

end

/-- Settles O47: the fraction is the rest of the delay modulo 1.0. -/
theorem fractionIsExact : Obligations.FractionIsExact := by
  intro nan delay hfin hsign
  obtain ⟨-, hval⟩ := delay_toNat hfin hsign
  obtain ⟨p, hfrac, hp, hrest⟩ := delayFrac_eq hfin hsign nan
  have hpack : (F32.pack false p).toNat = p := (F32.pack_toNat false (by omega)).trans (Nat.zero_add p)
  obtain ⟨-, hmag, hvalp⟩ := F32.val_of_toNat_lt (a := F32.pack false p) (by omega)
  rw [hpack, hrest] at hvalp
  rw [hfrac, hvalp, hval, floorInt_delay hfin hsign]
  refine ⟨F32.isFinite_iff.mpr (by omega), ?_, by omega, ?_⟩
  · have := Nat.div_add_mod' (F32.magVal delay.toNat) (2 ^ 149)
    push_cast
    omega
  · exact_mod_cast Nat.mod_lt _ (Nat.two_pow_pos 149)

end Sys2Proof.Machine

/-! Two formulas whose value binary32 fixes (43_delay.md R166, 45_smoother.md R188): a read at an integer delay returns the
sample, and a smoothing step ends between the value and the target. -/

namespace Sys2Proof.Machine

/-! ## A read at an integer delay (43_delay.md R161, R166) -/

/-- A word is finite, infinite or a NaN. -/
theorem F32.isFinite_or (a : F32) : F32.isFinite a = true ∨ F32.isInf a = true ∨ F32.isNaN a = true := by
  rw [F32.isFinite_iff, F32.isInf_iff, F32.isNaN_iff]
  omega

theorem F32.not_isFinite_of_isNaN {a : F32} (h : F32.isNaN a = true) : F32.isFinite a = false := by
  rw [← Bool.not_eq_true, F32.isFinite_iff]
  rw [F32.isNaN_iff] at h
  omega

theorem F32.not_isFinite_of_isInf {a : F32} (h : F32.isInf a = true) : F32.isFinite a = false := by
  rw [← Bool.not_eq_true, F32.isFinite_iff]
  rw [F32.isInf_iff] at h
  omega

theorem F32.not_isNaN_of_isInf {a : F32} (h : F32.isInf a = true) : F32.isNaN a = false := by
  rw [← Bool.not_eq_true, F32.isNaN_iff]
  rw [F32.isInf_iff] at h
  omega

/-- A finite difference has a finite subtrahend. -/
theorem F32.isFinite_of_sub {nan a b : F32} (hnan : F32.isNaN nan = true)
    (h : F32.isFinite (F32.sub nan a b) = true) : F32.isFinite b = true := by
  rcases F32.isFinite_or b with hb | hb | hb
  · exact hb
  · have hnb : F32.isNaN (F32.neg b) = false := (F32.isNaN_neg b).trans (F32.not_isNaN_of_isInf hb)
    have hib : F32.isInf (F32.neg b) = true := (F32.isInf_neg b).trans hb
    rcases F32.isFinite_or a with ha | ha | ha
    · rw [F32.sub, F32.add_finite_inf hnb hib ha, F32.not_isFinite_of_isInf hib] at h
      cases h
    · rw [F32.sub, F32.add_inf_inf (F32.not_isNaN_of_isInf ha) hnb ha hib] at h
      split_ifs at h
      · rw [F32.not_isFinite_of_isInf ha] at h
        cases h
      · rw [F32.not_isFinite_of_isNaN hnan] at h
        cases h
    · rw [F32.sub_nan_left b ha, F32.not_isFinite_of_isNaN hnan] at h
      cases h
  · rw [F32.sub_nan_right a hb, F32.not_isFinite_of_isNaN hnan] at h
    cases h

/-- The product of a finite value and +0.0 is a zero with the sign of the value. -/
theorem F32.mul_zero (nan : F32) {a : F32} (ha : F32.isFinite a = true) :
    F32.mul nan a 0#32 = F32.zero (F32.sign a) := by
  have hsign : F32.sign 0#32 = false := rfl
  have hmag : F32.mag 0#32 = 0 := rfl
  rw [F32.mul_finite ha rfl, hsign, hmag, F32.magVal_zero, Nat.mul_zero, F32.roundMag_zero (Nat.two_pow_pos 149),
    Bool.bne_false]
  rfl

theorem F32.val_zero (s : Bool) : F32.val (F32.zero s) = 0 := by
  cases s <;> rfl

/-- A value of 0 is a zero. -/
theorem F32.eq_zero_of_val {a : F32} (h : F32.val a = 0) : a = F32.zero (F32.sign a) := by
  have hmag : F32.mag a = 0 := F32.magVal_eq_zero.mp (by rw [← F32.val_natAbs, h]; rfl)
  rw [F32.zero, ← hmag, F32.pack_sign_mag]

/-- Adding a zero to a finite value leaves it, but that −0.0 with +0.0 is +0.0. -/
theorem F32.add_zero (nan : F32) {a : F32} (ha : F32.isFinite a = true) (s : Bool) :
    F32.add nan a (F32.zero s) = if a = 0x80000000#32 ∧ s = false then 0#32 else a := by
  have hfin : F32.isFinite (F32.zero s) = true := by cases s <;> rfl
  have hsign : F32.sign (F32.zero s) = s := F32.sign_pack s (by decide)
  rw [F32.add_finite ha hfin, F32.val_zero, Int.add_zero, hsign]
  by_cases h0 : F32.val a = 0
  · rw [if_pos h0]
    have hzero := F32.eq_zero_of_val h0
    generalize F32.sign a = t at hzero ⊢
    subst hzero
    cases s <;> cases t <;> rfl
  · have hne : a ≠ 0x80000000#32 := by
      rintro rfl
      exact h0 rfl
    have hpos : 0 < F32.magVal (F32.mag a) := by
      rw [← F32.val_natAbs]
      omega
    have hneg : decide (F32.val a < 0) = F32.sign a := by
      rw [F32.val_eq_signed]
      cases F32.sign a
      · simp [F32.signed]
      · simpa [F32.signed] using hpos
    have hexact := F32.roundMag_exact (m := F32.mag a) Nat.one_pos (F32.isFinite_iff.mp ha).le
    rw [Nat.mul_one] at hexact
    rw [if_neg h0, if_neg fun h => hne h.1, hneg, F32.val_natAbs, hexact, F32.pack_sign_mag]

/-- Settles O48: the fraction is +0.0, so its product with the difference is a zero, and adding a zero leaves the sample. -/
theorem integerDelayReturnsTheSample : Obligations.IntegerDelayReturnsTheSample := by
  refine ⟨fun n line delay hn hfin hsign hint hdiff => ?binary32, fun s0 s1 => ?real⟩
  case binary32 =>
    have hfrac : delayFrac (n 0) delay = 0#32 := by
      obtain ⟨p, hp, -, hrest⟩ := delayFrac_eq hfin hsign (n 0)
      obtain ⟨-, hval⟩ := delay_toNat hfin hsign
      have hp0 : p = 0 := by
        refine F32.magVal_eq_zero.mp (hrest.trans (Nat.mod_eq_zero_of_dvd ?_))
        rw [hval, floorInt_delay hfin hsign] at hint
        exact ⟨_, (Int.natCast_inj.mp (by push_cast; exact hint)).trans (Nat.mul_comm _ _)⟩
      rw [hp, hp0]
      rfl
    have hs0 := F32.isFinite_of_sub (hn 1) hdiff
    have hread : line.readFractional n delay = F32.add (n 3) (line.ringRead (line.tap delay))
        (F32.mul (n 2) (F32.sub (n 1) (line.ringRead (line.tap delay - 1)) (line.ringRead (line.tap delay)))
          (delayFrac (n 0) delay)) := rfl
    rw [hread, hfrac, F32.mul_zero _ hdiff, F32.add_zero _ hs0]
  case real =>
    simp only [interpolate, realArith]
    ring

/-! ## A smoothing step (45_smoother.md R186, R188) -/

theorem F32.signed_true (n : Nat) : F32.signed true n = -(n : Int) := by simp [F32.signed]

theorem F32.signed_false (n : Nat) : F32.signed false n = n := by simp [F32.signed]

/-- A whole number of units of 2^-149 with its magnitude rounded. -/
def F32.rounded (x : Int) : Int := F32.signed (decide (x < 0)) (F32.magVal (F32.roundMag x.natAbs 1))

theorem F32.rounded_neg (x : Int) : F32.rounded (-x) = -F32.rounded x := by
  rcases eq_or_ne x 0 with rfl | hx
  · simp [F32.rounded, F32.roundMag_zero, F32.magVal_zero, F32.signed]
  · have hsign : decide (-x < 0) = !decide (x < 0) := by
      rw [← decide_not, decide_eq_decide]
      omega
    rw [F32.rounded, F32.rounded, Int.natAbs_neg, F32.neg_signed, hsign]

/-- Rounding does not pass a finite value from below. -/
theorem F32.rounded_le {x : Int} {c : F32} (hc : F32.isFinite c = true) (h : x ≤ F32.val c) :
    F32.rounded x ≤ F32.val c := by
  have hfin := F32.isFinite_iff.mp hc
  have habs := F32.val_natAbs c
  rw [F32.rounded]
  rcases Int.lt_or_le x 0 with hx | hx
  · rw [decide_eq_true hx, F32.signed_true]
    rcases Int.lt_or_le (F32.val c) 0 with hneg | hpos
    · have hle : F32.mag c ≤ F32.roundMag x.natAbs 1 := F32.le_roundMag_of_le Nat.one_pos hfin.le (by omega)
      have hmag := F32.magVal_le.mpr hle
      omega
    · omega
  · rw [decide_eq_false (not_lt.mpr hx), F32.signed_false]
    have hle : F32.roundMag x.natAbs 1 ≤ F32.mag c := F32.roundMag_le_of_le Nat.one_pos hfin.le (by omega)
    have hmag := F32.magVal_le.mpr hle
    omega

/-- Rounding does not pass a finite value from above. -/
theorem F32.le_rounded {x : Int} {c : F32} (hc : F32.isFinite c = true) (h : F32.val c ≤ x) :
    F32.val c ≤ F32.rounded x := by
  have hneg := F32.rounded_le (x := -x) (F32.isFinite_neg.trans hc) (by rw [F32.val_neg]; omega)
  rw [F32.rounded_neg, F32.val_neg] at hneg
  omega

section
variable {a b : F32} (ha : F32.isFinite a = true) (hb : F32.isFinite b = true)
include ha hb

/-- The magnitude of a sum, a zero sum included. -/
theorem F32.mag_add (nan : F32) : F32.mag (F32.add nan a b) = F32.roundMag (F32.val a + F32.val b).natAbs 1 := by
  rw [F32.add_finite ha hb]
  split_ifs with h0
  · rw [h0, Int.natAbs_zero, F32.roundMag_zero Nat.one_pos]
    exact F32.mag_pack _ (by decide)
  · exact F32.mag_round _ _ Nat.one_pos

theorem F32.val_add (nan : F32) : F32.val (F32.add nan a b) = F32.rounded (F32.val a + F32.val b) := by
  rw [F32.add_finite ha hb, F32.rounded]
  split_ifs with h0
  · rw [h0, F32.val_zero, Int.natAbs_zero, F32.roundMag_zero Nat.one_pos, F32.magVal_zero]
    rfl
  · exact F32.val_round _ _ Nat.one_pos

theorem F32.mag_sub (nan : F32) : F32.mag (F32.sub nan a b) = F32.roundMag (F32.val a - F32.val b).natAbs 1 := by
  rw [F32.sub, F32.mag_add ha (F32.isFinite_neg.trans hb), F32.val_neg, ← sub_eq_add_neg]

theorem F32.val_sub (nan : F32) : F32.val (F32.sub nan a b) = F32.rounded (F32.val a - F32.val b) := by
  rw [F32.sub, F32.val_add ha (F32.isFinite_neg.trans hb), F32.val_neg, ← sub_eq_add_neg]

end

/-- Two neighbouring magnitudes, the lower one not zero, are at most a factor of two apart. -/
theorem F32.magVal_succ_le_double {m : Nat} (hm : 1 ≤ m) : F32.magVal (m + 1) ≤ 2 * F32.magVal m := by
  obtain ⟨k, r, hform, hr, -, hval, hnext⟩ := F32.magVal_form m
  have hr1 : 1 ≤ r := by
    rcases hr with rfl | hr <;> omega
  rw [hval, hnext, ← Nat.mul_assoc]
  exact Nat.mul_le_mul_right _ (by omega)

theorem F32.magVal_one_unit : F32.magVal 1 = 1 := F32.magVal_small (by decide)

/-- A whole number that rounds to a magnitude is at least a magnitude half as large: rounding goes up by one place at most. -/
theorem F32.exists_magVal_le (e : Nat) :
    ∃ m, m ≤ F32.roundMag e 1 ∧ F32.magVal m ≤ e ∧ F32.magVal (F32.roundMag e 1) ≤ 2 * F32.magVal m := by
  have hbelow : ∀ q, q < F32.roundMag e 1 → F32.magVal q ≤ e := fun q hq => by
    by_contra hlt
    have hle := F32.roundMag_le e Nat.one_pos
    have := F32.roundMag_le_of_le (m := q) (n := e) Nat.one_pos (by omega) (by omega)
    omega
  rcases Nat.lt_or_ge e (F32.magVal (F32.roundMag e 1)) with hup | hdown
  · obtain ⟨q, hq⟩ : ∃ q, F32.roundMag e 1 = q + 1 := by
      refine ⟨F32.roundMag e 1 - 1, ?_⟩
      rcases Nat.eq_zero_or_pos (F32.roundMag e 1) with h0 | hpos
      · rw [h0, F32.magVal_zero] at hup
        omega
      · omega
    have hq1 : 1 ≤ q := by
      by_contra h0
      rw [hq, show q = 0 by omega, F32.magVal_one_unit] at hup
      rw [show e = 0 by omega, F32.roundMag_zero Nat.one_pos] at hq
      omega
    exact ⟨q, by omega, hbelow q (by omega), hq ▸ F32.magVal_succ_le_double hq1⟩
  · exact ⟨_, le_rfl, hdown, by omega⟩

/-- `KSM` times a rounded distance does not round past the distance. -/
theorem magVal_ksm_mul_le (e : Nat) :
    F32.roundMag (F32.magVal (F32.roundMag e 1) * F32.magVal (F32.mag Config.ksm)) (2 ^ 149) ≤ F32.roundMag e 1 ∧
    F32.magVal (F32.roundMag (F32.magVal (F32.roundMag e 1) * F32.magVal (F32.mag Config.ksm)) (2 ^ 149)) ≤ e := by
  have hksm : 2 * F32.magVal (F32.mag Config.ksm) ≤ 2 ^ 149 := by
    rw [show F32.mag Config.ksm = 111 * 8388608 + 13743895 from rfl, F32.magVal_scaled (by decide) (by decide)]
    norm_num
  obtain ⟨m, hm, hle, hdouble⟩ := F32.exists_magVal_le e
  have hinf := F32.roundMag_le e Nat.one_pos
  have hround : F32.roundMag (F32.magVal (F32.roundMag e 1) * F32.magVal (F32.mag Config.ksm)) (2 ^ 149) ≤ m := by
    refine F32.roundMag_le_of_le (Nat.two_pow_pos 149) (by omega) ?_
    calc F32.magVal (F32.roundMag e 1) * F32.magVal (F32.mag Config.ksm)
        ≤ 2 * F32.magVal m * F32.magVal (F32.mag Config.ksm) := Nat.mul_le_mul_right _ hdouble
      _ = F32.magVal m * (2 * F32.magVal (F32.mag Config.ksm)) := by ring
      _ ≤ F32.magVal m * 2 ^ 149 := Nat.mul_le_mul_left _ hksm
  exact ⟨hround.trans hm, (F32.magVal_le.mpr hround).trans hle⟩

/-- A difference that is not zero has the sign of the exact one. -/
theorem F32.sign_sub (nan : F32) {a b : F32} (ha : F32.isFinite a = true) (hb : F32.isFinite b = true)
    (h : F32.val a - F32.val b ≠ 0) : F32.sign (F32.sub nan a b) = decide (F32.val a - F32.val b < 0) := by
  rw [F32.sub, F32.add_finite ha (F32.isFinite_neg.trans hb), F32.val_neg, ← sub_eq_add_neg, if_neg h]
  exact F32.sign_round _ _ Nat.one_pos

/-- The move of a smoothing step is finite, towards the target, and not past it. -/
theorem smoothing_move (nanSub nanMul : F32) {y target : F32} (hy : F32.isFinite y = true)
    (ht : F32.isFinite target = true) (hdiff : F32.isFinite (F32.sub nanSub target y) = true) :
    ∃ m, F32.mul nanMul (F32.sub nanSub target y) Config.ksm = m ∧ F32.isFinite m = true ∧
      (F32.val y ≤ F32.val target → 0 ≤ F32.val m ∧ F32.val m ≤ F32.val target - F32.val y) ∧
      (F32.val target ≤ F32.val y → F32.val target - F32.val y ≤ F32.val m ∧ F32.val m ≤ 0) := by
  obtain ⟨hround, hle⟩ := magVal_ksm_mul_le (F32.val target - F32.val y).natAbs
  have hksm : F32.sign Config.ksm = false := rfl
  have hmag := F32.mag_sub ht hy nanSub
  have hlt := F32.isFinite_iff.mp hdiff
  rw [← hmag] at hround hle
  refine ⟨_, F32.mul_finite hdiff rfl, ?_⟩
  rw [hksm, Bool.bne_false, F32.isFinite_iff, F32.mag_round _ _ (Nat.two_pow_pos 149), F32.val_eq_signed (F32.pack _ _),
    F32.sign_round _ _ (Nat.two_pow_pos 149), F32.mag_round _ _ (Nat.two_pow_pos 149)]
  refine ⟨hround.trans_lt hlt, ?_⟩
  generalize F32.magVal (F32.roundMag _ _) = k at hle ⊢
  have hsign := F32.sign_sub nanSub ht hy
  rcases Int.lt_trichotomy (F32.val target - F32.val y) 0 with hneg | hzero | hpos
  · rw [hsign hneg.ne, decide_eq_true hneg, F32.signed_true]
    omega
  · obtain rfl : k = 0 := by omega
    cases F32.sign (F32.sub nanSub target y) <;> simp [F32.signed]
  · rw [hsign hpos.ne', decide_eq_false (by omega), F32.signed_false]
    omega

/-- Settles O54: the move does not pass the target (`smoothing_move`), and rounding the sum passes neither end. -/
theorem smootherNeverOvershoots : Obligations.SmootherNeverOvershoots := by
  intro n y target hy ht hdiff
  obtain ⟨m, hmul, hm, hup, hdown⟩ := smoothing_move (n 0) (n 1) hy ht hdiff
  have hsmoothed : smoothed (binary32 n) y target = F32.add (n 2) y m := hmul ▸ rfl
  have hmagY := F32.val_natAbs y
  have hmagT := F32.val_natAbs target
  have hfinY := F32.isFinite_iff.mp hy
  have hfinT := F32.isFinite_iff.mp ht
  rw [hsmoothed, F32.isFinite_iff, F32.mag_add hy hm, F32.val_add hy hm]
  refine ⟨?finite, fun h => ?up, fun h => ?down⟩
  case finite =>
    have hbetween : (F32.val y + F32.val m).natAbs ≤ (F32.val y).natAbs ∨
        (F32.val y + F32.val m).natAbs ≤ (F32.val target).natAbs := by
      rcases le_total (F32.val y) (F32.val target) with h | h
      · have := hup h
        omega
      · have := hdown h
        omega
    rcases hbetween with hle | hle
    · exact (F32.roundMag_le_of_le Nat.one_pos hfinY.le (by omega)).trans_lt hfinY
    · exact (F32.roundMag_le_of_le Nat.one_pos hfinT.le (by omega)).trans_lt hfinT
  case up =>
    obtain ⟨hlow, hhigh⟩ := hup h
    exact ⟨F32.le_rounded hy (by omega), F32.rounded_le ht (by omega)⟩
  case down =>
    obtain ⟨hlow, hhigh⟩ := hdown h
    exact ⟨F32.le_rounded ht (by omega), F32.rounded_le hy (by omega)⟩

end Sys2Proof.Machine

/-! The filter over the real numbers (41_filter.md §4): what a constant input settles to, and the decay of the impulse
response. -/

namespace Sys2Proof.Machine

/-! ## The recursion over the reals -/

theorem filterX_real (z1 z2 input : ℝ) : filterX realArith z1 z2 input = input - z1 - z2 := rfl

theorem filterZ1_real (c1 z1 z2 input : ℝ) : filterZ1 realArith c1 z1 z2 input = z1 + c1 * (input - z1 - z2) := rfl

theorem filterZ2_real (c2 z1 z2 : ℝ) : filterZ2 realArith c2 z1 z2 = z2 + c2 * z1 := rfl

theorem filterOut_real (c2 d0 z1 z2 input : ℝ) :
    filterOut realArith c2 d0 z1 z2 input = d0 * (input - z1 - z2) + (z2 + c2 * z1) := rfl

/-- Settles O58: at a fixed point the two increments, `c2 z1` and `c1 (v - z1 - z2)`, are zero. -/
theorem realFilterPassesDC : Obligations.RealFilterPassesDC := by
  intro c1 c2 d0 v z1 z2 hc1 hc2
  rw [filterZ1_real, filterZ2_real, filterOut_real, add_eq_left, add_eq_left, mul_eq_zero_iff_left hc1,
    mul_eq_zero_iff_left hc2]
  refine ⟨⟨fun ⟨hx, h1⟩ => ⟨h1, by linarith⟩, fun ⟨h1, h2⟩ => ⟨by linarith, h1⟩⟩, ?_⟩
  rintro rfl rfl
  ring

/-! ## Decay of a second-order recursion -/

/-- How much of the squares of two neighbouring terms the energy loses at a step. -/
noncomputable def energyLoss (T D : ℝ) : ℝ := (1 - D) * ((1 + D) ^ 2 - T ^ 2) / 2

/-- An energy of two neighbouring terms `u` and `v` of the recursion `y (k + 2) = T * y (k + 1) - D * y k`. -/
noncomputable def recursionEnergy (T D u v : ℝ) : ℝ :=
  (1 + D) * u ^ 2 - 2 * T * D * u * v + ((1 + D) * D ^ 2 + energyLoss T D) * v ^ 2

theorem recursionEnergy_step (T D u v : ℝ) :
    energyLoss T D * (u ^ 2 + v ^ 2) + recursionEnergy T D (T * u - D * v) u = recursionEnergy T D u v := by
  simp only [recursionEnergy, energyLoss]
  ring

section
variable {T D : ℝ} (hT : |T| < 1 + D)
include hT

theorem sq_lt_of_stability_triangle : 0 < 1 + D ∧ 0 < (1 + D) ^ 2 - T ^ 2 := by
  have hpos : 0 < 1 + D := (abs_nonneg T).trans_lt hT
  exact ⟨hpos, sub_pos.mpr (sq_lt_sq.mpr (by rwa [abs_of_pos hpos]))⟩

variable (hD : D < 1)
include hD

theorem energyLoss_pos : 0 < energyLoss T D := by
  obtain ⟨-, hsq⟩ := sq_lt_of_stability_triangle hT
  exact half_pos (mul_pos (sub_pos.mpr hD) hsq)

theorem recursionEnergy_nonneg (u v : ℝ) : 0 ≤ recursionEnergy T D u v := by
  obtain ⟨hpos, hsq⟩ := sq_lt_of_stability_triangle hT
  have hloss := energyLoss_pos hT hD
  have hsquares : (1 + D) * recursionEnergy T D u v = ((1 + D) * u - T * D * v) ^ 2 +
      (D ^ 2 * ((1 + D) ^ 2 - T ^ 2) + (1 + D) * energyLoss T D) * v ^ 2 := by
    rw [recursionEnergy]
    ring
  refine nonneg_of_mul_nonneg_right (b := recursionEnergy T D u v) ?_ hpos
  rw [hsquares]
  positivity

/-- A second-order recursion inside the stability triangle decays: the energy falls at each step by a multiple of the sum of
the two squares, so the squares have a finite sum. -/
theorem tendsto_zero_of_stability_triangle {y : ℕ → ℝ} (hy : ∀ k, y (k + 2) = T * y (k + 1) - D * y k) :
    Filter.Tendsto y Filter.atTop (nhds 0) := by
  have hloss := energyLoss_pos hT hD
  have hsum : ∀ n, ∑ k ∈ Finset.range n, energyLoss T D * y k ^ 2 + recursionEnergy T D (y (n + 1)) (y n) ≤
      recursionEnergy T D (y 1) (y 0) := by
    intro n
    induction n with
    | zero => simp
    | succ n ih =>
      have hstep := recursionEnergy_step T D (y (n + 1)) (y n)
      have hsq : 0 ≤ energyLoss T D * y (n + 1) ^ 2 := by positivity
      rw [Finset.sum_range_succ, hy]
      linarith
  have hsummable : Summable fun k => energyLoss T D * y k ^ 2 :=
    summable_of_sum_range_le (fun k => by positivity)
      fun n => (le_add_of_nonneg_right (recursionEnergy_nonneg hT hD _ _)).trans (hsum n)
  have hsquares := ((summable_mul_left_iff hloss.ne').mp hsummable).tendsto_atTop_zero
  rw [tendsto_zero_iff_abs_tendsto_zero]
  simpa [Function.comp_def, Real.sqrt_sq_eq_abs] using hsquares.sqrt

end

/-! ## Stability in the source's range (41_filter.md §4) -/

/-- The frequency term of the coefficients, `2 tan(π fc / fs)`, is positive for a cutoff in (0, fs/4). -/
theorem two_tan_pos {fc fs : ℝ} (hfc : 0 < fc) (hfs : fc < fs / 4) : 0 < 2 * Real.tan (Real.pi * (fc / fs)) := by
  have hfs0 : 0 < fs := by linarith
  have hratio : fc / fs < 1 / 2 := by
    rw [div_lt_iff₀ hfs0]
    linarith
  have hangle : Real.pi * (fc / fs) < Real.pi / 2 := by
    have := mul_lt_mul_of_pos_left hratio Real.pi_pos
    linarith
  exact mul_pos two_pos (Real.tan_pos_of_pos_of_lt_pi_div_two (by positivity) hangle)

/-- Coefficients built from positive resonance and frequency terms lie inside the stability triangle of the recursion. -/
theorem stability_of_terms_pos {a b c1 c2 : ℝ} (ha : 0 < a) (hb : 0 < b) (h1 : c1 = (a + b) / (1 + a / 2 + b / 4))
    (h2 : c2 = b / (a + b)) : 0 < c1 ∧ 0 < c2 ∧ c2 < 1 ∧ 0 < 4 - 2 * c1 + c1 * c2 := by
  have hsum : 4 - 2 * c1 + c1 * c2 = 4 / (1 + a / 2 + b / 4) := by
    rw [h1, h2]
    field_simp
    ring
  rw [hsum, h1, h2, div_lt_one (add_pos ha hb)]
  exact ⟨by positivity, by positivity, by linarith, by positivity⟩

theorem filterCoefficients_stable {fc q fs c1 c2 d0 : ℝ} (hfc : 0 < fc) (hfs : fc < fs / 4) (hq : 0 < q)
    (h : (c1, c2, d0) = filterCoefficients realArith fc q fs) :
    0 < c1 ∧ 0 < c2 ∧ c2 < 1 ∧ 0 < 4 - 2 * c1 + c1 * c2 :=
  have hw := two_tan_pos hfc hfs
  stability_of_terms_pos (div_pos hw hq) (mul_pos hw hw) (congrArg (fun c => c.1) h) (congrArg (fun c => c.2.1) h)

/-- Once the input is zero `z2` follows a second-order recursion of its own. -/
theorem z2_recursion (c1 c2 z1 z2 : ℝ) :
    filterZ2 realArith c2 (filterZ1 realArith c1 z1 z2 0) (filterZ2 realArith c2 z1 z2) =
      (2 - c1) * filterZ2 realArith c2 z1 z2 - (1 - c1 + c1 * c2) * z2 := by
  rw [filterZ1_real, filterZ2_real, filterZ2_real]
  ring

/-- Settles O59: after the impulse `z2` follows a decaying recursion, `z1` is a multiple of its increments, and the output is
a combination of the two. -/
theorem realFilterIsStable : Obligations.RealFilterIsStable := by
  intro fc q fs hfc hfs hq _ c1 c2 d0 z1 z2 input hcoefficients hinput _ _ hz1 hz2
  obtain ⟨hc1, hc2, hc2lt, hjury⟩ := filterCoefficients_stable hfc hfs (by linarith) hcoefficients
  have hinput0 : ∀ k, input (k + 1) = 0 := fun k => by rw [hinput, if_neg k.succ_ne_zero]
  have hprod : 0 < c1 * c2 := mul_pos hc1 hc2
  have hlt : c1 * c2 < c1 := mul_lt_of_lt_one_right hc1 hc2lt
  have hz2tendsto : Filter.Tendsto (fun k => z2 (k + 1)) Filter.atTop (nhds 0) := by
    refine tendsto_zero_of_stability_triangle (T := 2 - c1) (D := 1 - c1 + c1 * c2)
      (abs_lt.mpr ⟨by linarith, by linarith⟩) (by linarith) fun k => ?_
    rw [hz2 (k + 2), hz1 (k + 1), hinput0, hz2 (k + 1)]
    exact z2_recursion c1 c2 (z1 (k + 1)) (z2 (k + 1))
  have hz1tendsto : Filter.Tendsto (fun k => z1 (k + 1)) Filter.atTop (nhds 0) := by
    have hz1eq : ∀ k, z1 (k + 1) = (z2 (k + 1 + 1) - z2 (k + 1)) / c2 := fun k => by
      rw [hz2 (k + 1), filterZ2_real, add_sub_cancel_left, mul_div_cancel_left₀ _ hc2.ne']
    have hnext := (Filter.tendsto_add_atTop_iff_nat 1).mpr hz2tendsto
    simpa [hz1eq] using (hnext.sub hz2tendsto).div_const c2
  have htendsto : Filter.Tendsto (fun k => filterOut realArith c2 d0 (z1 k) (z2 k) (input k)) Filter.atTop (nhds 0) := by
    rw [← Filter.tendsto_add_atTop_iff_nat 1]
    have hx := ((hz1tendsto.neg.sub hz2tendsto).const_mul d0).add (hz2tendsto.add (hz1tendsto.const_mul c2))
    simpa [filterOut_real, hinput0] using hx
  refine ⟨?_, htendsto⟩
  obtain ⟨M, hM⟩ := htendsto.abs.bddAbove_range
  exact ⟨M, fun k => hM ⟨k, rfl⟩⟩

end Sys2Proof.Machine
